-- ==== Sys2Proof/Word.lean ====
section
/-! DEFINITION. The two word types of the block: the 8-bit field (10_state.md R30, 20_memory.md R75) and the
32-bit request word (30_encoding.md R100). -/

namespace Sys2Proof

/-- One 8-bit field, register, buffer cell, status or response (R7, R30, R44). -/
abbrev Byte := BitVec 8

/-- One word of the request port (R100). -/
abbrev Word := BitVec 32

end Sys2Proof
end

