-- ==== Sys2Proof/Config.lean ====
section
/-! DEFINITION. What is fixed for a block: the fixed parameters of 00_scope.md R7 as numbers, the parameters R8
leaves OPEN as plain data (`Params`, held in State and never written), the six physical registers (R44), and the one
free value of the model, the order of the agents' turns (20_memory.md R80, 60_exceptions.md R312). -/

namespace Sys2Proof

namespace Config

/-- R7 `CAPACITY`: the buffer's bytes. -/
def capacity : Nat := 32
/-- R7 `OVERSIZE_CODE`: the response of `REQUEST_FROM` for a quantity above the capacity. -/
def oversizeCode : Byte := 255
/-- R104: the role guard's response of `END_TRANSMISSION`. -/
def guardCode : Byte := 255
/-- R7 `FILLER`: the byte a slave sends when its transmit callback supplied none. -/
def filler : Byte := 0xFF
/-- R7 `READ_EMPTY`: the response of `READ` when no byte is unread. -/
def readEmpty : Byte := 0
/-- R8 `OFFSET` of the divisor formula. -/
def offset : Nat := 16
/-- R8 `DEFAULT_FREQ`, in Hz, of the pseudo-instruction `begin()` (R125). -/
def defaultFreq : BitVec 24 := 100000
/-- R8 `PRESCALE`: the speed-select bits hold 0 and no rule writes them (R46). -/
def prescale : Nat := 1

end Config

/-- The six physical registers (10_state.md R44; 20_memory.md R71). -/
inductive PhysReg where
  | bitrate | status | ownAddr | data | control | addrMask
  deriving DecidableEq, Repr, Inhabited

/-- The contents of the six physical registers, 8 bits each (R44 to R50, R58). -/
structure PhysRegs where
  bitrate  : Byte
  status   : Byte
  ownAddr  : Byte
  data     : Byte
  control  : Byte
  addrMask : Byte
  deriving DecidableEq, Repr, Inhabited

/-- R8 `RegLoc`: where each physical register is. No rule depends on the values (R77). -/
structure RegLoc where
  bitrate  : Nat
  status   : Nat
  ownAddr  : Nat
  data     : Nat
  control  : Nat
  addrMask : Nat
  deriving DecidableEq, Repr, Inhabited

/-- The OPEN parameters of 00_scope.md R8 and 10_state.md R55, fixed for a run (20_memory.md R88, R90). -/
structure Params where
  /-- `F_CLK`, the system clock in Hz. -/
  fClk : Nat
  /-- `CallbackBody`: callback id to the body's request words. An id with no entry names the empty body. -/
  callbackBody : List (Byte × List Word)
  /-- `RegLoc`. -/
  regLoc : RegLoc
  /-- `PhysReset`: the physical registers after reset (R55). -/
  physReset : PhysRegs
  deriving DecidableEq, Repr, Inhabited

/-- One move of the run: which agent steps (R9), and for the bus engine what it does (60_exceptions.md R322). -/
inductive Turn where
  /-- Agent `C` attempts its next atomic step. -/
  | caller
  /-- Agent `H` attempts to take the pending event, or to go on after its hold. -/
  | handler
  /-- Agent `B` attempts `POST(st, din)`. -/
  | post (st din : Byte)
  /-- Agent `B` attempts `STOPDONE`. -/
  | stopDone
  deriving DecidableEq, Repr, Inhabited

/-- The parameters of the block after reset. No source fixes them, so nothing in Lean can evaluate them
(notes/assumptions/2.md). -/
opaque Config.params : Params

/-- Whose turn is the n-th, where the state lists no turn: a free value, so that a claim holds for every interleaving
and for every choice of the adversarial bus engine (R80, R312, R322; notes/assumptions/1.md). -/
opaque Config.freeTurn : Nat → Turn

end Sys2Proof
end

