-- ==== Sys2Proof/Syntax.lean ====
section
/-! DEFINITION. The instructions of the block: the thirteen requests and the payload word (30_encoding.md R109), and
the thirty-two event codes (R112, R114). One constructor per row of spec/opcode_table.json. -/

namespace Sys2Proof

/-- One request of the request port or one event of the event port. In an event, `low` is `st[2:0]`, which
`classify` ignores (R113), and `din` is the data byte the event carries (R111). -/
inductive Instr where
  -- requests (R109)
  | beginMaster (f : BitVec 24)
  | beginSlave (a : BitVec 7)
  | setFrequency (f : BitVec 24)
  | endBus
  | setOnReceive (b : Byte)
  | setOnTransmit (b : Byte)
  | beginTransmission (a : BitVec 7)
  | write (b : Byte)
  | writeBlock (bytes : List Byte)
  | endTransmission (s : Bool)
  | requestFrom (a : BitVec 7) (q : Byte) (s : Bool)
  | available
  | read
  | writeBlockPayload (b : Byte)
  -- events (R112)
  | evtStart (low : BitVec 3) (din : Byte)
  | evtRepStart (low : BitVec 3) (din : Byte)
  | evtMtSlaAck (low : BitVec 3) (din : Byte)
  | evtMtDataAck (low : BitVec 3) (din : Byte)
  | evtMtSlaNack (low : BitVec 3) (din : Byte)
  | evtMtDataNack (low : BitVec 3) (din : Byte)
  | evtArbLost (low : BitVec 3) (din : Byte)
  | evtMrSlaAck (low : BitVec 3) (din : Byte)
  | evtMrDataAck (low : BitVec 3) (din : Byte)
  | evtMrDataNack (low : BitVec 3) (din : Byte)
  | evtMrSlaNack (low : BitVec 3) (din : Byte)
  | evtSrSlaAck (low : BitVec 3) (din : Byte)
  | evtSrArbLostSlaAck (low : BitVec 3) (din : Byte)
  | evtSrGcallAck (low : BitVec 3) (din : Byte)
  | evtSrArbLostGcallAck (low : BitVec 3) (din : Byte)
  | evtSrDataAck (low : BitVec 3) (din : Byte)
  | evtSrGcallDataAck (low : BitVec 3) (din : Byte)
  | evtSrDataNack (low : BitVec 3) (din : Byte)
  | evtSrGcallDataNack (low : BitVec 3) (din : Byte)
  | evtSrStop (low : BitVec 3) (din : Byte)
  | evtStSlaAck (low : BitVec 3) (din : Byte)
  | evtStArbLostSlaAck (low : BitVec 3) (din : Byte)
  | evtStDataAck (low : BitVec 3) (din : Byte)
  | evtStDataNack (low : BitVec 3) (din : Byte)
  | evtStLastData (low : BitVec 3) (din : Byte)
  | evtBusError (low : BitVec 3) (din : Byte)
  | evtNoInfo (low : BitVec 3) (din : Byte)
  -- codes with no class (R114)
  | evtUnknownD0 (low : BitVec 3) (din : Byte)
  | evtUnknownD8 (low : BitVec 3) (din : Byte)
  | evtUnknownE0 (low : BitVec 3) (din : Byte)
  | evtUnknownE8 (low : BitVec 3) (din : Byte)
  | evtUnknownF0 (low : BitVec 3) (din : Byte)
  deriving DecidableEq, Repr

/-- The status classes of R112, and `unknown` for the codes of R114. -/
inductive StatusClass where
  | start | repStart
  | mtSlaAck | mtSlaNack | mtDataAck | mtDataNack
  | arbLost
  | mrSlaAck | mrSlaNack | mrDataAck | mrDataNack
  | srSlaAck | srArbLostSlaAck | srGcallAck | srArbLostGcallAck
  | srDataAck | srDataNack | srGcallDataAck | srGcallDataNack | srStop
  | stSlaAck | stArbLostSlaAck | stDataAck | stDataNack | stLastData
  | busError | noInfo | unknown
  deriving DecidableEq, Repr

namespace Instr

/-- The pseudo-instruction `begin()` (R125). -/
def beginDefault : Instr := .beginMaster Config.defaultFreq
/-- The pseudo-instruction `endTransmission()` (R125). -/
def endTransmissionDefault : Instr := .endTransmission true
/-- The pseudo-instruction `requestFrom(address, quantity)` (R125). -/
def requestFromDefault (a : BitVec 7) (q : Byte) : Instr := .requestFrom a q true

end Instr

end Sys2Proof
end

