-- ==== Sys2Proof/WellFormed.lean ====
section
/-! DEFINITION. When an instruction is one the encodings can hold. Every operand field but one has its width in its
type. The exception is the payload of `WRITE_BLOCK`, whose count is 8 bits (30_encoding.md R102, D48). -/

namespace Sys2Proof

/-- R102: `count = w[7:0]`, so a block has at most 255 payload bytes. -/
def Instr.wellFormed : Instr → Bool
  | .writeBlock bytes => decide (bytes.length ≤ 255)
  | _ => true

end Sys2Proof
end

