-- ==== Sys2Proof/Decode.lean ====
section
/-! DEFINITION. Decoding and encoding: the request port (30_encoding.md R100 to R109) and the event port (R111 to
R114). Decoding is total; a word it refuses has a reason of its own. -/

namespace Sys2Proof

/-! ## Fields of a word -/

/-- R10: `w[hi:lo]`, zero-extended to a natural number. -/
def bits (w : Word) (hi lo : Nat) : Nat := w.toNat / 2 ^ lo % 2 ^ (hi + 1 - lo)

/-- R100: `op = w[31:24]`. -/
def opOf (w : Word) : Nat := bits w 31 24

/-- R101 format F: `f = w[23:0]`. -/
def freqOf (w : Word) : BitVec 24 := BitVec.ofNat 24 (bits w 23 0)
/-- R101 formats A and Q: `a = w[6:0]`. -/
def addrOf (w : Word) : BitVec 7 := BitVec.ofNat 7 (bits w 6 0)
/-- R101 format B: `b = w[7:0]`. -/
def byteOf (w : Word) : Byte := BitVec.ofNat 8 (bits w 7 0)
/-- R107 format Q: `q = w[15:8]`. -/
def quantityOf (w : Word) : Byte := BitVec.ofNat 8 (bits w 15 8)

/-! ## The request port -/

/-- Why a request word is refused (R102, R103), or that the port does not hold a whole request. -/
inductive DecodeError where
  /-- No word is on the port. -/
  | noWord
  /-- The header's payload words are not all on the port yet. -/
  | incompleteBlock
  /-- R109: `op` is not in the opcode map. -/
  | unassignedOp
  /-- R101: a reserved bit is not zero. -/
  | reservedBits
  /-- R102: a word in a payload position is no payload word. -/
  | malformedPayload
  deriving DecidableEq, Repr

/-- `i` if the reserved bits are zero (R101, R103). -/
def ifReservedZero (zero : Bool) (i : Instr) : Except DecodeError Instr :=
  if zero then .ok i else .error .reservedBits

/-- R101, R109: the requests that are one word long. -/
def decodeSingle (w : Word) : Except DecodeError Instr :=
  let op := opOf w
  if op = 0x01 then .ok (.beginMaster (freqOf w))
  else if op = 0x02 then ifReservedZero (bits w 23 7 == 0) (.beginSlave (addrOf w))
  else if op = 0x03 then .ok (.setFrequency (freqOf w))
  else if op = 0x04 then ifReservedZero (bits w 23 0 == 0) .endBus
  else if op = 0x05 then ifReservedZero (bits w 23 8 == 0) (.setOnReceive (byteOf w))
  else if op = 0x06 then ifReservedZero (bits w 23 8 == 0) (.setOnTransmit (byteOf w))
  else if op = 0x10 then ifReservedZero (bits w 23 7 == 0) (.beginTransmission (addrOf w))
  else if op = 0x11 then ifReservedZero (bits w 23 8 == 0) (.write (byteOf w))
  else if op = 0x13 then ifReservedZero (bits w 23 1 == 0) (.endTransmission (bits w 0 0 == 1))
  else if op = 0x20 then
    ifReservedZero (bits w 23 17 == 0 && bits w 7 7 == 0)
      (.requestFrom (addrOf w) (quantityOf w) (bits w 16 16 == 1))
  else if op = 0x21 then ifReservedZero (bits w 23 0 == 0) .available
  else if op = 0x22 then ifReservedZero (bits w 23 0 == 0) .read
  else if op = 0xFE then ifReservedZero (bits w 23 8 == 0) (.writeBlockPayload (byteOf w))
  else .error .unassignedOp

/-- R102: exactly `count` payload words, each `0xFE : 0x0000 : byte`, and the words after them. -/
def decodePayload : Nat → List Word → Except DecodeError (List Byte × List Word)
  | 0, ws => .ok ([], ws)
  | _ + 1, [] => .error .incompleteBlock
  | n + 1, w :: ws =>
    if opOf w == 0xFE && bits w 23 8 == 0 then
      match decodePayload n ws with
      | .ok (bytes, rest) => .ok (byteOf w :: bytes, rest)
      | .error e => .error e
    else .error .malformedPayload

/-- R102: how many payload words follow the header `w`. -/
def payloadCount (w : Word) : Nat := if opOf w = 0x12 then bits w 7 0 else 0

/-- R100 to R103, D51: the first request of the port and the words after it. A `WRITE_BLOCK` is decoded whole. -/
def decodeRequest : List Word → Except DecodeError (Instr × List Word)
  | [] => .error .noWord
  | w :: rest =>
    if opOf w = 0x12 then
      if bits w 23 8 == 0 then
        match decodePayload (payloadCount w) rest with
        | .ok (bytes, rest') => .ok (.writeBlock bytes, rest')
        | .error e => .error e
      else .error .reservedBits
    else
      match decodeSingle w with
      | .ok i => .ok (i, rest)
      | .error e => .error e

/-! ## The event port -/

/-- R112, R114: the event of a 5-bit code `st[7:3]`. -/
def eventOfCode (code : Nat) (low : BitVec 3) (din : Byte) : Instr :=
  match code with
  | 0 => .evtBusError low din
  | 1 => .evtStart low din
  | 2 => .evtRepStart low din
  | 3 => .evtMtSlaAck low din
  | 4 => .evtMtSlaNack low din
  | 5 => .evtMtDataAck low din
  | 6 => .evtMtDataNack low din
  | 7 => .evtArbLost low din
  | 8 => .evtMrSlaAck low din
  | 9 => .evtMrSlaNack low din
  | 10 => .evtMrDataAck low din
  | 11 => .evtMrDataNack low din
  | 12 => .evtSrSlaAck low din
  | 13 => .evtSrArbLostSlaAck low din
  | 14 => .evtSrGcallAck low din
  | 15 => .evtSrArbLostGcallAck low din
  | 16 => .evtSrDataAck low din
  | 17 => .evtSrDataNack low din
  | 18 => .evtSrGcallDataAck low din
  | 19 => .evtSrGcallDataNack low din
  | 20 => .evtSrStop low din
  | 21 => .evtStSlaAck low din
  | 22 => .evtStArbLostSlaAck low din
  | 23 => .evtStDataAck low din
  | 24 => .evtStDataNack low din
  | 25 => .evtStLastData low din
  | 26 => .evtUnknownD0 low din
  | 27 => .evtUnknownD8 low din
  | 28 => .evtUnknownE0 low din
  | 29 => .evtUnknownE8 low din
  | 30 => .evtUnknownF0 low din
  | _ => .evtNoInfo low din          -- a 5-bit code that reaches here is 31

/-- R111 to R114: the event `(st, din)`. The code is `st & 0xF8`; `st[2:0]` is no part of it. -/
def decodeEvent (st din : Byte) : Instr :=
  eventOfCode (st.toNat / 8) (BitVec.ofNat 3 (st.toNat % 8)) din

/-! ## Encoding -/

/-- R100: the word `op : body`. -/
def word (op body : Nat) : Word := BitVec.ofNat 32 (op * 2 ^ 24 + body)

/-- R102: the payload word of one byte. -/
def payloadWord (b : Byte) : Word := word 0xFE b.toNat

/-- R101, R109: the header word of a request; the word 0, which is no request (R109), for an event. -/
def headerWord : Instr → Word
  | .beginMaster f => word 0x01 f.toNat
  | .beginSlave a => word 0x02 a.toNat
  | .setFrequency f => word 0x03 f.toNat
  | .endBus => word 0x04 0
  | .setOnReceive b => word 0x05 b.toNat
  | .setOnTransmit b => word 0x06 b.toNat
  | .beginTransmission a => word 0x10 a.toNat
  | .write b => word 0x11 b.toNat
  | .writeBlock bytes => word 0x12 bytes.length
  | .endTransmission s => word 0x13 s.toNat
  | .requestFrom a q s => word 0x20 (s.toNat * 2 ^ 16 + q.toNat * 2 ^ 8 + a.toNat)
  | .available => word 0x21 0
  | .read => word 0x22 0
  | .writeBlockPayload b => payloadWord b
  | .evtStart _ _ | .evtRepStart _ _ | .evtMtSlaAck _ _ | .evtMtDataAck _ _ | .evtMtSlaNack _ _
  | .evtMtDataNack _ _ | .evtArbLost _ _ | .evtMrSlaAck _ _ | .evtMrDataAck _ _ | .evtMrDataNack _ _
  | .evtMrSlaNack _ _ | .evtSrSlaAck _ _ | .evtSrArbLostSlaAck _ _ | .evtSrGcallAck _ _
  | .evtSrArbLostGcallAck _ _ | .evtSrDataAck _ _ | .evtSrGcallDataAck _ _ | .evtSrDataNack _ _
  | .evtSrGcallDataNack _ _ | .evtSrStop _ _ | .evtStSlaAck _ _ | .evtStArbLostSlaAck _ _
  | .evtStDataAck _ _ | .evtStDataNack _ _ | .evtStLastData _ _ | .evtBusError _ _ | .evtNoInfo _ _
  | .evtUnknownD0 _ _ | .evtUnknownD8 _ _ | .evtUnknownE0 _ _ | .evtUnknownE8 _ _ | .evtUnknownF0 _ _ => 0

/-- R112, R114: an event's 5-bit code `st[7:3]`, its low bits and its data byte; none for a request. -/
def eventFields : Instr → Option (Nat × BitVec 3 × Byte)
  | .evtBusError low din => some (0, low, din)
  | .evtStart low din => some (1, low, din)
  | .evtRepStart low din => some (2, low, din)
  | .evtMtSlaAck low din => some (3, low, din)
  | .evtMtSlaNack low din => some (4, low, din)
  | .evtMtDataAck low din => some (5, low, din)
  | .evtMtDataNack low din => some (6, low, din)
  | .evtArbLost low din => some (7, low, din)
  | .evtMrSlaAck low din => some (8, low, din)
  | .evtMrSlaNack low din => some (9, low, din)
  | .evtMrDataAck low din => some (10, low, din)
  | .evtMrDataNack low din => some (11, low, din)
  | .evtSrSlaAck low din => some (12, low, din)
  | .evtSrArbLostSlaAck low din => some (13, low, din)
  | .evtSrGcallAck low din => some (14, low, din)
  | .evtSrArbLostGcallAck low din => some (15, low, din)
  | .evtSrDataAck low din => some (16, low, din)
  | .evtSrDataNack low din => some (17, low, din)
  | .evtSrGcallDataAck low din => some (18, low, din)
  | .evtSrGcallDataNack low din => some (19, low, din)
  | .evtSrStop low din => some (20, low, din)
  | .evtStSlaAck low din => some (21, low, din)
  | .evtStArbLostSlaAck low din => some (22, low, din)
  | .evtStDataAck low din => some (23, low, din)
  | .evtStDataNack low din => some (24, low, din)
  | .evtStLastData low din => some (25, low, din)
  | .evtUnknownD0 low din => some (26, low, din)
  | .evtUnknownD8 low din => some (27, low, din)
  | .evtUnknownE0 low din => some (28, low, din)
  | .evtUnknownE8 low din => some (29, low, din)
  | .evtUnknownF0 low din => some (30, low, din)
  | .evtNoInfo low din => some (31, low, din)
  | .beginMaster _ | .beginSlave _ | .setFrequency _ | .endBus | .setOnReceive _ | .setOnTransmit _
  | .beginTransmission _ | .write _ | .writeBlock _ | .endTransmission _ | .requestFrom _ _ _
  | .available | .read | .writeBlockPayload _ => none

/-- The status byte `st` of an event, and 0 for a request. -/
def statusByte (i : Instr) : Byte :=
  match eventFields i with
  | some (code, low, _) => BitVec.ofNat 8 (code * 8 + low.toNat)
  | none => 0

/-- The data byte `din` of an event, and 0 for a request: what a read of `DATA` returns (R111). -/
def dataByte (i : Instr) : Byte :=
  match eventFields i with
  | some (_, _, din) => din
  | none => 0

/-- An instruction that arrives on the event port. -/
def Instr.isEvent (i : Instr) : Bool := (eventFields i).isSome

/-- What one instruction is on its port. -/
inductive PortItem where
  /-- The words of one request (R100, R102). -/
  | request (words : List Word)
  /-- One event (R111). -/
  | event (st din : Byte)
  deriving DecidableEq, Repr

/-- R102: the payload words of a request. -/
def payloadWords : Instr → List Word
  | .writeBlock bytes => bytes.map payloadWord
  | _ => []

/-- The encoder: an instruction's words, or its event. -/
def encode (i : Instr) : PortItem :=
  if i.isEvent then .event (statusByte i) (dataByte i) else .request (headerWord i :: payloadWords i)

/-- The decoder of one whole port item: words left over are no request of their own. -/
def decode : PortItem → Except DecodeError Instr
  | .request ws =>
    match decodeRequest ws with
    | .ok (i, []) => .ok i
    | .ok (_, _ :: _) => .error .malformedPayload
    | .error e => .error e
  | .event st din => .ok (decodeEvent st din)

/-- The instruction the decoder reads where the table's bits of an instruction are `w`: an event of 8 bits (`din`
above them is 0), or a request of 32 bits with its payload words 0. -/
def decodeTableWord (nbits w : Nat) : Option Instr :=
  if nbits = 8 then some (decodeEvent (BitVec.ofNat 8 w) 0)
  else if nbits = 32 then
    let h := BitVec.ofNat 32 w
    match decodeRequest (h :: List.replicate (payloadCount h) 0) with
    | .ok (i, _) => some i
    | .error _ => none
  else none

/-! ## Status classes -/

/-- The status class of an event code `st[7:3]` (R112, R114). -/
def classOfCode (code : Nat) : StatusClass :=
  match code with
  | 0 => .busError | 1 => .start | 2 => .repStart | 3 => .mtSlaAck | 4 => .mtSlaNack | 5 => .mtDataAck
  | 6 => .mtDataNack | 7 => .arbLost | 8 => .mrSlaAck | 9 => .mrSlaNack | 10 => .mrDataAck | 11 => .mrDataNack
  | 12 => .srSlaAck | 13 => .srArbLostSlaAck | 14 => .srGcallAck | 15 => .srArbLostGcallAck
  | 16 => .srDataAck | 17 => .srDataNack | 18 => .srGcallDataAck | 19 => .srGcallDataNack | 20 => .srStop
  | 21 => .stSlaAck | 22 => .stArbLostSlaAck | 23 => .stDataAck | 24 => .stDataNack | 25 => .stLastData
  | 31 => .noInfo
  | _ => .unknown

/-- R112: `classify(st)`, by `code = st & 0xF8`. -/
def classify (st : Byte) : StatusClass := classOfCode (st.toNat / 8)

end Sys2Proof
end

