-- ==== Sys2Proof/Machine/State.lean ====
section
/-! DEFINITION. The state of the block (10_state.md), the machine right after reset (R55), and the reasons a step can
stop: the fault kinds of 60_exceptions.md R306 and the model's refusals. -/

namespace Sys2Proof.Machine

open Sys2Proof

/-- `BusRole` (00_scope.md R13). -/
inductive BusRole where
  | master | slave
  deriving DecidableEq, Repr

/-- `TransactionState` (R13, R32). -/
inductive TransactionState where
  | ready | masterTransmit | masterReceive | slaveReceive | slaveTransmit
  deriving DecidableEq, Repr

/-- `TransmissionStatus` (R13, R39); the guard code is a response, never a value of this type. -/
inductive TransmissionStatus where
  | success | addressNack | dataNack | otherError
  deriving DecidableEq, Repr

/-- The bus commands, each one write of `CONTROL` (30_encoding.md R120). -/
inductive BusCommand where
  | enable | disable | ack | nack | start | stop | armRepStart
  deriving DecidableEq, Repr

/-- An entry of the command log (R53): a bus command, or `Data(b)`, one write of `DATA`. -/
inductive BusOutput where
  | command (c : BusCommand)
  | data (b : Byte)
  deriving DecidableEq, Repr

/-- An event `(st, din)` in the event slot (R51, R111). -/
structure Event where
  st  : Byte
  din : Byte
  deriving DecidableEq, Repr

/-- The place inside a request: the number of its next step and the caller-local values its rule names. The loop body
of `WRITE_BLOCK` step 2 has the numbers 21, 22, 23 (the three steps of R171 for byte `k`). -/
structure Frame where
  step : Nat
  /-- `n` of R171 and R202: the `size` read; of R200: the count. -/
  n : Byte := 0
  /-- `i` of R203: the `index` read. -/
  i : Byte := 0
  /-- `v` of R203: the byte read. -/
  v : Byte := 0
  /-- `k` of R172: how many bytes are written. -/
  k : Nat := 0
  deriving DecidableEq, Repr

/-- `k_C` (R49): `idle`, or the request the caller runs and its place in it. -/
inductive CallerPos where
  | idle
  | running (req : Instr) (fr : Frame)
  deriving DecidableEq, Repr

/-- `k_H` (R49): `idle`, or the event whose action holds on `stopPending` (44_bus_primitives.md R282). -/
inductive HandlerPos where
  | idle
  | stopWait (ev : Instr)
  deriving DecidableEq, Repr

/-- A request with its response (R53). -/
structure Response where
  req   : Instr
  value : Byte
  deriving DecidableEq, Repr

/-- A callback invocation with its argument; the transmit callback takes none (R53, R288). -/
structure Invocation where
  id  : Byte
  arg : Option Byte
  deriving DecidableEq, Repr

/-- The state: the block's fields (R30), the physical registers (R44), the continuations (R49), the delivery state
(R51, R52), the logs (R53), the parameters (00_scope.md R8), and the run's inputs: the words on the request port and
the order of the agents' turns. -/
structure State where
  role        : BusRole
  state       : TransactionState
  index       : Byte
  size        : Byte
  /-- `Buf`: the written cells, by position. A position that is not listed is unwritten (R42). -/
  buf         : List Host.Cell
  address     : Option Byte
  sendStop    : Option Bool
  inRepStart  : Bool
  status      : Option TransmissionStatus
  initialized : Bool
  onRx        : Byte
  onTx        : Byte
  regs        : PhysRegs
  kC          : CallerPos
  kH          : HandlerPos
  pending     : Option Event
  enabled     : Bool
  armed       : Bool
  stopPending : Bool
  /-- The command log, oldest first. -/
  cmdLog      : List BusOutput
  /-- The request log, oldest first; its last entry is what the request port shows. -/
  reqLog      : List Response
  /-- The callback log, oldest first. -/
  cbLog       : List Invocation
  /-- The responses handed to callback bodies, oldest first (R288). -/
  bodyLog     : List Response
  /-- The OPEN parameters; no step writes them. -/
  cfg         : Params
  /-- The words the host has on the request port, first word first (R100, R102). -/
  requests    : List Word
  /-- The turns already settled, next first; past them `Config.freeTurn` decides. -/
  schedule    : List Turn
  /-- How many turns were taken: the counter the free value is applied to. -/
  turns       : Nat
  deriving DecidableEq, Repr

/-- R55, R340: the block right after its construction. -/
def State.reset : State where
  role := .master
  state := .ready
  index := 0
  size := 0
  buf := []
  address := none
  sendStop := none
  inRepStart := false
  status := none
  initialized := false
  onRx := 0
  onTx := 0
  regs := Config.params.physReset
  kC := .idle
  kH := .idle
  pending := none
  enabled := false
  armed := false
  stopPending := false
  cmdLog := []
  reqLog := []
  cbLog := []
  bodyLog := []
  cfg := Config.params
  requests := []
  schedule := []
  turns := 0

/-- The fields a read of which can fault (R306 kind 7). -/
inductive FieldName where
  | address | sendStop | status
  deriving DecidableEq, Repr

/-- The fault kinds of R306, each with what it records. `kept` is the block's state at the point of the fault: the
fields keep the values they had, and what the step wrote before that point stays written (R307). All are safe: the
block stops where the spec raises its fault. -/
inductive Fault where
  /-- Kind 1, raised by request decoding (R102, R103): an illegal request word. Safe. -/
  | illegalRequest (word : Word) (kept : State)
  /-- Kind 2, raised by the four bus requests before `begin` (D19). Safe. -/
  | useBeforeBegin (word : Word) (kept : State)
  /-- Kind 3, raised by `BEGIN_MASTER` and `SET_FREQUENCY` (R140). Safe. -/
  | divisorOutOfRange (f : BitVec 24) (kept : State)
  /-- Kind 4, raised by `REQUEST_FROM` (R200). Safe. -/
  | zeroQuantity (word : Word) (kept : State)
  /-- Kind 5, raised by a buffer access at a position of 32 or more (R70). Safe. -/
  | bufferOverrun (pos : Nat) (by_ : Instr) (kept : State)
  /-- Kind 6, raised by a read of a cell never written (R42). Safe. -/
  | unwrittenByte (pos : Nat) (kept : State)
  /-- Kind 7, raised by a read of `address`, `sendStop` or `status` before any write, whose reset value R55 gives as
  "unwritten (a read raises `Fault(UnwrittenField)`)": by START and repeated START (R232), `issueAddress` (R284),
  `finishMaster` (R287; R233, R239) and `END_TRANSMISSION`'s last step (R173). Safe. -/
  | unwrittenField (field : FieldName) (kept : State)
  /-- Kind 8, raised by `AVAILABLE` (R202). Safe. -/
  | cursorUnderflow (index size : Byte) (kept : State)
  /-- Kind 9, raised by `stSend` (R246). Safe. -/
  | txUnderrun (index size : Byte) (kept : State)
  /-- Kind 10, raised by the handler for a code with no class (R250). Safe. -/
  | unknownStatus (st : Byte) (kept : State)
  /-- Kind 11, raised by a callback body's request outside the permitted set (R289). Safe. -/
  | forbiddenInCallback (word : Word) (kept : State)
  deriving DecidableEq, Repr

/-- Moves the spec gives nobody. None is reached by `step` from a state of the invariant (Safety.lean). -/
inductive Refusal where
  /-- Raised by `exec`'s arm of an instruction with no meaning; no arm raises it. Safe. -/
  | notModelled (mnemonic : String)
  /-- Raised by a request run while the caller runs another: the host has no such move (R90). Safe. -/
  | requestWhileBusy
  /-- Raised by an event run while the handler holds in another: events are not nested (R314). Safe. -/
  | eventWhileBusy
  /-- Raised where a continuation names a step its rule does not have (R49). Safe. -/
  | noSuchStep
  deriving DecidableEq, Repr

/-- What a step answers. -/
abbrev Result := Host.Outcome State Fault Refusal

/-- What one atomic step of a request does (20_memory.md R80). -/
inductive Advance where
  /-- The caller goes on at `fr`; a `hold` that does not pass stays where it is. -/
  | goto (fr : Frame) (s : State)
  /-- `return v` (00_scope.md R12). -/
  | ret (v : Byte) (s : State)
  | fault (r : Fault)
  | refused (r : Refusal)

end Sys2Proof.Machine
end

