-- ==== Sys2Proof/Machine/Operands.lean ====
section
/-! DEFINITION. Operands and encodings the rules compute with: address bytes (30_encoding.md R105), the speed divisor
(40_init.md R140), and the numbers of the enumerations, statuses, commands and faults (R104, R110, R120, R306). -/

namespace Sys2Proof.Machine

open Sys2Proof

/-- R105: `SLA+W = a << 1`; the direction bit is 0. -/
def slaW (a : BitVec 7) : Byte := BitVec.ofNat 8 (2 * a.toNat)

/-- R105: `SLA+R = (a << 1) | 1`; the direction bit is 1. -/
def slaR (a : BitVec 7) : Byte := BitVec.ofNat 8 (2 * a.toNat + 1)

/-- R140: the speed divisor; none where the rule raises `Fault(DivisorOutOfRange)`. -/
def divisor (fClk : Nat) (f : BitVec 24) : Option Byte :=
  if f.toNat = 0 then none
  else if fClk / f.toNat < Config.offset then none
  else if 255 < (fClk / f.toNat - Config.offset) / 2 then none
  else some (BitVec.ofNat 8 ((fClk / f.toNat - Config.offset) / 2))

/-- R110. -/
def BusRole.code : BusRole → Nat
  | .master => 0
  | .slave => 1

/-- R110. -/
def TransactionState.code : TransactionState → Nat
  | .ready => 0
  | .masterTransmit => 1
  | .masterReceive => 2
  | .slaveReceive => 3
  | .slaveTransmit => 4

/-- R104: the response of `END_TRANSMISSION`. -/
def TransmissionStatus.code : TransmissionStatus → Byte
  | .success => 0
  | .addressNack => 2
  | .dataNack => 3
  | .otherError => 4

/-- R120: the model code of a bus command. -/
def BusCommand.code : BusCommand → Nat
  | .enable => 0
  | .disable => 1
  | .ack => 2
  | .nack => 3
  | .start => 4
  | .stop => 5
  | .armRepStart => 6

/-- R120: the informative value a bus command writes to `CONTROL`; no rule depends on it. -/
def BusCommand.control : BusCommand → Byte
  | .enable => 0x45
  | .disable => 0x00
  | .ack => 0xC5
  | .nack => 0x85
  | .start => 0xE5
  | .stop => 0xD5
  | .armRepStart => 0xA4

/-- R306: the code of a fault kind. -/
def Fault.code : Fault → Nat
  | .illegalRequest _ _ => 1
  | .useBeforeBegin _ _ => 2
  | .divisorOutOfRange _ _ => 3
  | .zeroQuantity _ _ => 4
  | .bufferOverrun _ _ _ => 5
  | .unwrittenByte _ _ => 6
  | .unwrittenField _ _ => 7
  | .cursorUnderflow _ _ _ => 8
  | .txUnderrun _ _ _ => 9
  | .unknownStatus _ _ => 10
  | .forbiddenInCallback _ _ => 11

/-- R307: the state at the point of the fault. -/
def Fault.kept : Fault → State
  | .illegalRequest _ s => s
  | .useBeforeBegin _ s => s
  | .divisorOutOfRange _ s => s
  | .zeroQuantity _ s => s
  | .bufferOverrun _ _ s => s
  | .unwrittenByte _ s => s
  | .unwrittenField _ s => s
  | .cursorUnderflow _ _ s => s
  | .txUnderrun _ _ s => s
  | .unknownStatus _ s => s
  | .forbiddenInCallback _ s => s

end Sys2Proof.Machine
end

