-- ==== Sys2Proof/Machine/Flags.lean ====
section
/-! DEFINITION. The flags (10_state.md R56): what a bus command does to `enabled`, `armed` and `stopPending` (R52),
the decision between ACK and NACK (43_event_handler.md R251), and the conditions of delivery (60_exceptions.md R308). -/

namespace Sys2Proof.Machine

open Sys2Proof

/-- R52: `enabled` after a command. -/
def BusCommand.enabledAfter (c : BusCommand) (before : Bool) : Bool :=
  match c with
  | .enable => true
  | .disable => false
  | .ack | .nack | .start | .stop | .armRepStart => before

/-- R52: `armed` after a command. -/
def BusCommand.armedAfter (c : BusCommand) : Bool :=
  match c with
  | .enable | .ack | .nack | .start | .stop => true
  | .disable | .armRepStart => false

/-- R52: `stopPending` after a command. -/
def BusCommand.stopPendingAfter (c : BusCommand) (before : Bool) : Bool :=
  match c with
  | .stop => true
  | .enable | .disable | .ack | .nack | .start | .armRepStart => before

/-- The tie-break comparison `index < size` (R251, R237, R238, R246). -/
def moreExpected (s : State) : Bool := decide (s.index.toNat < s.size.toNat)

/-- R308: the bus engine may post an event. -/
def postEnabled (s : State) : Bool :=
  s.enabled && s.armed && s.pending.isNone && decide (s.kH = .idle)

/-- R308: the handler may take the pending event. The caller is inside an `atomic` group only within one of its
steps (20_memory.md R83), so between steps that condition always holds. -/
def deliverable (s : State) : Bool :=
  s.pending.isSome && s.enabled && decide (s.kH = .idle)

end Sys2Proof.Machine
end

