-- ==== Sys2Proof/Machine/Ops.lean ====
section
/-! DEFINITION. The named operations the meanings are written with: the buffer space and the register space
(20_memory.md R70, R71), `emit` and `emitData` (00_scope.md R12), the bus primitives of 44_bus_primitives.md, the
steps of a caller request, and the entry, hold and return of the handler (60_exceptions.md R313, R314). -/

namespace Sys2Proof.Machine

open Sys2Proof

/-! ## The buffer space -/

/-- The byte at a position; none where no byte was written (10_state.md R42). -/
def Memory.read : List Host.Cell → Nat → Option Byte
  | [], _ => none
  | (b, v) :: m, a => if b = a then some v else Memory.read m a

/-- Write one byte, keeping the cells sorted by position. -/
def Memory.write : List Host.Cell → Nat → Byte → List Host.Cell
  | [], a, v => [(a, v)]
  | (b, w) :: m, a, v =>
    if a < b then (a, v) :: (b, w) :: m
    else if a = b then (a, v) :: m
    else (b, w) :: Memory.write m a v

/-- The canonical form: positions strictly rising, all inside the space of `CAPACITY` bytes (R70). -/
def Memory.wf : List Host.Cell → Bool
  | [] => true
  | [(a, _)] => decide (a < Config.capacity)
  | (a, _) :: (b, w) :: m => decide (a < b) && Memory.wf ((b, w) :: m)

/-- `BufRead(pos)` (R70, R42): the byte, or the fault of a position outside the space or never written. -/
def bufRead (by_ : Instr) (pos : Nat) (s : State) : Except Fault Byte :=
  if Config.capacity ≤ pos then .error (.bufferOverrun pos by_ s)
  else match Memory.read s.buf pos with
    | some v => .ok v
    | none => .error (.unwrittenByte pos s)

/-- `BufWrite(pos, v)` (R70): the state after, or the fault of a position outside the space. -/
def bufWrite (by_ : Instr) (pos : Nat) (v : Byte) (s : State) : Except Fault State :=
  if Config.capacity ≤ pos then .error (.bufferOverrun pos by_ s)
  else .ok { s with buf := Memory.write s.buf pos v }

/-! ## The register space and the bus commands -/

/-- The register file after a write (20_memory.md R71, R75). -/
def PhysRegs.set (r : PhysReg) (v : Byte) (p : PhysRegs) : PhysRegs :=
  match r with
  | .bitrate => { p with bitrate := v }
  | .status => { p with status := v }
  | .ownAddr => { p with ownAddr := v }
  | .data => { p with data := v }
  | .control => { p with control := v }
  | .addrMask => { p with addrMask := v }

/-- The contents of a register. -/
def PhysRegs.get (r : PhysReg) (p : PhysRegs) : Byte :=
  match r with
  | .bitrate => p.bitrate
  | .status => p.status
  | .ownAddr => p.ownAddr
  | .data => p.data
  | .control => p.control
  | .addrMask => p.addrMask

/-- `RegWrite(R, v)` (00_scope.md R11). -/
def regWrite (r : PhysReg) (v : Byte) (s : State) : State := { s with regs := PhysRegs.set r v s.regs }

/-- `emit K` (00_scope.md R12): one write of `CONTROL`, one entry of the command log, and the command's effect on the
delivery state (10_state.md R52). -/
def emit (c : BusCommand) (s : State) : State :=
  { s with
    regs := PhysRegs.set .control c.control s.regs
    cmdLog := s.cmdLog ++ [.command c]
    enabled := c.enabledAfter s.enabled
    armed := c.armedAfter
    stopPending := c.stopPendingAfter s.stopPending }

/-- `emitData(b)` (00_scope.md R12): one write of `DATA` and one entry of the command log. -/
def emitData (b : Byte) (s : State) : State :=
  { s with regs := PhysRegs.set .data b s.regs, cmdLog := s.cmdLog ++ [.data b] }

/-! ## Bus primitives (44_bus_primitives.md) -/

/-- Go on from a state with the rest of an action; a stop stays a stop. -/
def andThen (r : Result) (k : State → Result) : Result :=
  match r with
  | .next s => k s
  | .fault f => .fault f
  | .refused f => .refused f

/-- R280. -/
def reply (ack : Bool) (s : State) : State := emit (if ack then .ack else .nack) s

/-- R281. -/
def releaseBus (s : State) : State := { emit .ack s with state := .ready }

/-- R282 step 1 and the entry of step 2: the handler now holds until `stopPending` is false. `Stop` has just set the
flag, so the first test of the hold never passes. -/
def stop (ev : Instr) (s : State) : State := { emit .stop s with kH := .stopWait ev }

/-- R283. -/
def armRepeatedStart (s : State) : State :=
  { emit .armRepStart { s with inRepStart := true } with state := .ready }

/-- R284, one atomic caller step. -/
def issueAddress (s : State) : Result :=
  if s.inRepStart then
    match s.address with
    | some a => .next (emit .ack (emitData a { s with inRepStart := false }))
    | none => .fault (.unwrittenField .address { s with inRepStart := false })
  else .next (emit .start s)

/-- R285. -/
def storeByte (ev : Instr) (v : Byte) (s : State) : Result :=
  match bufWrite ev s.index.toNat v s with
  | .ok t => .next { t with index := s.index + 1 }
  | .error f => .fault f

/-- R286. -/
def sendByte (ev : Instr) (s : State) : Result :=
  match bufRead ev s.index.toNat s with
  | .ok v => .next { emitData v s with index := s.index + 1 }
  | .error f => .fault f

/-- R287. -/
def finishMaster (ev : Instr) (s : State) : Result :=
  match s.sendStop with
  | some true => .next (stop ev s)
  | some false => .next (armRepeatedStart s)
  | none => .fault (.unwrittenField .sendStop s)

/-! ## The caller's steps -/

/-- The place before a numbered step, with no caller-local value. -/
def atStep (k : Nat) : Frame := { step := k }

/-- What the step of a rule leaves of the caller: `k_C` names the next step, or `return v` sets it to `idle` and puts `v`
on the request port (10_state.md R49; 00_scope.md R12). -/
def settle (i : Instr) (a : Advance) : Result :=
  match a with
  | .goto fr t => .next { t with kC := .running i fr }
  | .ret v t => .next { t with kC := .idle, reqLog := t.reqLog ++ [⟨i, v⟩] }
  | .fault r => .fault r
  | .refused r => .refused r

/-- One atomic step of request `i`, whose rule is `rule`: its first one from `k_C = idle`, else the one `k_C` names
(10_state.md R49). -/
def callerStep (i : Instr) (rule : Frame → State → Advance) (s : State) : Result :=
  match s.kC with
  | .idle => settle i (rule (atStep 1) s)
  | .running j fr => if j = i then settle i (rule fr s) else .refused .requestWhileBusy

/-- All the steps of a request at once, at most `fuel` of them, as a callback body runs it (R288). -/
def runSteps : Nat → (Frame → State → Advance) → Frame → State → Advance
  | 0, _, _, _ => .refused .noSuchStep
  | n + 1, rule, fr, s =>
    match rule fr s with
    | .goto fr' t => runSteps n rule fr' t
    | .ret v t => .ret v t
    | .fault r => .fault r
    | .refused r => .refused r

/-! ## The handler: entry, hold and return (60_exceptions.md R313, R314) -/

/-- R314: the end of a handler action. -/
def endAction (s : State) : State := { s with kH := .idle }

/-- An action without `stop()`: one atomic step from entry to end (20_memory.md R80). Entry saves nothing (R313). -/
def handleOnce (action : State → Result) (s : State) : Result :=
  match s.kH with
  | .idle => andThen (action s) fun t => .next (endAction t)
  | .stopWait _ => .refused .eventWhileBusy

/-- An action that may call `stop()`: `entry` is what it does up to the hold or, where it calls none, to its end;
`rest` is what it does after the hold, once `stop()` has set `state` to `Ready` (R282 step 3). -/
def handleStopping (ev : Instr) (entry rest : State → Result) (s : State) : Result :=
  match s.kH with
  | .idle => entry s
  | .stopWait j =>
    if j = ev then
      if s.stopPending then .next s
      else andThen (rest { s with state := .ready }) fun t => .next (endAction t)
    else .refused .eventWhileBusy

/-! ## The bus engine's steps (60_exceptions.md R322) -/

/-- `POST(st, din)` under R308. Where it is not enabled, nothing happens. The engine presents `st` in `STATUS`. -/
def busPost (st din : Byte) (s : State) : State :=
  if postEnabled s then { s with pending := some ⟨st, din⟩, regs := PhysRegs.set .status st s.regs } else s

/-- `STOPDONE`. -/
def busStopDone (s : State) : State := { s with stopPending := false }

/-! ## Turns and the ports -/

/-- The turn that is next, and the state with it taken. -/
def takeTurn (s : State) : Turn × State :=
  match s.schedule with
  | t :: ts => (t, { s with schedule := ts, turns := s.turns + 1 })
  | [] => (Config.freeTurn s.turns, { s with turns := s.turns + 1 })

/-- The instruction of a table row stored where the next step takes it: a request at the front of the request port
with the caller idle and its turn next, or an event in the event slot with the handler idle and its turn next. -/
def placeWord (s : State) (nbits w : Nat) : State :=
  if nbits = 8 then
    { s with
      pending := some ⟨BitVec.ofNat 8 w, 0⟩
      regs := PhysRegs.set .status (BitVec.ofNat 8 w) s.regs
      enabled := true
      kH := .idle
      schedule := .handler :: s.schedule }
  else
    { s with
      requests := BitVec.ofNat 32 w :: (List.replicate (payloadCount (BitVec.ofNat 32 w)) 0 ++ s.requests)
      kC := .idle
      kH := .idle
      schedule := .caller :: s.schedule }

end Sys2Proof.Machine
end

