-- ==== Sys2Proof/Machine/Init.lean ====
section
/-! DEFINITION. The initialisation, configuration and teardown requests of 40_init.md, each numbered step one atomic
caller step. -/

namespace Sys2Proof.Machine

open Sys2Proof

/-- R141: the numbered steps of `BEGIN_MASTER f`. -/
def beginMasterRule (f : BitVec 24) (fr : Frame) (s : State) : Advance :=
  match fr.step with
  | 1 => if s.initialized then .ret 0 s else .goto (atStep 2) s
  | 2 => .goto (atStep 3) { s with role := .master, state := .ready, inRepStart := false }
  | 3 =>
    match divisor s.cfg.fClk f with
    | some d => .goto (atStep 4) (regWrite .bitrate d s)
    | none => .fault (.divisorOutOfRange f s)
  | 4 => .goto (atStep 5) (emit .enable s)
  | 5 => .ret 1 { s with initialized := true }
  | _ => .refused .noSuchStep

/-- `BEGIN_MASTER f` (R141). -/
def execBeginMaster (f : BitVec 24) (s : State) : Result :=
  callerStep (.beginMaster f) (beginMasterRule f) s

/-- R143: the numbered steps of `BEGIN_SLAVE a`. -/
def beginSlaveRule (a : BitVec 7) (fr : Frame) (s : State) : Advance :=
  match fr.step with
  | 1 => if s.initialized then .ret 0 s else .goto (atStep 2) s
  | 2 => .goto (atStep 3) { s with role := .slave, state := .ready, inRepStart := false }
  | 3 => .goto (atStep 4) { regWrite .ownAddr (slaW a) s with address := some (slaW a) }
  | 4 => .goto (atStep 5) (emit .enable s)
  | 5 => .ret 1 { s with initialized := true }
  | _ => .refused .noSuchStep

/-- `BEGIN_SLAVE a` (R143). -/
def execBeginSlave (a : BitVec 7) (s : State) : Result :=
  callerStep (.beginSlave a) (beginSlaveRule a) s

/-- R144: the numbered steps of `SET_FREQUENCY f`. -/
def setFrequencyRule (f : BitVec 24) (fr : Frame) (s : State) : Advance :=
  match fr.step with
  | 1 => if s.initialized then .goto (atStep 2) s else .fault (.useBeforeBegin (headerWord (.setFrequency f)) s)
  | 2 => if s.role = .master then .goto (atStep 3) s else .ret 0 s
  | 3 =>
    match divisor s.cfg.fClk f with
    | some d => .ret 1 (regWrite .bitrate d s)
    | none => .fault (.divisorOutOfRange f s)
  | _ => .refused .noSuchStep

/-- `SET_FREQUENCY f` (R144). -/
def execSetFrequency (f : BitVec 24) (s : State) : Result :=
  callerStep (.setFrequency f) (setFrequencyRule f) s

/-- R145: the numbered steps of `END`. -/
def endRule (fr : Frame) (s : State) : Advance :=
  match fr.step with
  | 1 => if s.initialized then .goto (atStep 2) s else .ret 0 s
  | 2 => .goto (atStep 3) (emit .disable s)
  | 3 => .goto (atStep 4) (regWrite .ownAddr 0 s)
  | 4 => .goto (atStep 5) (regWrite .bitrate 0 { s with role := .master })
  | 5 => .ret 1 { s with initialized := false }
  | _ => .refused .noSuchStep

/-- `END` (R145). -/
def execEndBus (s : State) : Result := callerStep .endBus endRule s

/-- R146: the step of `SET_ON_RECEIVE b`. -/
def setOnReceiveRule (b : Byte) (fr : Frame) (s : State) : Advance :=
  match fr.step with
  | 1 => .ret 0 { s with onRx := b }
  | _ => .refused .noSuchStep

/-- `SET_ON_RECEIVE b` (R146). -/
def execSetOnReceive (b : Byte) (s : State) : Result :=
  callerStep (.setOnReceive b) (setOnReceiveRule b) s

/-- R147: the step of `SET_ON_TRANSMIT b`. -/
def setOnTransmitRule (b : Byte) (fr : Frame) (s : State) : Advance :=
  match fr.step with
  | 1 => .ret 0 { s with onTx := b }
  | _ => .refused .noSuchStep

/-- `SET_ON_TRANSMIT b` (R147). -/
def execSetOnTransmit (b : Byte) (s : State) : Result :=
  callerStep (.setOnTransmit b) (setOnTransmitRule b) s

end Sys2Proof.Machine
end

