-- ==== Sys2Proof/Machine/MasterTransmit.lean ====
section
/-! DEFINITION. The master transmit requests of 41_master_transmit.md, and the payload word (30_encoding.md R102). -/

namespace Sys2Proof.Machine

open Sys2Proof

/-- The steps of a request that return the status of `issueAddress` to the caller's flow. -/
def issueThen (fr : Frame) (s : State) : Advance :=
  match issueAddress s with
  | .next t => .goto fr t
  | .fault r => .fault r
  | .refused r => .refused r

/-- R170: the numbered steps of `BEGIN_TRANSMISSION a`. -/
def beginTransmissionRule (a : BitVec 7) (fr : Frame) (s : State) : Advance :=
  match fr.step with
  | 1 =>
    if !s.initialized then .fault (.useBeforeBegin (headerWord (.beginTransmission a)) s)
    else if s.role ≠ .master then .ret 0 s
    else .goto (atStep 2) s
  | 2 => if s.state = .ready then .goto (atStep 3) s else .goto (atStep 2) s
  | 3 => .goto (atStep 4) { s with state := .masterTransmit }
  | 4 => .goto (atStep 5) { s with address := some (slaW a) }
  | 5 => .goto (atStep 6) { s with index := 0 }
  | 6 => .ret 1 { s with size := 0 }
  | _ => .refused .noSuchStep

/-- `BEGIN_TRANSMISSION a` (R170). -/
def execBeginTransmission (a : BitVec 7) (s : State) : Result :=
  callerStep (.beginTransmission a) (beginTransmissionRule a) s

/-- R171: the numbered steps of `WRITE b`, run for the request `by_`. -/
def writeByteRule (by_ : Instr) (b : Byte) (fr : Frame) (s : State) : Advance :=
  match fr.step with
  | 1 => if s.size.toNat = Config.capacity then .ret 0 s else .goto { step := 2, n := s.size } s
  | 2 =>
    match bufWrite by_ fr.n.toNat b s with
    | .ok t => .goto { step := 3, n := fr.n } t
    | .error r => .fault r
  | 3 => .ret 1 { s with size := fr.n + 1 }
  | _ => .refused .noSuchStep

/-- `WRITE b` (R171). -/
def execWrite (b : Byte) (s : State) : Result :=
  callerStep (.write b) (writeByteRule (.write b) b) s

/-- The step of `WRITE_BLOCK` before byte `k`, or before its `return count` when no byte is left. -/
def blockNext (bytes : List Byte) (k : Nat) : Frame :=
  if k < bytes.length then { step := 21, k := k } else atStep 3

/-- R172: the numbered steps of `WRITE_BLOCK`. The steps 21, 22, 23 are steps 1, 2, 3 of R171 with `b = bytes[k]`;
the loop control is caller-local and takes no step. -/
def writeBlockRule (bytes : List Byte) (fr : Frame) (s : State) : Advance :=
  match fr.step with
  | 1 => .goto (blockNext bytes 0) s
  | 3 => .ret (BitVec.ofNat 8 bytes.length) s
  | 21 | 22 | 23 =>
    match bytes[fr.k]? with
    | none => .refused .noSuchStep
    | some b =>
      match writeByteRule (.writeBlock bytes) b { step := fr.step - 20, n := fr.n } s with
      | .goto fr' t => .goto { step := fr'.step + 20, n := fr'.n, k := fr.k } t
      | .ret r t => if r = 0 then .ret (BitVec.ofNat 8 fr.k) t else .goto (blockNext bytes (fr.k + 1)) t
      | .fault r => .fault r
      | .refused r => .refused r
  | _ => .refused .noSuchStep

/-- `WRITE_BLOCK count, bytes` (R172). -/
def execWriteBlock (bytes : List Byte) (s : State) : Result :=
  callerStep (.writeBlock bytes) (writeBlockRule bytes) s

/-- R102, R103: a payload word that follows no `WRITE_BLOCK` header is an illegal request. -/
def payloadRule (b : Byte) (fr : Frame) (s : State) : Advance :=
  match fr.step with
  | 1 => .fault (.illegalRequest (payloadWord b) s)
  | _ => .refused .noSuchStep

/-- A payload word taken as a request of its own (R102). -/
def execWriteBlockPayload (b : Byte) (s : State) : Result :=
  callerStep (.writeBlockPayload b) (payloadRule b) s

/-- R173: the numbered steps of `END_TRANSMISSION s`. -/
def endTransmissionRule (stop_ : Bool) (fr : Frame) (s : State) : Advance :=
  match fr.step with
  | 1 =>
    if !s.initialized then .fault (.useBeforeBegin (headerWord (.endTransmission stop_)) s)
    else if s.role ≠ .master then .ret Config.guardCode s
    else .goto (atStep 2) s
  | 2 => .goto (atStep 3) { s with sendStop := some stop_ }
  | 3 => .goto (atStep 4) { s with status := some .success }
  | 4 => issueThen (atStep 5) s
  | 5 => if s.state = .masterTransmit then .goto (atStep 5) s else .goto (atStep 6) s
  | 6 =>
    match s.status with
    | some st => .ret st.code s
    | none => .fault (.unwrittenField .status s)
  | _ => .refused .noSuchStep

/-- `END_TRANSMISSION s` (R173). -/
def execEndTransmission (stop_ : Bool) (s : State) : Result :=
  callerStep (.endTransmission stop_) (endTransmissionRule stop_) s

end Sys2Proof.Machine
end

