-- ==== Sys2Proof/Machine/MasterReceive.lean ====
section
/-! DEFINITION. The master receive and buffer-read requests of 42_master_receive.md. -/

namespace Sys2Proof.Machine

open Sys2Proof

/-- R200 step 10, R201: `min(q, index)`. -/
def clampCount (q index : Byte) : Byte := if q.toNat ≤ index.toNat then q else index

/-- R200: the numbered steps of `REQUEST_FROM a, q, s`. -/
def requestFromRule (a : BitVec 7) (q : Byte) (stop_ : Bool) (fr : Frame) (s : State) : Advance :=
  match fr.step with
  | 1 =>
    if !s.initialized then .fault (.useBeforeBegin (headerWord (.requestFrom a q stop_)) s)
    else if s.role ≠ .master then .ret Config.oversizeCode s
    else if Config.capacity < q.toNat then .ret Config.oversizeCode s
    else if q = 0 then .fault (.zeroQuantity (headerWord (.requestFrom a q stop_)) s)
    else .goto (atStep 2) s
  | 2 => if s.state = .ready then .goto (atStep 3) s else .goto (atStep 2) s
  | 3 => .goto (atStep 4) { s with state := .masterReceive }
  | 4 => .goto (atStep 5) { s with sendStop := some stop_ }
  | 5 => .goto (atStep 6) { s with index := 0 }
  | 6 => .goto (atStep 7) { s with size := q - 1 }
  | 7 => .goto (atStep 8) { s with address := some (slaR a) }
  | 8 => issueThen (atStep 9) s
  | 9 => if s.state = .masterReceive then .goto (atStep 9) s else .goto (atStep 10) s
  | 10 => .goto { step := 11, n := clampCount q s.index } { s with size := clampCount q s.index }
  | 11 => .ret fr.n { s with index := 0 }
  | _ => .refused .noSuchStep

/-- `REQUEST_FROM a, q, s` (R200). -/
def execRequestFrom (a : BitVec 7) (q : Byte) (stop_ : Bool) (s : State) : Result :=
  callerStep (.requestFrom a q stop_) (requestFromRule a q stop_) s

/-- R202: the numbered steps of `AVAILABLE`: `size` is read first, then `index`. R306 leaves open which value of `size`
the fault records where a handler step wrote the field between; the model records `n`, the one step 1 read
(DESIGN CHOICE, notes/assumptions/19.md). -/
def availableRule (fr : Frame) (s : State) : Advance :=
  match fr.step with
  | 1 => .goto { step := 2, n := s.size } s
  | 2 =>
    if fr.n.toNat < s.index.toNat then .fault (.cursorUnderflow s.index fr.n s)
    else .ret (fr.n - s.index) s
  | _ => .refused .noSuchStep

/-- `AVAILABLE` (R202). -/
def execAvailable (s : State) : Result := callerStep .available availableRule s

/-- R203: the numbered steps of `READ`: `index` is read first, then `size`. -/
def readRule (fr : Frame) (s : State) : Advance :=
  match fr.step with
  | 1 => .goto { step := 2, i := s.index } s
  | 2 =>
    if s.size.toNat ≤ fr.i.toNat then .ret Config.readEmpty s
    else .goto { step := 3, i := fr.i } s
  | 3 =>
    match bufRead .read fr.i.toNat s with
    | .ok v => .goto { step := 4, i := fr.i, v := v } s
    | .error r => .fault r
  | 4 => .ret fr.v { s with index := fr.i + 1 }
  | _ => .refused .noSuchStep

/-- `READ` (R203). -/
def execRead (s : State) : Result := callerStep .read readRule s

end Sys2Proof.Machine
end

