-- ==== Sys2Proof/Machine/Callback.lean ====
section
/-! DEFINITION. Callback bodies (44_bus_primitives.md R288 to R290): a body is a list of request words, each request run
by its rule with all its steps inside the handler's step. -/

namespace Sys2Proof.Machine

open Sys2Proof

/-- R289: the rule a callback body runs for a request; none for a request it may not contain. A stray payload word is
no request at all, and its rule says so (R102). -/
def bodyRule : Instr → Option (Frame → State → Advance)
  | .write b => some (writeByteRule (.write b) b)
  | .writeBlock bytes => some (writeBlockRule bytes)
  | .read => some readRule
  | .available => some availableRule
  | .setOnReceive b => some (setOnReceiveRule b)
  | .setOnTransmit b => some (setOnTransmitRule b)
  | .writeBlockPayload b => some (payloadRule b)
  | .beginMaster _ | .beginSlave _ | .setFrequency _ | .endBus | .beginTransmission _ | .endTransmission _
  | .requestFrom _ _ _ => none
  | .evtStart _ _ | .evtRepStart _ _ | .evtMtSlaAck _ _ | .evtMtDataAck _ _ | .evtMtSlaNack _ _
  | .evtMtDataNack _ _ | .evtArbLost _ _ | .evtMrSlaAck _ _ | .evtMrDataAck _ _ | .evtMrDataNack _ _
  | .evtMrSlaNack _ _ | .evtSrSlaAck _ _ | .evtSrArbLostSlaAck _ _ | .evtSrGcallAck _ _
  | .evtSrArbLostGcallAck _ _ | .evtSrDataAck _ _ | .evtSrGcallDataAck _ _ | .evtSrDataNack _ _
  | .evtSrGcallDataNack _ _ | .evtSrStop _ _ | .evtStSlaAck _ _ | .evtStArbLostSlaAck _ _
  | .evtStDataAck _ _ | .evtStDataNack _ _ | .evtStLastData _ _ | .evtBusError _ _ | .evtNoInfo _ _
  | .evtUnknownD0 _ _ | .evtUnknownD8 _ _ | .evtUnknownE0 _ _ | .evtUnknownE8 _ _ | .evtUnknownF0 _ _ => none

/-- Steps enough for any request a body may contain: three for each byte of a block, and its first and last. -/
def bodyFuel : Instr → Nat
  | .writeBlock bytes => 3 * bytes.length + 2
  | _ => 4

/-- R288: the response of a body's request goes to the body. -/
def logBody (i : Instr) (v : Byte) (s : State) : State := { s with bodyLog := s.bodyLog ++ [⟨i, v⟩] }

/-- R288: the requests of a body in order, each decoded when the body reaches it. `fuel` is the number of words. -/
def runBody : Nat → List Word → State → Result
  | _, [], s => .next s
  | 0, _ :: _, _ => .refused .noSuchStep
  | n + 1, w :: ws, s =>
    match decodeRequest (w :: ws) with
    | .error _ => .fault (.illegalRequest w s)
    | .ok (i, rest) =>
      match bodyRule i with
      | none => .fault (.forbiddenInCallback w s)
      | some rule =>
        match runSteps (bodyFuel i) rule (atStep 1) s with
        | .ret v t => runBody n rest (logBody i v t)
        | .goto _ _ => .refused .noSuchStep
        | .fault r => .fault r
        | .refused r => .refused r

/-- R8 `CallbackBody(id)`: an id with no entry names the empty body. -/
def bodyOf (id : Byte) : List (Byte × List Word) → List Word
  | [] => []
  | (j, ws) :: more => if j = id then ws else bodyOf id more

/-- R288: `invokeCallback(id, args)`; with id 0 no callback is registered and nothing happens (R290). -/
def invokeCallback (id : Byte) (arg : Option Byte) (s : State) : Result :=
  if id = 0 then .next s
  else
    let body := bodyOf id s.cfg.callbackBody
    runBody body.length body { s with cbLog := s.cbLog ++ [⟨id, arg⟩] }

end Sys2Proof.Machine
end

