-- ==== Sys2Proof/Machine/EventMaster.lean ====
section
/-! DEFINITION. The event handler's master classes of 43_event_handler.md (R232 to R240). Each class has a meaning of its own over
a shared action; `din` is what a read of `DATA` returns (R111). -/

namespace Sys2Proof.Machine

open Sys2Proof

/-- R232: write the address byte to `DATA`, ACK. -/
def startAction (s : State) : Result :=
  match s.address with
  | some a => .next (reply true (emitData a s))
  | none => .fault (.unwrittenField .address s)

/-- R233: send the next byte, or finish. -/
def mtAckedAction (ev : Instr) (s : State) : Result :=
  if moreExpected s then andThen (sendByte ev s) fun t => .next (reply true t)
  else finishMaster ev s

/-- R234, R235, R248: record the outcome of the transaction and issue a STOP. -/
def stopWithStatus (ev : Instr) (outcome : TransmissionStatus) (s : State) : Result :=
  .next (stop ev { s with status := some outcome })

/-- R236. -/
def arbLostAction (s : State) : Result := .next (releaseBus { s with status := some .otherError })

/-- R237: decide the ACK bit of the first byte; nothing is stored. -/
def mrAddressedAction (s : State) : Result := .next (reply (moreExpected s) s)

/-- R238: store the byte, then decide the ACK bit of the next one. -/
def mrDataAckAction (ev : Instr) (din : Byte) (s : State) : Result :=
  andThen (storeByte ev din s) fun t => .next (reply (moreExpected t) t)

/-- R239: store the final byte and finish. -/
def mrDataNackAction (ev : Instr) (din : Byte) (s : State) : Result :=
  andThen (storeByte ev din s) fun t => finishMaster ev t

/-- `START` (R232). -/
def execEvtStart (_low : BitVec 3) (_din : Byte) (s : State) : Result :=
  handleOnce startAction s

/-- `REP_START` (R232). -/
def execEvtRepStart (_low : BitVec 3) (_din : Byte) (s : State) : Result :=
  handleOnce startAction s

/-- `MT_SLA_ACK` (R233). -/
def execEvtMtSlaAck (low : BitVec 3) (din : Byte) (s : State) : Result :=
  handleStopping (.evtMtSlaAck low din) (mtAckedAction (.evtMtSlaAck low din)) .next s

/-- `MT_DATA_ACK` (R233). -/
def execEvtMtDataAck (low : BitVec 3) (din : Byte) (s : State) : Result :=
  handleStopping (.evtMtDataAck low din) (mtAckedAction (.evtMtDataAck low din)) .next s

/-- `MT_SLA_NACK` (R234). -/
def execEvtMtSlaNack (low : BitVec 3) (din : Byte) (s : State) : Result :=
  handleStopping (.evtMtSlaNack low din) (stopWithStatus (.evtMtSlaNack low din) .addressNack) .next s

/-- `MT_DATA_NACK` (R235). -/
def execEvtMtDataNack (low : BitVec 3) (din : Byte) (s : State) : Result :=
  handleStopping (.evtMtDataNack low din) (stopWithStatus (.evtMtDataNack low din) .dataNack) .next s

/-- `ARB_LOST` (R236). -/
def execEvtArbLost (_low : BitVec 3) (_din : Byte) (s : State) : Result :=
  handleOnce arbLostAction s

/-- `MR_SLA_ACK` (R237). -/
def execEvtMrSlaAck (_low : BitVec 3) (_din : Byte) (s : State) : Result :=
  handleOnce mrAddressedAction s

/-- `MR_DATA_ACK` (R238). -/
def execEvtMrDataAck (low : BitVec 3) (din : Byte) (s : State) : Result :=
  handleOnce (mrDataAckAction (.evtMrDataAck low din) din) s

/-- `MR_DATA_NACK` (R239). -/
def execEvtMrDataNack (low : BitVec 3) (din : Byte) (s : State) : Result :=
  handleStopping (.evtMrDataNack low din) (mrDataNackAction (.evtMrDataNack low din) din) .next s

/-- `MR_SLA_NACK` (R240). -/
def execEvtMrSlaNack (low : BitVec 3) (din : Byte) (s : State) : Result :=
  handleStopping (.evtMrSlaNack low din) (fun t => .next (stop (.evtMrSlaNack low din) t)) .next s

end Sys2Proof.Machine
end

