-- ==== Sys2Proof/Machine/EventSlave.lean ====
section
/-! DEFINITION. The event handler's slave classes of 43_event_handler.md (R241 to R247). -/

namespace Sys2Proof.Machine

open Sys2Proof

/-- R241: addressed as a slave receiver. `size` is not reset. -/
def srAddressedAction (s : State) : Result :=
  .next (reply true { s with state := .slaveReceive, index := 0 })

/-- R242: store and ACK while the buffer has room, else NACK. -/
def srDataAckAction (ev : Instr) (din : Byte) (s : State) : Result :=
  if s.index.toNat < Config.capacity then andThen (storeByte ev din s) fun t => .next (reply true t)
  else .next (reply false s)

/-- R243: the byte is dropped. -/
def srDataNackAction (s : State) : Result := .next (reply false s)

/-- R244, after the hold of `stop()`: freeze `size`, reset `index`, run the receive callback, release the bus. -/
def srStopRest (s : State) : Result :=
  andThen (invokeCallback s.onRx (some s.index) { s with size := s.index, index := 0 }) fun t => .next (releaseBus t)

/-- R246 `stSend`: send the next byte, then mark the last one with NACK. -/
def stSend (ev : Instr) (s : State) : Result :=
  if moreExpected s then andThen (sendByte ev s) fun t => .next (reply (moreExpected t) t)
  else .fault (.txUnderrun s.index s.size s)

/-- R245: the filler byte, where the callback left the buffer empty. -/
def fillIfEmpty (ev : Instr) (s : State) : Result :=
  if s.size = 0 then
    match bufWrite ev 0 Config.filler s with
    | .ok t => .next { t with size := 1 }
    | .error r => .fault r
  else .next s

/-- R245: addressed as a slave transmitter. -/
def stAddressedAction (ev : Instr) (s : State) : Result :=
  andThen (invokeCallback s.onTx none { s with state := .slaveTransmit, index := 0, size := 0 }) fun t =>
    andThen (fillIfEmpty ev t) fun u => stSend ev u

/-- R247. -/
def stEndAction (s : State) : Result := .next (releaseBus s)

/-- `SR_SLA_ACK` (R241). -/
def execEvtSrSlaAck (_low : BitVec 3) (_din : Byte) (s : State) : Result :=
  handleOnce srAddressedAction s

/-- `SR_ARB_LOST_SLA_ACK` (R241). -/
def execEvtSrArbLostSlaAck (_low : BitVec 3) (_din : Byte) (s : State) : Result :=
  handleOnce srAddressedAction s

/-- `SR_GCALL_ACK` (R241). -/
def execEvtSrGcallAck (_low : BitVec 3) (_din : Byte) (s : State) : Result :=
  handleOnce srAddressedAction s

/-- `SR_ARB_LOST_GCALL_ACK` (R241). -/
def execEvtSrArbLostGcallAck (_low : BitVec 3) (_din : Byte) (s : State) : Result :=
  handleOnce srAddressedAction s

/-- `SR_DATA_ACK` (R242). -/
def execEvtSrDataAck (low : BitVec 3) (din : Byte) (s : State) : Result :=
  handleOnce (srDataAckAction (.evtSrDataAck low din) din) s

/-- `SR_GCALL_DATA_ACK` (R242). -/
def execEvtSrGcallDataAck (low : BitVec 3) (din : Byte) (s : State) : Result :=
  handleOnce (srDataAckAction (.evtSrGcallDataAck low din) din) s

/-- `SR_DATA_NACK` (R243). -/
def execEvtSrDataNack (_low : BitVec 3) (_din : Byte) (s : State) : Result :=
  handleOnce srDataNackAction s

/-- `SR_GCALL_DATA_NACK` (R243). -/
def execEvtSrGcallDataNack (_low : BitVec 3) (_din : Byte) (s : State) : Result :=
  handleOnce srDataNackAction s

/-- `SR_STOP` (R244). -/
def execEvtSrStop (low : BitVec 3) (din : Byte) (s : State) : Result :=
  handleStopping (.evtSrStop low din) (fun t => .next (stop (.evtSrStop low din) t)) srStopRest s

/-- `ST_SLA_ACK` (R245). -/
def execEvtStSlaAck (low : BitVec 3) (din : Byte) (s : State) : Result :=
  handleOnce (stAddressedAction (.evtStSlaAck low din)) s

/-- `ST_ARB_LOST_SLA_ACK` (R245). -/
def execEvtStArbLostSlaAck (low : BitVec 3) (din : Byte) (s : State) : Result :=
  handleOnce (stAddressedAction (.evtStArbLostSlaAck low din)) s

/-- `ST_DATA_ACK` (R246). -/
def execEvtStDataAck (low : BitVec 3) (din : Byte) (s : State) : Result :=
  handleOnce (stSend (.evtStDataAck low din)) s

/-- `ST_DATA_NACK` (R247). -/
def execEvtStDataNack (_low : BitVec 3) (_din : Byte) (s : State) : Result :=
  handleOnce stEndAction s

/-- `ST_LAST_DATA` (R247). -/
def execEvtStLastData (_low : BitVec 3) (_din : Byte) (s : State) : Result :=
  handleOnce stEndAction s

end Sys2Proof.Machine
end

