-- ==== Sys2Proof/Machine/EventError.lean ====
section
/-! DEFINITION. The event handler's error class, its empty class and the codes with no class of 43_event_handler.md (R248 to
R250). -/

namespace Sys2Proof.Machine

open Sys2Proof

/-- R250: the fault of a status code with no class. -/
def unknownAction (ev : Instr) (s : State) : Result := .fault (.unknownStatus (statusByte ev) s)

/-- `BUS_ERROR` (R248). -/
def execEvtBusError (low : BitVec 3) (din : Byte) (s : State) : Result :=
  handleStopping (.evtBusError low din) (stopWithStatus (.evtBusError low din) .otherError) .next s

/-- `NO_INFO` (R249). -/
def execEvtNoInfo (_low : BitVec 3) (_din : Byte) (s : State) : Result :=
  handleOnce (fun t => .next t) s

/-- `UNKNOWN`, code 0xD0 (R250). -/
def execEvtUnknownD0 (low : BitVec 3) (din : Byte) (s : State) : Result :=
  handleOnce (unknownAction (.evtUnknownD0 low din)) s

/-- `UNKNOWN`, code 0xD8 (R250). -/
def execEvtUnknownD8 (low : BitVec 3) (din : Byte) (s : State) : Result :=
  handleOnce (unknownAction (.evtUnknownD8 low din)) s

/-- `UNKNOWN`, code 0xE0 (R250). -/
def execEvtUnknownE0 (low : BitVec 3) (din : Byte) (s : State) : Result :=
  handleOnce (unknownAction (.evtUnknownE0 low din)) s

/-- `UNKNOWN`, code 0xE8 (R250). -/
def execEvtUnknownE8 (low : BitVec 3) (din : Byte) (s : State) : Result :=
  handleOnce (unknownAction (.evtUnknownE8 low din)) s

/-- `UNKNOWN`, code 0xF0 (R250). -/
def execEvtUnknownF0 (low : BitVec 3) (din : Byte) (s : State) : Result :=
  handleOnce (unknownAction (.evtUnknownF0 low din)) s

end Sys2Proof.Machine
end

