-- ==== Sys2Proof/Machine/Dispatch.lean ====
section
/-! DEFINITION. One arm per instruction: a request runs its next atomic step, an event runs the handler's action. -/

namespace Sys2Proof.Machine

open Sys2Proof

def exec (i : Instr) (s : State) : Host.Outcome State Fault Refusal :=
  match i with
  | .beginMaster f => Sys2Proof.Machine.execBeginMaster f s
  | .beginSlave a => Sys2Proof.Machine.execBeginSlave a s
  | .setFrequency f => Sys2Proof.Machine.execSetFrequency f s
  | .endBus => Sys2Proof.Machine.execEndBus s
  | .setOnReceive b => Sys2Proof.Machine.execSetOnReceive b s
  | .setOnTransmit b => Sys2Proof.Machine.execSetOnTransmit b s
  | .beginTransmission a => Sys2Proof.Machine.execBeginTransmission a s
  | .write b => Sys2Proof.Machine.execWrite b s
  | .writeBlock bytes => Sys2Proof.Machine.execWriteBlock bytes s
  | .endTransmission stop => Sys2Proof.Machine.execEndTransmission stop s
  | .requestFrom a q stop => Sys2Proof.Machine.execRequestFrom a q stop s
  | .available => Sys2Proof.Machine.execAvailable s
  | .read => Sys2Proof.Machine.execRead s
  | .writeBlockPayload b => Sys2Proof.Machine.execWriteBlockPayload b s
  | .evtStart low din => Sys2Proof.Machine.execEvtStart low din s
  | .evtRepStart low din => Sys2Proof.Machine.execEvtRepStart low din s
  | .evtMtSlaAck low din => Sys2Proof.Machine.execEvtMtSlaAck low din s
  | .evtMtDataAck low din => Sys2Proof.Machine.execEvtMtDataAck low din s
  | .evtMtSlaNack low din => Sys2Proof.Machine.execEvtMtSlaNack low din s
  | .evtMtDataNack low din => Sys2Proof.Machine.execEvtMtDataNack low din s
  | .evtArbLost low din => Sys2Proof.Machine.execEvtArbLost low din s
  | .evtMrSlaAck low din => Sys2Proof.Machine.execEvtMrSlaAck low din s
  | .evtMrDataAck low din => Sys2Proof.Machine.execEvtMrDataAck low din s
  | .evtMrDataNack low din => Sys2Proof.Machine.execEvtMrDataNack low din s
  | .evtMrSlaNack low din => Sys2Proof.Machine.execEvtMrSlaNack low din s
  | .evtSrSlaAck low din => Sys2Proof.Machine.execEvtSrSlaAck low din s
  | .evtSrArbLostSlaAck low din => Sys2Proof.Machine.execEvtSrArbLostSlaAck low din s
  | .evtSrGcallAck low din => Sys2Proof.Machine.execEvtSrGcallAck low din s
  | .evtSrArbLostGcallAck low din => Sys2Proof.Machine.execEvtSrArbLostGcallAck low din s
  | .evtSrDataAck low din => Sys2Proof.Machine.execEvtSrDataAck low din s
  | .evtSrGcallDataAck low din => Sys2Proof.Machine.execEvtSrGcallDataAck low din s
  | .evtSrDataNack low din => Sys2Proof.Machine.execEvtSrDataNack low din s
  | .evtSrGcallDataNack low din => Sys2Proof.Machine.execEvtSrGcallDataNack low din s
  | .evtSrStop low din => Sys2Proof.Machine.execEvtSrStop low din s
  | .evtStSlaAck low din => Sys2Proof.Machine.execEvtStSlaAck low din s
  | .evtStArbLostSlaAck low din => Sys2Proof.Machine.execEvtStArbLostSlaAck low din s
  | .evtStDataAck low din => Sys2Proof.Machine.execEvtStDataAck low din s
  | .evtStDataNack low din => Sys2Proof.Machine.execEvtStDataNack low din s
  | .evtStLastData low din => Sys2Proof.Machine.execEvtStLastData low din s
  | .evtBusError low din => Sys2Proof.Machine.execEvtBusError low din s
  | .evtNoInfo low din => Sys2Proof.Machine.execEvtNoInfo low din s
  | .evtUnknownD0 low din => Sys2Proof.Machine.execEvtUnknownD0 low din s
  | .evtUnknownD8 low din => Sys2Proof.Machine.execEvtUnknownD8 low din s
  | .evtUnknownE0 low din => Sys2Proof.Machine.execEvtUnknownE0 low din s
  | .evtUnknownE8 low din => Sys2Proof.Machine.execEvtUnknownE8 low din s
  | .evtUnknownF0 low din => Sys2Proof.Machine.execEvtUnknownF0 low din s

end Sys2Proof.Machine
end

