-- ==== Sys2Proof/Machine/Turns.lean ====
section
/-! DEFINITION. What each agent does in its turn (00_scope.md R9; 20_memory.md R80, R81): the caller takes its next atomic
step, fetching a request where it is idle; the handler takes the pending event or goes on after its hold; the bus
engine posts or ends its STOP. A move that is not enabled changes nothing but the turn. -/

namespace Sys2Proof.Machine

open Sys2Proof

/-- The caller's turn. While the handler runs the caller takes no step (R81). From `k_C = idle` it takes the next
request of the port (R340); an illegal one raises its fault (R103); a port without a whole request is waited on. -/
def callerTurn (s : State) : Result :=
  match s.kH with
  | .stopWait _ => .next s
  | .idle =>
    match s.kC with
    | .running i _ => exec i s
    | .idle =>
      match decodeRequest s.requests with
      | .ok (i, rest) => exec i { s with requests := rest }
      | .error .noWord => .next s
      | .error .incompleteBlock => .next s
      | .error _ => .fault (.illegalRequest (s.requests.headD 0) s)

/-- The handler's turn: handler entry (R230, R308), or the action that holds in `stop()` (R282). -/
def handlerTurn (s : State) : Result :=
  match s.kH with
  | .stopWait i => exec i s
  | .idle =>
    match s.pending with
    | none => .next s
    | some e => if s.enabled then exec (decodeEvent e.st e.din) { s with pending := none } else .next s

/-- One turn. -/
def runTurn (t : Turn) (s : State) : Result :=
  match t with
  | .caller => callerTurn s
  | .handler => handlerTurn s
  | .post st din => .next (busPost st din s)
  | .stopDone => .next (busStopDone s)

/-- One step of the run: the next turn is taken, and its agent moves. -/
def stepTurn (s : State) : Result := runTurn (takeTurn s).1 (takeTurn s).2

end Sys2Proof.Machine
end

