-- ==== Sys2Proof/Safety.lean ====
section
/-! DEFINITION. What claims are stated in: several steps of one request, the end of a run (20_memory.md R91), the
invariants, and the two premises on a run, `BusFollowsProtocol` (60_exceptions.md R322) and the handler's fairness
(70_reset_and_hazards.md R355). -/

namespace Sys2Proof.Machine

open Sys2Proof

/-! ## Runs -/

/-- `n` atomic steps of request `i` with no other agent between them. -/
def runExec : Nat → Instr → State → Result
  | 0, _, s => .next s
  | n + 1, i, s => andThen (exec i s) (runExec n i)

/-- The events of a list handled one after the other. -/
def runEvents : List Instr → State → Result
  | [], s => .next s
  | i :: is, s => andThen (exec i s) (runEvents is)

/-- `return v` of request `i` (00_scope.md R12): the response on the request port, and the caller idle. -/
def returned (i : Instr) (v : Byte) (s : State) : State :=
  { s with kC := .idle, reqLog := s.reqLog ++ [⟨i, v⟩] }

/-- The caller at the numbered step `k` of request `i`. -/
def caller (i : Instr) (k : Nat) (s : State) : State := { s with kC := .running i (atStep k) }

/-- The caller stands before the numbered step `k` of request `i`, with no caller-local value. -/
abbrev inStep (i : Instr) (k : Nat) (s : State) : Prop := s.kC = .running i (atStep k)

/-- The state with its first listed turn taken. -/
def turnTaken (s : State) : State := { s with schedule := s.schedule.tail, turns := s.turns + 1 }

/-- R91: the run has ended. -/
def Final (s : State) : Prop := s.requests = [] ∧ s.kC = .idle ∧ s.kH = .idle ∧ s.pending = none

/-- An endless run. -/
def IsRun (run : Nat → State) : Prop := ∀ n, step (run n) = .next (run (n + 1))

/-- R355: an event that stays deliverable is eventually taken. -/
def HandlerFair (run : Nat → State) : Prop :=
  ∀ n, deliverable (run n) = true → ∃ m, n ≤ m ∧ deliverable (run m) = false

/-! ## The invariants -/

/-- The events whose action calls `stop()` (R282): those `k_H` can hold in. -/
def stops : Instr → Bool
  | .evtMtSlaAck _ _ | .evtMtDataAck _ _ | .evtMtSlaNack _ _ | .evtMtDataNack _ _ | .evtMrDataNack _ _
  | .evtMrSlaNack _ _ | .evtSrStop _ _ | .evtBusError _ _ => true
  | .beginMaster _ | .beginSlave _ | .setFrequency _ | .endBus | .setOnReceive _ | .setOnTransmit _
  | .beginTransmission _ | .write _ | .writeBlock _ | .endTransmission _ | .requestFrom _ _ _
  | .available | .read | .writeBlockPayload _
  | .evtStart _ _ | .evtRepStart _ _ | .evtArbLost _ _ | .evtMrSlaAck _ _ | .evtMrDataAck _ _
  | .evtSrSlaAck _ _ | .evtSrArbLostSlaAck _ _ | .evtSrGcallAck _ _ | .evtSrArbLostGcallAck _ _
  | .evtSrDataAck _ _ | .evtSrGcallDataAck _ _ | .evtSrDataNack _ _ | .evtSrGcallDataNack _ _
  | .evtStSlaAck _ _ | .evtStArbLostSlaAck _ _ | .evtStDataAck _ _ | .evtStDataNack _ _ | .evtStLastData _ _
  | .evtNoInfo _ _ | .evtUnknownD0 _ _ | .evtUnknownD8 _ _ | .evtUnknownE0 _ _ | .evtUnknownE8 _ _
  | .evtUnknownF0 _ _ => false

/-- `lo ≤ k ≤ hi`. -/
def between (lo hi k : Nat) : Bool := decide (lo ≤ k) && decide (k ≤ hi)

/-- A place inside request `i` that its rule has, past its first step, with the caller-local values in the bounds the
rule keeps them in (R49, R204). -/
def frameOk (i : Instr) (fr : Frame) : Bool :=
  match i with
  | .beginMaster _ | .beginSlave _ | .endBus => between 2 5 fr.step
  | .setFrequency _ => between 2 3 fr.step
  | .beginTransmission _ | .endTransmission _ => between 2 6 fr.step
  | .write _ => between 2 3 fr.step && decide (fr.n.toNat < Config.capacity)
  | .writeBlock bytes =>
    fr.step == 3 || (decide (fr.k < bytes.length) &&
      (fr.step == 21 || (between 22 23 fr.step && decide (fr.n.toNat < Config.capacity))))
  | .requestFrom _ q _ =>
    between 1 Config.capacity q.toNat &&
      (between 2 10 fr.step || (fr.step == 11 && decide (fr.n.toNat ≤ Config.capacity)))
  | .available => fr.step == 2 && decide (fr.n.toNat ≤ Config.capacity)
  | .read => between 2 3 fr.step || (fr.step == 4 && decide (fr.i.toNat < Config.capacity))
  | .setOnReceive _ | .setOnTransmit _ | .writeBlockPayload _ => false
  | .evtStart _ _ | .evtRepStart _ _ | .evtMtSlaAck _ _ | .evtMtDataAck _ _ | .evtMtSlaNack _ _
  | .evtMtDataNack _ _ | .evtArbLost _ _ | .evtMrSlaAck _ _ | .evtMrDataAck _ _ | .evtMrDataNack _ _
  | .evtMrSlaNack _ _ | .evtSrSlaAck _ _ | .evtSrArbLostSlaAck _ _ | .evtSrGcallAck _ _
  | .evtSrArbLostGcallAck _ _ | .evtSrDataAck _ _ | .evtSrGcallDataAck _ _ | .evtSrDataNack _ _
  | .evtSrGcallDataNack _ _ | .evtSrStop _ _ | .evtStSlaAck _ _ | .evtStArbLostSlaAck _ _
  | .evtStDataAck _ _ | .evtStDataNack _ _ | .evtStLastData _ _ | .evtBusError _ _ | .evtNoInfo _ _
  | .evtUnknownD0 _ _ | .evtUnknownD8 _ _ | .evtUnknownE0 _ _ | .evtUnknownE8 _ _ | .evtUnknownF0 _ _ => false

/-- `k_C` names a step of its request. -/
def callerOk : CallerPos → Bool
  | .idle => true
  | .running i fr => i.wellFormed && frameOk i fr

/-- `k_H` names an event whose action can hold. -/
def handlerOk : HandlerPos → Bool
  | .idle => true
  | .stopWait i => stops i

/-- The data invariant: the buffer in its canonical form, both cursors in 0..32 (R33, R34), and both continuations at a
place their rules have (R49). -/
structure Inv (s : State) : Prop where
  buf     : Memory.wf s.buf = true
  index   : s.index.toNat ≤ Config.capacity
  size    : s.size.toNat ≤ Config.capacity
  caller  : callerOk s.kC = true
  handler : handlerOk s.kH = true

/-- The caller is inside `END`, past its `Disable` (R145). -/
def callerEnding : CallerPos → Bool
  | .running .endBus fr => decide (3 ≤ fr.step)
  | _ => false

/-- The caller is inside a request that checked `initialized` (R170, R173, R200). -/
def callerOnBus : CallerPos → Bool
  | .running (.beginTransmission _) _ => true
  | .running (.endTransmission _) _ => true
  | .running (.requestFrom _ _ _) _ => true
  | _ => false

/-- The caller is at the last step of a `begin`, past its `Enable` (R141, R143). -/
def callerBegun : CallerPos → Bool
  | .running (.beginMaster _) fr => decide (fr.step = 5)
  | .running (.beginSlave _) fr => decide (fr.step = 5)
  | _ => false

/-- The delivery invariant (R52, R308): the hardware raises events only while it is on; `stopPending` is set only while
the handler holds for it; and the block is begun only with the hardware on. -/
structure DeliveryInv (s : State) : Prop where
  armedOn     : s.armed = true → s.enabled = true
  stopHeld    : s.stopPending = true → s.kH ≠ .idle
  heldOn      : s.kH ≠ .idle → s.enabled = true
  begunOn     : s.initialized = true → callerEnding s.kC = false → s.enabled = true
  onBusBegun  : callerOnBus s.kC = true → s.initialized = true
  beginningOn : callerBegun s.kC = true → s.enabled = true

/-! ## What the handler may not depend on (43_event_handler.md R231) -/

/-- A state with `state` and `role` blotted out. -/
def eraseDispatch (s : State) : State := { s with state := .ready, role := .master }

/-- A fault with its kept state changed by `f`. -/
def mapFault (f : State → State) : Fault → Fault
  | .illegalRequest w s => .illegalRequest w (f s)
  | .useBeforeBegin w s => .useBeforeBegin w (f s)
  | .divisorOutOfRange g s => .divisorOutOfRange g (f s)
  | .zeroQuantity w s => .zeroQuantity w (f s)
  | .bufferOverrun p i s => .bufferOverrun p i (f s)
  | .unwrittenByte p s => .unwrittenByte p (f s)
  | .unwrittenField n s => .unwrittenField n (f s)
  | .cursorUnderflow i n s => .cursorUnderflow i n (f s)
  | .txUnderrun i n s => .txUnderrun i n (f s)
  | .unknownStatus st s => .unknownStatus st (f s)
  | .forbiddenInCallback w s => .forbiddenInCallback w (f s)

/-- An outcome with its state changed by `f`. -/
def mapResult (f : State → State) : Result → Result
  | .next s => .next (f s)
  | .fault r => .fault (mapFault f r)
  | .refused r => .refused r

/-! ## The opcode table of the request port -/

/-- The match and mask of each request row of spec/opcode_table.json. -/
def requestTable : List (Word × Word) :=
  [(0x01000000, 0xFF000000), (0x02000000, 0xFFFFFF80), (0x03000000, 0xFF000000), (0x04000000, 0xFFFFFFFF),
   (0x05000000, 0xFFFFFF00), (0x06000000, 0xFFFFFF00), (0x10000000, 0xFFFFFF80), (0x11000000, 0xFFFFFF00),
   (0x12000000, 0xFFFFFF00), (0x13000000, 0xFFFFFFFE), (0x20000000, 0xFFFE0080), (0x21000000, 0xFFFFFFFF),
   (0x22000000, 0xFFFFFFFF), (0xFE000000, 0xFFFFFF00)]

/-- A word that is the first word of a row of the table, the payload row included. -/
def inTable (w : Word) : Bool := requestTable.any fun r => w &&& r.2 == r.1

/-- A word of the payload row (R102). -/
def isPayload (w : Word) : Bool := w &&& 0xFFFFFF00 == 0xFE000000

/-- A word of the `WRITE_BLOCK` row (R102). -/
def isBlockHeader (w : Word) : Bool := w &&& 0xFFFFFF00 == 0x12000000

/-! ## Views of the logs -/

/-- R54: the acknowledge bit the bus engine has latched for the next byte: the last `Ack` or `Nack`, none before the
first. -/
def ackLatch (s : State) : Option Bool :=
  s.cmdLog.foldl (fun l o => match o with
    | .command .ack => some true
    | .command .nack => some false
    | _ => l) none

/-- The response on the request port (00_scope.md R12): that of the last request that returned. -/
def response (s : State) : Option Byte := (s.reqLog.getLast?).map (·.value)

/-! ## BusFollowsProtocol (60_exceptions.md R322) -/

/-- The slave-addressing classes. -/
def slaveAddressing : List StatusClass :=
  [.srSlaAck, .srArbLostSlaAck, .srGcallAck, .srArbLostGcallAck, .stSlaAck, .stArbLostSlaAck]

/-- The slave-addressing classes after an arbitration loss (R317): the codes 0x68, 0x78, 0xB0. -/
def addressedAfterLoss : List StatusClass := [.srArbLostSlaAck, .srArbLostGcallAck, .stArbLostSlaAck]

/-- The classes R322 allows with the bus idle. -/
def allowedIdle : List StatusClass := slaveAddressing ++ [.busError, .noInfo]

/-- The classes R322 allows after an address byte and `Ack`: bit 0 of the byte is the direction (R105). -/
def allowedAddress (a : Byte) : List StatusClass :=
  (if a.toNat % 2 = 0 then [.mtSlaAck, .mtSlaNack] else [.mrSlaAck, .mrSlaNack]) ++
    [.arbLost, .busError] ++ addressedAfterLoss

/-- The classes R322 allows after `Ack` with no `Data` before it, by the class of the last event. -/
def allowedAck (last : StatusClass) : List StatusClass :=
  match last with
  | .mrSlaAck | .mrDataAck => [.mrDataAck, .arbLost, .busError]
  | .srSlaAck | .srArbLostSlaAck | .srDataAck | .srGcallAck | .srArbLostGcallAck | .srGcallDataAck =>
    [.srDataAck, .srGcallDataAck, .srStop, .busError]
  | .arbLost | .srStop | .stDataNack | .stLastData | .noInfo => allowedIdle
  | .start | .repStart | .mtSlaAck | .mtSlaNack | .mtDataAck | .mtDataNack | .mrSlaNack | .mrDataNack
  | .srDataNack | .srGcallDataNack | .stSlaAck | .stArbLostSlaAck | .stDataAck | .busError | .unknown => []

/-- The classes R322 allows after `Nack` with no `Data` before it. -/
def allowedNack (last : StatusClass) : List StatusClass :=
  match last with
  | .mrSlaAck | .mrDataAck => [.mrDataNack, .arbLost, .busError]
  | .srDataAck | .srDataNack | .srGcallDataAck | .srGcallDataNack =>
    [.srDataNack, .srGcallDataNack, .srStop, .busError]
  | .start | .repStart | .mtSlaAck | .mtSlaNack | .mtDataAck | .mtDataNack | .arbLost | .mrSlaNack | .mrDataNack
  | .srSlaAck | .srArbLostSlaAck | .srGcallAck | .srArbLostGcallAck | .srStop | .stSlaAck | .stArbLostSlaAck
  | .stDataAck | .stDataNack | .stLastData | .busError | .noInfo | .unknown => []

/-- The classes R322 allows after `Data(b), Ack` that is no address byte issued by the caller. -/
def allowedDataAck (last : StatusClass) (b : Byte) : List StatusClass :=
  match last with
  | .start | .repStart => allowedAddress b
  | .mtSlaAck | .mtDataAck => [.mtDataAck, .mtDataNack, .arbLost, .busError]
  | .stSlaAck | .stArbLostSlaAck | .stDataAck => [.stDataAck, .stDataNack, .busError]
  | .mtSlaNack | .mtDataNack | .arbLost | .mrSlaAck | .mrSlaNack | .mrDataAck | .mrDataNack
  | .srSlaAck | .srArbLostSlaAck | .srGcallAck | .srArbLostGcallAck | .srDataAck | .srDataNack | .srGcallDataAck
  | .srGcallDataNack | .srStop | .stDataNack | .stLastData | .busError | .noInfo | .unknown => []

/-- R322: the classes the table allows after the commands of a log (newest first here), `last` being the class of the
last event posted. -/
def allowedNext (log : List BusOutput) (last : StatusClass) : List StatusClass :=
  match log with
  | .command .enable :: _ => allowedIdle
  | .command .stop :: _ => allowedIdle
  | .command .start :: _ => [.start, .arbLost, .busError] ++ addressedAfterLoss
  | .command .ack :: .data b :: .command .armRepStart :: _ => allowedAddress b
  | .command .ack :: .data b :: _ => allowedDataAck last b
  | .command .ack :: _ => allowedAck last
  | .command .nack :: .data _ :: _ => [.stDataNack, .stLastData, .busError]
  | .command .nack :: _ => allowedNack last
  | .command .armRepStart :: _ => []
  | .command .disable :: _ => []
  | .data _ :: _ => []
  | [] => []

/-- R322: posting `st` in state `s` follows the protocol. -/
def protocolAllows (st : Byte) (s : State) : Bool :=
  decide (classify st ∈ allowedNext s.cmdLog.reverse (classify s.regs.status))

/-- R322 `BusFollowsProtocol`: every code that is posted is one the table allows, and every `Stop` is followed by
`STOPDONE`. -/
def BusFollowsProtocol (run : Nat → State) : Prop :=
  (∀ n st din, (takeTurn (run n)).1 = .post st din → postEnabled (run n) = true → protocolAllows st (run n) = true) ∧
  (∀ n, (run n).stopPending = true → ∃ m, n ≤ m ∧ (run m).stopPending = false)

end Sys2Proof.Machine
end

