-- ==== Sys2Proof/Certificates/Slice0/Obligations.lean ====
section
/-! DEFINITION. The statements for the provers, in the order of OBLIGATIONS.json. -/

open Sys2Proof Sys2Proof.Machine

/-! ## Reset and the invariants -/

/-- 10_state.md R55: the state after reset. -/
def Obligations.ResetStateHoldsItsTable : Prop :=
  State.reset.initialized = false ∧ State.reset.role = .master ∧ State.reset.state = .ready ∧
  State.reset.index = 0 ∧ State.reset.size = 0 ∧
  (∀ pos, Memory.read State.reset.buf pos = none) ∧
  State.reset.address = none ∧ State.reset.sendStop = none ∧ State.reset.inRepStart = false ∧
  State.reset.status = none ∧ State.reset.onRx = 0 ∧ State.reset.onTx = 0 ∧
  State.reset.kC = .idle ∧ State.reset.kH = .idle ∧ State.reset.pending = none ∧
  State.reset.enabled = false ∧ State.reset.armed = false ∧ State.reset.stopPending = false ∧
  State.reset.cmdLog = [] ∧ State.reset.reqLog = [] ∧ State.reset.cbLog = [] ∧
  (∀ r, PhysRegs.get r State.reset.regs = PhysRegs.get r State.reset.cfg.physReset)

/-- Both invariants hold at reset. -/
def Obligations.ResetMeetsBothInvariants : Prop := Inv State.reset ∧ DeliveryInv State.reset

/-- R33, R34, R42, R49: every step keeps the buffer canonical, both cursors in 0..32, and both continuations at a place
their rules have. -/
def Obligations.StepKeepsDataInvariant : Prop :=
  ∀ s t : State, Inv s → step s = .next t → Inv t

/-- R52, R308: every step from a state of the data invariant keeps the delivery invariant. -/
def Obligations.StepKeepsDeliveryInvariant : Prop :=
  ∀ s t : State, Inv s → DeliveryInv s → step s = .next t → DeliveryInv t

/-- From a state of the data invariant no step is refused: each step goes on or raises a fault of R306. -/
def Obligations.StepNeverRefused : Prop :=
  ∀ (s : State) (r : Refusal), Inv s → step s ≠ .refused r

/-- 20_memory.md R88, R90: no step writes the parameters of the run. -/
def Obligations.ParametersAreFixed : Prop :=
  ∀ s t : State, step s = .next t → t.cfg = s.cfg

/-- R53: no step takes an entry out of a log; each log only grows at its end. -/
def Obligations.LogsOnlyGrow : Prop :=
  ∀ s t : State, step s = .next t →
    s.cmdLog <+: t.cmdLog ∧ s.reqLog <+: t.reqLog ∧ s.cbLog <+: t.cbLog ∧ s.bodyLog <+: t.bodyLog

/-! ## Encoding -/

/-- Decoding the words of a well-formed instruction gives it back, whatever its operands. -/
def Obligations.DecodeOfEncode : Prop :=
  ∀ i : Instr, i.wellFormed = true → decode (encode i) = .ok i

/-- A port item that decodes is the encoding of what it decodes to: no bit is dropped, and each instruction has one
encoding. -/
def Obligations.EncodeOfDecode : Prop :=
  ∀ (p : PortItem) (i : Instr), decode p = .ok i → i.wellFormed = true ∧ encode i = p

/-- Words written out from 30_encoding.md R101, R109, R112 and from the vectors of 95_test_vectors.md. -/
def Obligations.WordsOfTheSpecDecode : Prop :=
  decode (.request [0x010186A0]) = .ok (.beginMaster 100000) ∧
  decode (.request [0x02000042]) = .ok (.beginSlave 0x42) ∧
  decode (.request [0x13000001]) = .ok (.endTransmission true) ∧
  decode (.request [0x20010350]) = .ok (.requestFrom 0x50 3 true) ∧
  decode (.request [0x12000002, 0xFE000011, 0xFE000022]) = .ok (.writeBlock [0x11, 0x22]) ∧
  decode (.request [0x200201D0]) = .error .reservedBits ∧
  decode (.request [0x07000000]) = .error .unassignedOp ∧
  decode (.event 0x0B 0) = .ok (.evtStart 3 0) ∧
  decode (.event 0x58 0x34) = .ok (.evtMrDataNack 0 0x34) ∧
  decode (.event 0xD0 0) = .ok (.evtUnknownD0 0 0)

/-- R102, R103: an illegal request raises `Fault(IllegalRequest)` and changes nothing else. The request port's own words
may be taken. -/
def Obligations.IllegalRequestsFault : Prop :=
  ∀ (s : State) (ts : List Turn) (w : Word) (rest : List Word),
    s.schedule = .caller :: ts → s.kC = .idle → s.kH = .idle → s.requests = w :: rest →
    (inTable w = false ∨ isPayload w = true ∨
      (isBlockHeader w = true ∧
        ∃ j p, j < w.toNat % 256 ∧ rest[j]? = some p ∧ isPayload p = false)) →
    ∃ ws, step s = .fault (.illegalRequest w { turnTaken s with requests := ws })

/-! ## Steps and delivery -/

/-- A step runs the decoded instruction: the caller's next request, the request it is in, the event the handler takes,
and the action that holds. -/
def Obligations.StepRunsTheDecodedInstruction : Prop :=
  ∀ (s : State) (ts : List Turn) (i : Instr),
    (∀ rest, s.schedule = .caller :: ts → s.kH = .idle → s.kC = .idle → decodeRequest s.requests = .ok (i, rest) →
      step s = exec i { turnTaken s with requests := rest }) ∧
    (∀ fr, s.schedule = .caller :: ts → s.kH = .idle → s.kC = .running i fr → step s = exec i (turnTaken s)) ∧
    (∀ st din, s.schedule = .handler :: ts → s.kH = .idle → s.enabled = true → s.pending = some ⟨st, din⟩ →
      decodeEvent st din = i → step s = exec i { turnTaken s with pending := none }) ∧
    (s.schedule = .handler :: ts → s.kH = .stopWait i → step s = exec i (turnTaken s))

/-- 20_memory.md R81, R282, R308, R322: while the handler holds, the caller takes no step and no event is posted; the bus
engine may still clear `stopPending`. That a disabled move takes the turn and changes nothing else is the model's choice
(notes/assumptions/7.md). -/
def Obligations.HandlerHoldStopsTheCaller : Prop :=
  ∀ (s : State) (ts : List Turn) (ev : Instr), s.kH = .stopWait ev →
    (s.schedule = .caller :: ts → step s = .next (turnTaken s)) ∧
    (∀ st din, s.schedule = .post st din :: ts → step s = .next (turnTaken s)) ∧
    (s.schedule = .stopDone :: ts → step s = .next { turnTaken s with stopPending := false })

/-- 60_exceptions.md R308: when the bus engine may post, and when the handler may take. The model's choices here: `STATUS`
shows the posted code (notes/assumptions/6.md), and a move that is not enabled takes the turn and changes nothing else
(notes/assumptions/7.md). -/
def Obligations.DeliveryConditions : Prop :=
  ∀ (s : State) (ts : List Turn),
    (∀ st din, s.schedule = .post st din :: ts →
      (s.enabled = true ∧ s.armed = true ∧ s.pending = none ∧ s.kH = .idle →
        step s = .next { turnTaken s with pending := some ⟨st, din⟩, regs := PhysRegs.set .status st s.regs }) ∧
      (¬ (s.enabled = true ∧ s.armed = true ∧ s.pending = none ∧ s.kH = .idle) → step s = .next (turnTaken s))) ∧
    (s.schedule = .handler :: ts → s.kH = .idle → (s.pending = none ∨ s.enabled = false) →
      step s = .next (turnTaken s))

/-- 60_exceptions.md R310: a posted event stays in `pending` until the handler takes it, and the handler clears it at
entry. -/
def Obligations.PendingEventIsNeverLost : Prop :=
  ∀ (s t : State) (e : Event), s.pending = some e → step s = .next t →
    t.pending = some e ∨
    (t.pending = none ∧ (takeTurn s).1 = .handler ∧ s.kH = .idle ∧ s.enabled = true ∧
      exec (decodeEvent e.st e.din) { (takeTurn s).2 with pending := none } = .next t)

/-- 10_state.md R52: the table of the commands' effects, that `Data(b)` has none, and that only the bus engine's
`STOPDONE` clears `stopPending`. -/
def Obligations.CommandsSetTheDeliveryFlags : Prop :=
  (∀ s : State,
    ((emit .enable s).enabled = true ∧ (emit .enable s).armed = true ∧ (emit .enable s).stopPending = s.stopPending) ∧
    ((emit .disable s).enabled = false ∧ (emit .disable s).armed = false ∧
      (emit .disable s).stopPending = s.stopPending) ∧
    (∀ c, c = .ack ∨ c = .nack ∨ c = .start → (emit c s).enabled = s.enabled ∧ (emit c s).armed = true ∧
      (emit c s).stopPending = s.stopPending) ∧
    ((emit .stop s).enabled = s.enabled ∧ (emit .stop s).armed = true ∧ (emit .stop s).stopPending = true) ∧
    ((emit .armRepStart s).enabled = s.enabled ∧ (emit .armRepStart s).armed = false ∧
      (emit .armRepStart s).stopPending = s.stopPending) ∧
    (∀ b, (emitData b s).enabled = s.enabled ∧ (emitData b s).armed = s.armed ∧
      (emitData b s).stopPending = s.stopPending)) ∧
  (∀ s t : State, s.stopPending = true → step s = .next t → t.stopPending = false → (takeTurn s).1 = .stopDone)

/-- 00_scope.md R11, R12: `emit K` writes one register and one entry of the command log, and of the other fields only the
three delivery flags; `emitData(b)` writes `DATA` and one entry; `RegWrite(R, v)` writes `R` and no other register. -/
def Obligations.PortWritesChangeOneRegister : Prop :=
  (∀ (c : BusCommand) (s : State),
    emit c s = { s with
      regs := (emit c s).regs, cmdLog := s.cmdLog ++ [.command c],
      enabled := (emit c s).enabled, armed := (emit c s).armed, stopPending := (emit c s).stopPending } ∧
    ∀ r, r ≠ .control → PhysRegs.get r (emit c s).regs = PhysRegs.get r s.regs) ∧
  (∀ (b : Byte) (s : State), emitData b s = regWrite .data b { s with cmdLog := s.cmdLog ++ [.data b] }) ∧
  (∀ (r : PhysReg) (v : Byte) (s : State), regWrite r v s = { s with regs := (regWrite r v s).regs } ∧
    PhysRegs.get r (regWrite r v s).regs = v ∧
    ∀ q, q ≠ r → PhysRegs.get q (regWrite r v s).regs = PhysRegs.get q s.regs)

/-! ## Initialisation and configuration (40_init.md) -/

/-- R140: the divisor is the formula's value exactly where it is defined and fits 8 bits. -/
def Obligations.DivisorIsTheFormula : Prop :=
  (∀ (clock : Nat) (f : BitVec 24) (d : Byte),
    divisor clock f = some d ↔
      f.toNat ≠ 0 ∧ 16 ≤ clock / f.toNat ∧ (clock / f.toNat - 16) / 2 ≤ 255 ∧
        d.toNat = (clock / f.toNat - 16) / 2) ∧
  divisor 16000000 100000 = some 72 ∧ divisor 16000000 400000 = some 12

/-- R141: `BEGIN_MASTER f`, step by step, with its failure and its fault, and all of it with no step of another agent
between. -/
def Obligations.BeginMasterConfigures : Prop :=
  ∀ (f : BitVec 24) (s : State),
    (s.kC = .idle → s.initialized = true → exec (.beginMaster f) s = .next (returned (.beginMaster f) 0 s)) ∧
    (s.kC = .idle → s.initialized = false → exec (.beginMaster f) s = .next (caller (.beginMaster f) 2 s)) ∧
    (inStep (.beginMaster f) 2 s → exec (.beginMaster f) s =
      .next (caller (.beginMaster f) 3 { s with role := .master, state := .ready, inRepStart := false })) ∧
    (∀ d, inStep (.beginMaster f) 3 s → divisor s.cfg.fClk f = some d →
      exec (.beginMaster f) s = .next (caller (.beginMaster f) 4 (regWrite .bitrate d s))) ∧
    (inStep (.beginMaster f) 3 s → divisor s.cfg.fClk f = none →
      exec (.beginMaster f) s = .fault (.divisorOutOfRange f s)) ∧
    (inStep (.beginMaster f) 4 s → exec (.beginMaster f) s = .next (caller (.beginMaster f) 5 (emit .enable s))) ∧
    (inStep (.beginMaster f) 5 s →
      exec (.beginMaster f) s = .next (returned (.beginMaster f) 1 { s with initialized := true })) ∧
    (∀ d, s.kC = .idle → s.initialized = false → divisor s.cfg.fClk f = some d →
      runExec 5 (.beginMaster f) s = .next (returned (.beginMaster f) 1
        { emit .enable (regWrite .bitrate d { s with role := .master, state := .ready, inRepStart := false }) with
          initialized := true }))

/-- R143: `BEGIN_SLAVE a`, step by step, with its failure; it has no fault. -/
def Obligations.BeginSlaveConfigures : Prop :=
  ∀ (a : BitVec 7) (s : State),
    (s.kC = .idle → s.initialized = true → exec (.beginSlave a) s = .next (returned (.beginSlave a) 0 s)) ∧
    (s.kC = .idle → s.initialized = false → exec (.beginSlave a) s = .next (caller (.beginSlave a) 2 s)) ∧
    (inStep (.beginSlave a) 2 s → exec (.beginSlave a) s =
      .next (caller (.beginSlave a) 3 { s with role := .slave, state := .ready, inRepStart := false })) ∧
    (inStep (.beginSlave a) 3 s → exec (.beginSlave a) s =
      .next (caller (.beginSlave a) 4 { regWrite .ownAddr (BitVec.ofNat 8 (a.toNat * 2)) s with
        address := some (BitVec.ofNat 8 (a.toNat * 2)) })) ∧
    (inStep (.beginSlave a) 4 s → exec (.beginSlave a) s = .next (caller (.beginSlave a) 5 (emit .enable s))) ∧
    (inStep (.beginSlave a) 5 s →
      exec (.beginSlave a) s = .next (returned (.beginSlave a) 1 { s with initialized := true })) ∧
    (s.kC = .idle → s.initialized = false →
      runExec 5 (.beginSlave a) s = .next (returned (.beginSlave a) 1
        { emit .enable (regWrite .ownAddr (BitVec.ofNat 8 (a.toNat * 2))
            { s with role := .slave, state := .ready, inRepStart := false }) with
          address := some (BitVec.ofNat 8 (a.toNat * 2)), initialized := true }))

/-- R148: after a `begin` that succeeded, a second `begin` returns 0 and changes nothing, whatever transaction is in
progress. -/
def Obligations.SecondBeginFails : Prop :=
  ∀ (f g : BitVec 24) (a b : BitVec 7) (s t : State), s.kC = .idle → s.initialized = false →
    (runExec 5 (.beginMaster f) s = .next t ∨ runExec 5 (.beginSlave a) s = .next t) →
    t.initialized = true ∧
    ∀ u : State, u.kC = .idle → u.initialized = t.initialized →
      exec (.beginMaster g) u = .next (returned (.beginMaster g) 0 u) ∧
      exec (.beginSlave b) u = .next (returned (.beginSlave b) 0 u)

/-- R144: `SET_FREQUENCY f`, step by step, with its failure and its faults. -/
def Obligations.SetFrequencyWritesTheDivisor : Prop :=
  ∀ (f : BitVec 24) (s : State),
    (s.kC = .idle → s.initialized = false →
      exec (.setFrequency f) s = .fault (.useBeforeBegin (headerWord (.setFrequency f)) s)) ∧
    (s.kC = .idle → s.initialized = true → exec (.setFrequency f) s = .next (caller (.setFrequency f) 2 s)) ∧
    (inStep (.setFrequency f) 2 s → s.role = .slave →
      exec (.setFrequency f) s = .next (returned (.setFrequency f) 0 s)) ∧
    (inStep (.setFrequency f) 2 s → s.role = .master →
      exec (.setFrequency f) s = .next (caller (.setFrequency f) 3 s)) ∧
    (∀ d, inStep (.setFrequency f) 3 s → divisor s.cfg.fClk f = some d →
      exec (.setFrequency f) s = .next (returned (.setFrequency f) 1 (regWrite .bitrate d s))) ∧
    (inStep (.setFrequency f) 3 s → divisor s.cfg.fClk f = none →
      exec (.setFrequency f) s = .fault (.divisorOutOfRange f s))

/-- R145, R149: `END`, step by step, with its failure; a second `END` returns 0 and changes nothing. -/
def Obligations.EndTearsDown : Prop :=
  ∀ s : State,
    (s.kC = .idle → s.initialized = false → exec .endBus s = .next (returned .endBus 0 s)) ∧
    (s.kC = .idle → s.initialized = true → exec .endBus s = .next (caller .endBus 2 s)) ∧
    (inStep .endBus 2 s → exec .endBus s = .next (caller .endBus 3 (emit .disable s))) ∧
    (inStep .endBus 3 s → exec .endBus s = .next (caller .endBus 4 (regWrite .ownAddr 0 s))) ∧
    (inStep .endBus 4 s → exec .endBus s = .next (caller .endBus 5 (regWrite .bitrate 0 { s with role := .master }))) ∧
    (inStep .endBus 5 s → exec .endBus s = .next (returned .endBus 1 { s with initialized := false })) ∧
    (s.kC = .idle → s.initialized = true →
      ∃ t, runExec 5 .endBus s = .next t ∧
        t = returned .endBus 1
          { regWrite .bitrate 0 (regWrite .ownAddr 0 (emit .disable s)) with role := .master, initialized := false } ∧
        exec .endBus t = .next (returned .endBus 0 t))

/-- R146, R147: each callback setter is one step that writes its field and returns 0, before `begin` too. -/
def Obligations.SettersRegisterCallbacks : Prop :=
  ∀ (b : Byte) (s : State), s.kC = .idle →
    exec (.setOnReceive b) s = .next (returned (.setOnReceive b) 0 { s with onRx := b }) ∧
    exec (.setOnTransmit b) s = .next (returned (.setOnTransmit b) 0 { s with onTx := b })

/-! ## Master transmit (41_master_transmit.md) -/

/-- R170: `BEGIN_TRANSMISSION a`, step by step, with its guards and its hold. -/
def Obligations.BeginTransmissionTakesTheBus : Prop :=
  ∀ (a : BitVec 7) (s : State),
    (s.kC = .idle → s.initialized = false →
      exec (.beginTransmission a) s = .fault (.useBeforeBegin (headerWord (.beginTransmission a)) s)) ∧
    (s.kC = .idle → s.initialized = true → s.role = .slave →
      exec (.beginTransmission a) s = .next (returned (.beginTransmission a) 0 s)) ∧
    (s.kC = .idle → s.initialized = true → s.role = .master →
      exec (.beginTransmission a) s = .next (caller (.beginTransmission a) 2 s)) ∧
    (inStep (.beginTransmission a) 2 s → s.state ≠ .ready → exec (.beginTransmission a) s = .next s) ∧
    (inStep (.beginTransmission a) 2 s → s.state = .ready →
      exec (.beginTransmission a) s = .next (caller (.beginTransmission a) 3 s)) ∧
    (inStep (.beginTransmission a) 3 s →
      exec (.beginTransmission a) s = .next (caller (.beginTransmission a) 4 { s with state := .masterTransmit })) ∧
    (inStep (.beginTransmission a) 4 s → exec (.beginTransmission a) s =
      .next (caller (.beginTransmission a) 5 { s with address := some (BitVec.ofNat 8 (a.toNat * 2)) })) ∧
    (inStep (.beginTransmission a) 5 s →
      exec (.beginTransmission a) s = .next (caller (.beginTransmission a) 6 { s with index := 0 })) ∧
    (inStep (.beginTransmission a) 6 s →
      exec (.beginTransmission a) s = .next (returned (.beginTransmission a) 1 { s with size := 0 })) ∧
    (s.kC = .idle → s.initialized = true → s.role = .master → s.state = .ready →
      runExec 6 (.beginTransmission a) s = .next (returned (.beginTransmission a) 1
        { s with state := .masterTransmit, address := some (BitVec.ofNat 8 (a.toNat * 2)), index := 0, size := 0 }))

/-- R171: `WRITE b`, step by step: `size` is read once, the byte goes to `Buf[size]`, every other byte stays, and a full
buffer refuses it. -/
def Obligations.WriteAppends : Prop :=
  ∀ (b : Byte) (s : State),
    (s.kC = .idle → s.size.toNat = 32 → exec (.write b) s = .next (returned (.write b) 0 s)) ∧
    (s.kC = .idle → s.size.toNat ≠ 32 →
      exec (.write b) s = .next { s with kC := .running (.write b) { step := 2, n := s.size } }) ∧
    (∀ n : Byte, s.kC = .running (.write b) { step := 2, n := n } → n.toNat < 32 →
      exec (.write b) s = .next { s with buf := Memory.write s.buf n.toNat b,
                                         kC := .running (.write b) { step := 3, n := n } }) ∧
    (∀ n : Byte, s.kC = .running (.write b) { step := 2, n := n } → 32 ≤ n.toNat →
      exec (.write b) s = .fault (.bufferOverrun n.toNat (.write b) s)) ∧
    (∀ n : Byte, s.kC = .running (.write b) { step := 3, n := n } →
      exec (.write b) s = .next (returned (.write b) 1 { s with size := n + 1 })) ∧
    (s.kC = .idle → s.size.toNat < 32 →
      ∃ t, runExec 3 (.write b) s = .next t ∧
        t = returned (.write b) 1 { s with buf := Memory.write s.buf s.size.toNat b, size := s.size + 1 } ∧
        t.size.toNat = s.size.toNat + 1 ∧
        Memory.read t.buf s.size.toNat = some b ∧
        ∀ pos, pos ≠ s.size.toNat → Memory.read t.buf pos = Memory.read s.buf pos)

/-- R172: `WRITE_BLOCK`, step by step: its entry, the three steps of R171 for byte `k` (numbered 21 to 23; `size` is read
anew for each byte) and its `return count`; a full buffer ends it with the number of bytes written. That the loop control
takes no step of its own is notes/assumptions/13.md. Then all of it with no step of another agent between: it writes as
many bytes as fit, in order, from `Buf[size]` on, changes no other byte, and answers how many. -/
def Obligations.WriteBlockWritesWhatFits : Prop :=
  ∀ (bytes : List Byte) (s : State), bytes.length ≤ 255 →
    (s.kC = .idle → bytes = [] → exec (.writeBlock bytes) s = .next (caller (.writeBlock bytes) 3 s)) ∧
    (s.kC = .idle → bytes ≠ [] → exec (.writeBlock bytes) s = .next (caller (.writeBlock bytes) 21 s)) ∧
    (∀ k, k < bytes.length → s.kC = .running (.writeBlock bytes) { step := 21, k := k } →
      (s.size.toNat = 32 → exec (.writeBlock bytes) s = .next (returned (.writeBlock bytes) (BitVec.ofNat 8 k) s)) ∧
      (s.size.toNat ≠ 32 → exec (.writeBlock bytes) s =
        .next { s with kC := .running (.writeBlock bytes) { step := 22, n := s.size, k := k } })) ∧
    (∀ (k : Nat) (b n : Byte), bytes[k]? = some b →
      s.kC = .running (.writeBlock bytes) { step := 22, n := n, k := k } →
      (n.toNat < 32 → exec (.writeBlock bytes) s =
        .next { s with buf := Memory.write s.buf n.toNat b,
                       kC := .running (.writeBlock bytes) { step := 23, n := n, k := k } }) ∧
      (32 ≤ n.toNat → exec (.writeBlock bytes) s = .fault (.bufferOverrun n.toNat (.writeBlock bytes) s))) ∧
    (∀ (k : Nat) (n : Byte), s.kC = .running (.writeBlock bytes) { step := 23, n := n, k := k } →
      (k + 1 < bytes.length → exec (.writeBlock bytes) s =
        .next { s with size := n + 1, kC := .running (.writeBlock bytes) { step := 21, k := k + 1 } }) ∧
      (k + 1 = bytes.length → exec (.writeBlock bytes) s =
        .next (caller (.writeBlock bytes) 3 { s with size := n + 1 }))) ∧
    (inStep (.writeBlock bytes) 3 s →
      ∃ v : Byte, v.toNat = bytes.length ∧ exec (.writeBlock bytes) s = .next (returned (.writeBlock bytes) v s)) ∧
    (s.kC = .idle → s.size.toNat ≤ 32 →
      ∃ t, runExec (3 * min bytes.length (32 - s.size.toNat) + 2) (.writeBlock bytes) s = .next t ∧
        t = returned (.writeBlock bytes) (BitVec.ofNat 8 (min bytes.length (32 - s.size.toNat)))
          { s with buf := t.buf, size := t.size } ∧
        t.size.toNat = s.size.toNat + min bytes.length (32 - s.size.toNat) ∧
        (∀ k, k < min bytes.length (32 - s.size.toNat) → Memory.read t.buf (s.size.toNat + k) = bytes[k]?) ∧
        ∀ pos, pos < s.size.toNat ∨ s.size.toNat + min bytes.length (32 - s.size.toNat) ≤ pos →
          Memory.read t.buf pos = Memory.read s.buf pos)

/-- R173, with R284 at its step 4: `END_TRANSMISSION b`, step by step: the guards, `sendStop`, `status`, the address
issued with or without a START, the hold on `MasterTransmit`, and the response. -/
def Obligations.EndTransmissionReturnsTheStatus : Prop :=
  ∀ (b : Bool) (s : State),
    (s.kC = .idle → s.initialized = false →
      exec (.endTransmission b) s = .fault (.useBeforeBegin (headerWord (.endTransmission b)) s)) ∧
    (s.kC = .idle → s.initialized = true → s.role = .slave →
      exec (.endTransmission b) s = .next (returned (.endTransmission b) 255 s)) ∧
    (s.kC = .idle → s.initialized = true → s.role = .master →
      exec (.endTransmission b) s = .next (caller (.endTransmission b) 2 s)) ∧
    (inStep (.endTransmission b) 2 s →
      exec (.endTransmission b) s = .next (caller (.endTransmission b) 3 { s with sendStop := some b })) ∧
    (inStep (.endTransmission b) 3 s →
      exec (.endTransmission b) s = .next (caller (.endTransmission b) 4 { s with status := some .success })) ∧
    (inStep (.endTransmission b) 4 s → s.inRepStart = false →
      exec (.endTransmission b) s = .next (caller (.endTransmission b) 5 (emit .start s))) ∧
    (∀ a, inStep (.endTransmission b) 4 s → s.inRepStart = true → s.address = some a →
      exec (.endTransmission b) s =
        .next (caller (.endTransmission b) 5 (emit .ack (emitData a { s with inRepStart := false })))) ∧
    (inStep (.endTransmission b) 4 s → s.inRepStart = true → s.address = none →
      exec (.endTransmission b) s = .fault (.unwrittenField .address { s with inRepStart := false })) ∧
    (inStep (.endTransmission b) 5 s → s.state = .masterTransmit → exec (.endTransmission b) s = .next s) ∧
    (inStep (.endTransmission b) 5 s → s.state ≠ .masterTransmit →
      exec (.endTransmission b) s = .next (caller (.endTransmission b) 6 s)) ∧
    (inStep (.endTransmission b) 6 s →
      (s.status = some .success → exec (.endTransmission b) s = .next (returned (.endTransmission b) 0 s)) ∧
      (s.status = some .addressNack → exec (.endTransmission b) s = .next (returned (.endTransmission b) 2 s)) ∧
      (s.status = some .dataNack → exec (.endTransmission b) s = .next (returned (.endTransmission b) 3 s)) ∧
      (s.status = some .otherError → exec (.endTransmission b) s = .next (returned (.endTransmission b) 4 s)) ∧
      (s.status = none → exec (.endTransmission b) s = .fault (.unwrittenField .status s)))

/-! ## Master receive and buffer reads (42_master_receive.md) -/

/-- R200, R201, with R284 at step 8: `REQUEST_FROM a, q, b`, step by step: the guards, the two holds, the address issued,
and the clamp `min(q, index)`, which is the response. -/
def Obligations.RequestFromReceives : Prop :=
  ∀ (a : BitVec 7) (q : Byte) (b : Bool) (s : State),
    (s.kC = .idle → s.initialized = false →
      exec (.requestFrom a q b) s = .fault (.useBeforeBegin (headerWord (.requestFrom a q b)) s)) ∧
    (s.kC = .idle → s.initialized = true → s.role = .slave →
      exec (.requestFrom a q b) s = .next (returned (.requestFrom a q b) 255 s)) ∧
    (s.kC = .idle → s.initialized = true → s.role = .master → 32 < q.toNat →
      exec (.requestFrom a q b) s = .next (returned (.requestFrom a q b) 255 s)) ∧
    (s.kC = .idle → s.initialized = true → s.role = .master → q = 0 →
      exec (.requestFrom a q b) s = .fault (.zeroQuantity (headerWord (.requestFrom a q b)) s)) ∧
    (s.kC = .idle → s.initialized = true → s.role = .master → 1 ≤ q.toNat → q.toNat ≤ 32 →
      exec (.requestFrom a q b) s = .next (caller (.requestFrom a q b) 2 s)) ∧
    (inStep (.requestFrom a q b) 2 s → s.state ≠ .ready → exec (.requestFrom a q b) s = .next s) ∧
    (inStep (.requestFrom a q b) 2 s → s.state = .ready →
      exec (.requestFrom a q b) s = .next (caller (.requestFrom a q b) 3 s)) ∧
    (inStep (.requestFrom a q b) 3 s →
      exec (.requestFrom a q b) s = .next (caller (.requestFrom a q b) 4 { s with state := .masterReceive })) ∧
    (inStep (.requestFrom a q b) 4 s →
      exec (.requestFrom a q b) s = .next (caller (.requestFrom a q b) 5 { s with sendStop := some b })) ∧
    (inStep (.requestFrom a q b) 5 s →
      exec (.requestFrom a q b) s = .next (caller (.requestFrom a q b) 6 { s with index := 0 })) ∧
    (inStep (.requestFrom a q b) 6 s →
      exec (.requestFrom a q b) s = .next (caller (.requestFrom a q b) 7 { s with size := q - 1 })) ∧
    (inStep (.requestFrom a q b) 7 s → exec (.requestFrom a q b) s =
      .next (caller (.requestFrom a q b) 8 { s with address := some (BitVec.ofNat 8 (a.toNat * 2 + 1)) })) ∧
    (inStep (.requestFrom a q b) 8 s → s.inRepStart = false →
      exec (.requestFrom a q b) s = .next (caller (.requestFrom a q b) 9 (emit .start s))) ∧
    (∀ x, inStep (.requestFrom a q b) 8 s → s.inRepStart = true → s.address = some x →
      exec (.requestFrom a q b) s =
        .next (caller (.requestFrom a q b) 9 (emit .ack (emitData x { s with inRepStart := false })))) ∧
    (inStep (.requestFrom a q b) 8 s → s.inRepStart = true → s.address = none →
      exec (.requestFrom a q b) s = .fault (.unwrittenField .address { s with inRepStart := false })) ∧
    (inStep (.requestFrom a q b) 9 s → s.state = .masterReceive → exec (.requestFrom a q b) s = .next s) ∧
    (inStep (.requestFrom a q b) 9 s → s.state ≠ .masterReceive →
      exec (.requestFrom a q b) s = .next (caller (.requestFrom a q b) 10 s)) ∧
    (inStep (.requestFrom a q b) 10 s →
      ∃ n : Byte, n.toNat = min q.toNat s.index.toNat ∧
        exec (.requestFrom a q b) s =
          .next { s with size := n, kC := .running (.requestFrom a q b) { step := 11, n := n } }) ∧
    (∀ n : Byte, s.kC = .running (.requestFrom a q b) { step := 11, n := n } →
      exec (.requestFrom a q b) s = .next (returned (.requestFrom a q b) n { s with index := 0 }))

/-- R202: `AVAILABLE`: `size` is read first, then `index`; the response is their difference. That the fault records the
`size` read at step 1 is the model's choice (notes/assumptions/19.md). -/
def Obligations.AvailableCountsUnreadBytes : Prop :=
  ∀ (n : Byte) (s : State),
    (s.kC = .idle → exec .available s = .next { s with kC := .running .available { step := 2, n := s.size } }) ∧
    (s.kC = .running .available { step := 2, n := n } → s.index.toNat ≤ n.toNat →
      ∃ v : Byte, v.toNat = n.toNat - s.index.toNat ∧ exec .available s = .next (returned .available v s)) ∧
    (s.kC = .running .available { step := 2, n := n } → n.toNat < s.index.toNat →
      exec .available s = .fault (.cursorUnderflow s.index n s))

/-- R203: `READ`, step by step: `index` is read first, then `size`; an empty buffer answers 0, an unwritten cell faults;
then all of it with no step of another agent between. -/
def Obligations.ReadTakesTheNextByte : Prop :=
  ∀ s : State,
    (s.kC = .idle → exec .read s = .next { s with kC := .running .read { step := 2, i := s.index } }) ∧
    (∀ i : Byte, s.kC = .running .read { step := 2, i := i } → s.size.toNat ≤ i.toNat →
      exec .read s = .next (returned .read 0 s)) ∧
    (∀ i : Byte, s.kC = .running .read { step := 2, i := i } → i.toNat < s.size.toNat →
      exec .read s = .next { s with kC := .running .read { step := 3, i := i } }) ∧
    (∀ i v : Byte, s.kC = .running .read { step := 3, i := i } → i.toNat < 32 → Memory.read s.buf i.toNat = some v →
      exec .read s = .next { s with kC := .running .read { step := 4, i := i, v := v } }) ∧
    (∀ i : Byte, s.kC = .running .read { step := 3, i := i } → i.toNat < 32 → Memory.read s.buf i.toNat = none →
      exec .read s = .fault (.unwrittenByte i.toNat s)) ∧
    (∀ i : Byte, s.kC = .running .read { step := 3, i := i } → 32 ≤ i.toNat →
      exec .read s = .fault (.bufferOverrun i.toNat .read s)) ∧
    (∀ i v : Byte, s.kC = .running .read { step := 4, i := i, v := v } →
      exec .read s = .next (returned .read v { s with index := i + 1 })) ∧
    (∀ v, s.kC = .idle → s.index.toNat < s.size.toNat → s.index.toNat < 32 →
      Memory.read s.buf s.index.toNat = some v →
      runExec 4 .read s = .next (returned .read v { s with index := s.index + 1 }))

/-- L1-1, R203: `READ`s return the buffer's bytes in order. -/
def Obligations.ReadsReturnTheBytesInOrder : Prop :=
  ∀ (bytes : List Byte) (s : State), s.kC = .idle → s.size.toNat ≤ 32 →
    s.index.toNat + bytes.length ≤ s.size.toNat →
    (∀ k, k < bytes.length → Memory.read s.buf (s.index.toNat + k) = bytes[k]?) →
    ∃ t, runExec (4 * bytes.length) .read s = .next t ∧
      t.index.toNat = s.index.toNat + bytes.length ∧
      t = { s with index := t.index, reqLog := s.reqLog ++ bytes.map fun v => ⟨.read, v⟩ }

/-- R102: a payload word taken as a request of its own is an illegal request. -/
def Obligations.StrayPayloadFaults : Prop :=
  ∀ (b : Byte) (s : State), s.kC = .idle →
    exec (.writeBlockPayload b) s = .fault (.illegalRequest (payloadWord b) s)

/-! ## The event handler: master classes (43_event_handler.md) -/

/-- R232: START and repeated START send `address`. -/
def Obligations.StartSendsTheAddress : Prop :=
  ∀ (low : BitVec 3) (din : Byte) (i : Instr) (s : State), i = .evtStart low din ∨ i = .evtRepStart low din →
    s.kH = .idle →
    (∀ a, s.address = some a → exec i s = .next (emit .ack (emitData a s))) ∧
    (s.address = none → exec i s = .fault (.unwrittenField .address s))

/-- R233: an acknowledged address or byte of a master transmit: the next byte with ACK while one remains, else the STOP
or the repeated START; no byte of the buffer changes. -/
def Obligations.MasterTransmitAckSendsOrFinishes : Prop :=
  ∀ (low : BitVec 3) (din : Byte) (i : Instr) (s : State), i = .evtMtSlaAck low din ∨ i = .evtMtDataAck low din →
    s.kH = .idle →
    (∀ v, s.index.toNat < s.size.toNat → s.index.toNat < 32 → Memory.read s.buf s.index.toNat = some v →
      exec i s = .next { emit .ack (emitData v s) with index := s.index + 1 }) ∧
    (s.index.toNat < s.size.toNat → s.index.toNat < 32 → Memory.read s.buf s.index.toNat = none →
      exec i s = .fault (.unwrittenByte s.index.toNat s)) ∧
    (s.index.toNat < s.size.toNat → 32 ≤ s.index.toNat → exec i s = .fault (.bufferOverrun s.index.toNat i s)) ∧
    (s.size.toNat ≤ s.index.toNat → s.sendStop = some true →
      exec i s = .next { emit .stop s with kH := .stopWait i }) ∧
    (s.size.toNat ≤ s.index.toNat → s.sendStop = some false →
      exec i s = .next { emit .armRepStart s with inRepStart := true, state := .ready }) ∧
    (s.size.toNat ≤ s.index.toNat → s.sendStop = none → exec i s = .fault (.unwrittenField .sendStop s))

/-- R234, R235, R240, R248: each of these classes records its outcome, if it has one, issues a STOP whatever `sendStop`
holds, and once the STOP is done sets `state` to `Ready`. -/
def Obligations.AbortingClassesIssueStop : Prop :=
  ∀ (low : BitVec 3) (din : Byte) (s : State),
    (s.kH = .idle →
      exec (.evtMtSlaNack low din) s =
        .next { emit .stop s with status := some .addressNack, kH := .stopWait (.evtMtSlaNack low din) } ∧
      exec (.evtMtDataNack low din) s =
        .next { emit .stop s with status := some .dataNack, kH := .stopWait (.evtMtDataNack low din) } ∧
      exec (.evtBusError low din) s =
        .next { emit .stop s with status := some .otherError, kH := .stopWait (.evtBusError low din) } ∧
      exec (.evtMrSlaNack low din) s = .next { emit .stop s with kH := .stopWait (.evtMrSlaNack low din) }) ∧
    (∀ i, i = .evtMtSlaNack low din ∨ i = .evtMtDataNack low din ∨ i = .evtBusError low din ∨
        i = .evtMrSlaNack low din → s.kH = .stopWait i →
      (s.stopPending = true → exec i s = .next s) ∧
      (s.stopPending = false → exec i s = .next { s with state := .ready, kH := .idle }))

/-- 44_bus_primitives.md R282: the handler holds until `stopPending` is false; then `state` is `Ready` and, for every
class but `SR_STOP`, the action is at its end. -/
def Obligations.StopHoldsUntilDone : Prop :=
  ∀ (i : Instr) (s : State), stops i = true → s.kH = .stopWait i →
    (s.stopPending = true → exec i s = .next s) ∧
    ((∀ low din, i ≠ .evtSrStop low din) → s.stopPending = false →
      exec i s = .next { s with state := .ready, kH := .idle })

/-- R236: arbitration lost releases the bus without a STOP. -/
def Obligations.ArbitrationLostReleasesTheBus : Prop :=
  ∀ (low : BitVec 3) (din : Byte) (s : State), s.kH = .idle →
    exec (.evtArbLost low din) s = .next { emit .ack s with status := some .otherError, state := .ready }

/-- R237, R238: the ACK bit of the next byte is decided by `index < size` after any store, and a received byte
goes to `Buf[index]` and nowhere else. -/
def Obligations.MasterReceiveDecidesTheNextAck : Prop :=
  ∀ (low : BitVec 3) (din : Byte) (s : State), s.kH = .idle →
    exec (.evtMrSlaAck low din) s = .next (emit (if s.index.toNat < s.size.toNat then .ack else .nack) s) ∧
    (s.index.toNat < 32 →
      ∃ t, exec (.evtMrDataAck low din) s = .next t ∧
        t = { emit (if s.index.toNat + 1 < s.size.toNat then .ack else .nack) s with
              buf := Memory.write s.buf s.index.toNat din, index := s.index + 1 } ∧
        Memory.read t.buf s.index.toNat = some din ∧
        ∀ pos, pos ≠ s.index.toNat → Memory.read t.buf pos = Memory.read s.buf pos) ∧
    (32 ≤ s.index.toNat →
      exec (.evtMrDataAck low din) s = .fault (.bufferOverrun s.index.toNat (.evtMrDataAck low din) s))

/-- R239: the last byte of a master receive is stored at `Buf[index]` and nowhere else, and the transaction is
finished. -/
def Obligations.MasterReceiveLastByteFinishes : Prop :=
  ∀ (low : BitVec 3) (din : Byte) (s : State), s.kH = .idle →
    (s.index.toNat < 32 → s.sendStop = some true →
      exec (.evtMrDataNack low din) s =
        .next { emit .stop s with buf := Memory.write s.buf s.index.toNat din, index := s.index + 1,
                                  kH := .stopWait (.evtMrDataNack low din) }) ∧
    (s.index.toNat < 32 → s.sendStop = some false →
      exec (.evtMrDataNack low din) s =
        .next { emit .armRepStart s with buf := Memory.write s.buf s.index.toNat din, index := s.index + 1,
                                         inRepStart := true, state := .ready }) ∧
    (s.index.toNat < 32 → s.sendStop = none →
      exec (.evtMrDataNack low din) s = .fault (.unwrittenField .sendStop
        { s with buf := Memory.write s.buf s.index.toNat din, index := s.index + 1 })) ∧
    (32 ≤ s.index.toNat →
      exec (.evtMrDataNack low din) s = .fault (.bufferOverrun s.index.toNat (.evtMrDataNack low din) s)) ∧
    (s.index.toNat < 32 → Memory.read (Memory.write s.buf s.index.toNat din) s.index.toNat = some din ∧
      ∀ pos, pos ≠ s.index.toNat →
        Memory.read (Memory.write s.buf s.index.toNat din) pos = Memory.read s.buf pos)

/-! ## The event handler: slave classes -/

/-- R241: addressed as a slave receiver; `size` is not reset. -/
def Obligations.SlaveReceiveStarts : Prop :=
  ∀ (low : BitVec 3) (din : Byte) (i : Instr) (s : State),
    i = .evtSrSlaAck low din ∨ i = .evtSrArbLostSlaAck low din ∨ i = .evtSrGcallAck low din ∨
      i = .evtSrArbLostGcallAck low din →
    s.kH = .idle → exec i s = .next { emit .ack s with state := .slaveReceive, index := 0 }

/-- R242, R243: a byte of a slave receive is stored at `Buf[index]` with ACK while the buffer has room, else dropped
with NACK; a byte after NACK is dropped. -/
def Obligations.SlaveReceiveStoresOrNacks : Prop :=
  ∀ (low : BitVec 3) (din : Byte) (i : Instr) (s : State), s.kH = .idle →
    (i = .evtSrDataAck low din ∨ i = .evtSrGcallDataAck low din →
      (s.index.toNat < 32 →
        ∃ t, exec i s = .next t ∧
          t = { emit .ack s with buf := Memory.write s.buf s.index.toNat din, index := s.index + 1 } ∧
          Memory.read t.buf s.index.toNat = some din ∧
          ∀ pos, pos ≠ s.index.toNat → Memory.read t.buf pos = Memory.read s.buf pos) ∧
      (32 ≤ s.index.toNat → exec i s = .next (emit .nack s))) ∧
    (i = .evtSrDataNack low din ∨ i = .evtSrGcallDataNack low din → exec i s = .next (emit .nack s))

/-- R244: `SR_STOP`: the STOP and its hold, then `size` frozen at `index`, `index` reset, the receive callback with the
byte count (none where `onRx` is 0), and the bus released; a fault of the callback's body is the fault of the action. -/
def Obligations.SlaveReceiveStopFreezesTheSize : Prop :=
  ∀ (low : BitVec 3) (din : Byte) (s : State),
    (s.kH = .idle → exec (.evtSrStop low din) s = .next { emit .stop s with kH := .stopWait (.evtSrStop low din) }) ∧
    (s.kH = .stopWait (.evtSrStop low din) → s.stopPending = true → exec (.evtSrStop low din) s = .next s) ∧
    (s.kH = .stopWait (.evtSrStop low din) → s.stopPending = false → s.onRx = 0 →
      exec (.evtSrStop low din) s =
        .next { emit .ack s with state := .ready, size := s.index, index := 0, kH := .idle }) ∧
    (∀ r, s.kH = .stopWait (.evtSrStop low din) → s.stopPending = false → s.onRx ≠ 0 →
      runBody (bodyOf s.onRx s.cfg.callbackBody).length (bodyOf s.onRx s.cfg.callbackBody)
        { s with state := .ready, size := s.index, index := 0, cbLog := s.cbLog ++ [⟨s.onRx, some s.index⟩] } = r →
      (∀ t, r = .next t → exec (.evtSrStop low din) s = .next { emit .ack t with state := .ready, kH := .idle }) ∧
      (∀ f, r = .fault f → exec (.evtSrStop low din) s = .fault f))

/-- R245: addressed as a slave transmitter: with no callback, or with one that leaves the buffer empty, the filler byte
is sent with NACK; with a callback that supplied bytes, the next of them is sent; a fault of the callback's body is the
fault of the action. -/
def Obligations.SlaveTransmitSendsTheFirstByte : Prop :=
  ∀ (low : BitVec 3) (din : Byte) (i : Instr) (s : State), i = .evtStSlaAck low din ∨ i = .evtStArbLostSlaAck low din →
    s.kH = .idle →
    (s.onTx = 0 →
      exec i s = .next { emit .nack (emitData 0xFF s) with
        state := .slaveTransmit, buf := Memory.write s.buf 0 0xFF, size := 1, index := 1 }) ∧
    (∀ r, s.onTx ≠ 0 →
      runBody (bodyOf s.onTx s.cfg.callbackBody).length (bodyOf s.onTx s.cfg.callbackBody)
        { s with state := .slaveTransmit, index := 0, size := 0, cbLog := s.cbLog ++ [⟨s.onTx, none⟩] } = r →
      (∀ f, r = .fault f → exec i s = .fault f) ∧
      (∀ t, r = .next t → t.size = 0 → t.index = 0 →
        exec i s = .next { emit .nack (emitData 0xFF t) with buf := Memory.write t.buf 0 0xFF, size := 1, index := 1 }) ∧
      (∀ t v, r = .next t → t.size ≠ 0 → t.index.toNat < t.size.toNat → t.index.toNat < 32 →
        Memory.read t.buf t.index.toNat = some v →
        exec i s = .next { emit (if t.index.toNat + 1 < t.size.toNat then .ack else .nack) (emitData v t) with
                           index := t.index + 1 }) ∧
      (∀ t, r = .next t → t.size ≠ 0 → t.size.toNat ≤ t.index.toNat →
        exec i s = .fault (.txUnderrun t.index t.size t)))

/-- R246: the next byte of a slave transmit, the last one marked with NACK; past it, `Fault(TxUnderrun)`; the faults of
the read of the buffer are those of R286. -/
def Obligations.SlaveTransmitMarksTheLastByte : Prop :=
  ∀ (low : BitVec 3) (din : Byte) (s : State), s.kH = .idle →
    (∀ v, s.index.toNat < s.size.toNat → s.index.toNat < 32 → Memory.read s.buf s.index.toNat = some v →
      exec (.evtStDataAck low din) s =
        .next { emit (if s.index.toNat + 1 < s.size.toNat then .ack else .nack) (emitData v s) with
                index := s.index + 1 }) ∧
    (s.size.toNat ≤ s.index.toNat → exec (.evtStDataAck low din) s = .fault (.txUnderrun s.index s.size s)) ∧
    (s.index.toNat < s.size.toNat → s.index.toNat < 32 → Memory.read s.buf s.index.toNat = none →
      exec (.evtStDataAck low din) s = .fault (.unwrittenByte s.index.toNat s)) ∧
    (s.index.toNat < s.size.toNat → 32 ≤ s.index.toNat →
      exec (.evtStDataAck low din) s = .fault (.bufferOverrun s.index.toNat (.evtStDataAck low din) s))

/-- R247: the end of a slave transmit releases the bus. -/
def Obligations.SlaveTransmitEndReleasesTheBus : Prop :=
  ∀ (low : BitVec 3) (din : Byte) (i : Instr) (s : State), i = .evtStDataNack low din ∨ i = .evtStLastData low din →
    s.kH = .idle → exec i s = .next { emit .ack s with state := .ready }

/-- R249, R250: `NO_INFO` changes nothing; a code with no class raises `Fault(UnknownStatus)`. -/
def Obligations.NoInfoAndUnknownCodes : Prop :=
  ∀ (low : BitVec 3) (din : Byte) (s : State), s.kH = .idle →
    exec (.evtNoInfo low din) s = .next s ∧
    exec (.evtUnknownD0 low din) s = .fault (.unknownStatus (BitVec.ofNat 8 (0xD0 + low.toNat)) s) ∧
    exec (.evtUnknownD8 low din) s = .fault (.unknownStatus (BitVec.ofNat 8 (0xD8 + low.toNat)) s) ∧
    exec (.evtUnknownE0 low din) s = .fault (.unknownStatus (BitVec.ofNat 8 (0xE0 + low.toNat)) s) ∧
    exec (.evtUnknownE8 low din) s = .fault (.unknownStatus (BitVec.ofNat 8 (0xE8 + low.toNat)) s) ∧
    exec (.evtUnknownF0 low din) s = .fault (.unknownStatus (BitVec.ofNat 8 (0xF0 + low.toNat)) s)

/-! ## Callback bodies -/

/-- 44_bus_primitives.md R289: a request outside the permitted set faults when the body reaches it. -/
def Obligations.ForbiddenRequestsFaultInCallbacks : Prop :=
  ∀ (i : Instr) (more : List Word) (n : Nat) (s : State),
    ((∃ f, i = .beginMaster f) ∨ (∃ a, i = .beginSlave a) ∨ (∃ f, i = .setFrequency f) ∨ i = .endBus ∨
      (∃ a, i = .beginTransmission a) ∨ (∃ b, i = .endTransmission b) ∨ (∃ a q b, i = .requestFrom a q b)) →
    runBody (n + 1) (headerWord i :: more) s = .fault (.forbiddenInCallback (headerWord i) s)

/-- R288, R289: a permitted request of one word runs all its steps inside the handler's step, and its response goes to
the body: the caller's `k_C` and the request log stay. Its fault is the fault of the body. -/
def Obligations.CallbackRequestsRunWhole : Prop :=
  ∀ (b : Byte) (more : List Word) (n : Nat) (s : State),
    (runBody (n + 1) (headerWord (.setOnReceive b) :: more) s =
      runBody n more { s with onRx := b, bodyLog := s.bodyLog ++ [⟨.setOnReceive b, 0⟩] }) ∧
    (runBody (n + 1) (headerWord (.setOnTransmit b) :: more) s =
      runBody n more { s with onTx := b, bodyLog := s.bodyLog ++ [⟨.setOnTransmit b, 0⟩] }) ∧
    (s.size.toNat < 32 → runBody (n + 1) (headerWord (.write b) :: more) s =
      runBody n more { s with buf := Memory.write s.buf s.size.toNat b, size := s.size + 1,
                              bodyLog := s.bodyLog ++ [⟨.write b, 1⟩] }) ∧
    (s.size.toNat = 32 → runBody (n + 1) (headerWord (.write b) :: more) s =
      runBody n more { s with bodyLog := s.bodyLog ++ [⟨.write b, 0⟩] }) ∧
    (32 < s.size.toNat → runBody (n + 1) (headerWord (.write b) :: more) s =
      .fault (.bufferOverrun s.size.toNat (.write b) s)) ∧
    (∀ v : Byte, s.index.toNat + v.toNat = s.size.toNat → runBody (n + 1) (headerWord .available :: more) s =
      runBody n more { s with bodyLog := s.bodyLog ++ [⟨.available, v⟩] }) ∧
    (s.size.toNat < s.index.toNat → runBody (n + 1) (headerWord .available :: more) s =
      .fault (.cursorUnderflow s.index s.size s)) ∧
    (∀ v, s.index.toNat < s.size.toNat → s.index.toNat < 32 → Memory.read s.buf s.index.toNat = some v →
      runBody (n + 1) (headerWord .read :: more) s =
        runBody n more { s with index := s.index + 1, bodyLog := s.bodyLog ++ [⟨.read, v⟩] }) ∧
    (s.size.toNat ≤ s.index.toNat → runBody (n + 1) (headerWord .read :: more) s =
      runBody n more { s with bodyLog := s.bodyLog ++ [⟨.read, 0⟩] }) ∧
    (s.index.toNat < s.size.toNat → s.index.toNat < 32 → Memory.read s.buf s.index.toNat = none →
      runBody (n + 1) (headerWord .read :: more) s = .fault (.unwrittenByte s.index.toNat s)) ∧
    (s.index.toNat < s.size.toNat → 32 ≤ s.index.toNat →
      runBody (n + 1) (headerWord .read :: more) s = .fault (.bufferOverrun s.index.toNat .read s))

/-! ## Rules over all instructions -/

/-- R231: no handler rule reads `state` or `role`: two states that differ in these two fields only give the same outcome
up to them. -/
def Obligations.HandlerReadsNeitherStateNorRole : Prop :=
  ∀ (i : Instr) (s : State) (r : BusRole) (x : TransactionState), i.isEvent = true →
    mapResult eraseDispatch (exec i { s with role := r, state := x }) = mapResult eraseDispatch (exec i s)

/-- R313, R43: a handler action saves nothing of the caller and writes no field the table gives the caller alone. -/
def Obligations.HandlerLeavesTheCallerAlone : Prop :=
  ∀ (i : Instr) (s t : State), i.isEvent = true → exec i s = .next t →
    t.kC = s.kC ∧ t.reqLog = s.reqLog ∧ t.requests = s.requests ∧ t.role = s.role ∧ t.initialized = s.initialized ∧
    t.address = s.address ∧ t.sendStop = s.sendStop ∧ t.enabled = s.enabled ∧ t.pending = s.pending ∧
    t.regs.bitrate = s.regs.bitrate ∧ t.regs.ownAddr = s.regs.ownAddr ∧ t.regs.status = s.regs.status ∧
    t.regs.addrMask = s.regs.addrMask

/-- A request leaves alone what only the handler and the bus engine write: `k_H`, `pending`, `stopPending`, the callback
log, and the registers `STATUS` and `ADDRMASK` (R43, R46, R50, R51, R52). -/
def Obligations.RequestsLeaveTheHandlerAlone : Prop :=
  ∀ (i : Instr) (s t : State), i.isEvent = false → exec i s = .next t →
    t.kH = s.kH ∧ t.pending = s.pending ∧ t.stopPending = s.stopPending ∧ t.cbLog = s.cbLog ∧
    t.bodyLog = s.bodyLog ∧ t.regs.status = s.regs.status ∧ t.regs.addrMask = s.regs.addrMask ∧
    t.requests = s.requests

/-- R31, R40, R47: `role`, `initialized` and `OWNADDR` are written by `BEGIN_MASTER`, `BEGIN_SLAVE` and `END` alone. -/
def Obligations.OnlyBeginAndEndWriteTheRole : Prop :=
  ∀ (i : Instr) (s t : State), exec i s = .next t →
    (∀ f, i ≠ .beginMaster f) → (∀ a, i ≠ .beginSlave a) → i ≠ .endBus →
    t.role = s.role ∧ t.initialized = s.initialized ∧ t.enabled = s.enabled ∧ t.regs.ownAddr = s.regs.ownAddr

/-- R303: the writers of `status`, and what each writes. -/
def Obligations.StatusHasFiveWriters : Prop :=
  ∀ (i : Instr) (s t : State), exec i s = .next t → t.status ≠ s.status →
    ((∃ b, i = .endTransmission b) ∧ t.status = some .success) ∨
    (∃ low din, i = .evtMtSlaNack low din ∧ t.status = some .addressNack) ∨
    (∃ low din, i = .evtMtDataNack low din ∧ t.status = some .dataNack) ∨
    (∃ low din, (i = .evtArbLost low din ∨ i = .evtBusError low din) ∧ t.status = some .otherError)

/-! ## Whole transactions -/

/-- 20_memory.md R85: in a master transmit the bytes go out in buffer order. Each acknowledged byte makes the handler
send the next one. -/
def Obligations.MasterTransmitSendsInOrder : Prop :=
  ∀ (bytes : List Byte) (events : List Instr) (s : State), s.kH = .idle → s.size.toNat ≤ 32 →
    s.index.toNat + bytes.length ≤ s.size.toNat →
    (∀ k, k < bytes.length → Memory.read s.buf (s.index.toNat + k) = bytes[k]?) →
    events.length = bytes.length →
    (∀ i ∈ events, ∃ low din, i = .evtMtSlaAck low din ∨ i = .evtMtDataAck low din) →
    ∃ t, runEvents events s = .next t ∧
      t.cmdLog = s.cmdLog ++ bytes.flatMap (fun v => [.data v, .command .ack]) ∧
      t.index.toNat = s.index.toNat + bytes.length ∧ t.size = s.size ∧ t.buf = s.buf ∧ t.state = s.state ∧
      t.kH = .idle

/-- R204, R251, R85: a master receive of `q` bytes stores the first `q - 1` at increasing positions in arrival order and
answers ACK for each of them but the last of these, whose answer is NACK and applies to the byte after it. -/
def Obligations.MasterReceiveStoresInOrder : Prop :=
  ∀ (bytes : List Byte) (low : BitVec 3) (s : State), s.kH = .idle → s.index = 0 → s.size.toNat = bytes.length →
    1 ≤ bytes.length → bytes.length ≤ 31 →
    ∃ t, runEvents (bytes.map fun v => .evtMrDataAck low v) s = .next t ∧
      t.index.toNat = bytes.length ∧ t.size = s.size ∧ t.state = s.state ∧ t.kH = .idle ∧
      (∀ k, k < bytes.length → Memory.read t.buf k = bytes[k]?) ∧
      (∀ pos, bytes.length ≤ pos → Memory.read t.buf pos = Memory.read s.buf pos) ∧
      t.cmdLog = s.cmdLog ++ List.replicate (bytes.length - 1) (.command .ack) ++ [.command .nack]

/-- R283, R284, R353, L1-7: a transmit that ends with a repeated START, then a transmit to another address: no STOP and no
START between them, and the address goes out at once. The caller holds in `END_TRANSMISSION` when its transmit ends and
returns before it goes on, or it is idle because that request returned before (70_reset_and_hazards.md R351). -/
def Obligations.RepeatedStartNeedsNoStop : Prop :=
  ∀ (low : BitVec 3) (din : Byte) (i : Instr) (a : BitVec 7) (b : Bool) (s : State),
    i = .evtMtSlaAck low din ∨ i = .evtMtDataAck low din →
    s.kH = .idle → s.initialized = true → s.role = .master → s.sendStop = some false →
    s.size.toNat ≤ s.index.toNat →
    ∃ t, exec i s = .next t ∧ t.armed = false ∧ t.inRepStart = true ∧ t.state = .ready ∧ t.kC = s.kC ∧
      (∀ x, inStep (.endTransmission false) 5 s → s.status = some x →
        runExec 2 (.endTransmission false) t = .next (returned (.endTransmission false) x.code t)) ∧
      ∀ r, (s.kC = .idle ∧ r = t) ∨ (∃ x : TransmissionStatus, r = returned (.endTransmission false) x.code t) →
        ∃ u v, runExec 6 (.beginTransmission a) r = .next u ∧ u.armed = false ∧
          runExec 4 (.endTransmission b) u = .next v ∧ v.armed = true ∧ v.inRepStart = false ∧
          v.cmdLog = s.cmdLog ++ [.command .armRepStart, .data (BitVec.ofNat 8 (a.toNat * 2)), .command .ack]

/-! ## Blocks in callback bodies -/

/-- R288, R289, R172: a `WRITE_BLOCK` in a callback body runs whole inside the handler's step: it writes as many bytes as
fit, in order, from `Buf[size]` on, changes no other byte, and answers how many to the body; its payload words are no
requests of the body. -/
def Obligations.CallbackBlockRunsWhole : Prop :=
  ∀ (bytes : List Byte) (more : List Word) (n : Nat) (s : State), bytes.length ≤ 255 →
    (s.size.toNat ≤ 32 ∨ bytes = [] →
      ∃ t, runBody (n + 1) (headerWord (.writeBlock bytes) :: (bytes.map payloadWord ++ more)) s = runBody n more t ∧
        t = { s with buf := t.buf, size := t.size,
                     bodyLog := s.bodyLog ++
                       [⟨.writeBlock bytes, BitVec.ofNat 8 (min bytes.length (32 - s.size.toNat))⟩] } ∧
        t.size.toNat = s.size.toNat + min bytes.length (32 - s.size.toNat) ∧
        (∀ k, k < min bytes.length (32 - s.size.toNat) → Memory.read t.buf (s.size.toNat + k) = bytes[k]?) ∧
        ∀ pos, pos < s.size.toNat ∨ s.size.toNat + min bytes.length (32 - s.size.toNat) ≤ pos →
          Memory.read t.buf pos = Memory.read s.buf pos) ∧
    (32 < s.size.toNat → bytes ≠ [] →
      runBody (n + 1) (headerWord (.writeBlock bytes) :: (bytes.map payloadWord ++ more)) s =
        .fault (.bufferOverrun s.size.toNat (.writeBlock bytes) s))
end

