-- ==== Sys2Proof/Laws/Memory.lean ====
section
/-! SUPPORT. The buffer space: a read after a write, and the canonical form that every write keeps (20_memory.md R70). -/

namespace Sys2Proof.Machine

open Sys2Proof

@[simp] theorem Memory.read_nil (a : Nat) : Memory.read [] a = none := rfl

theorem Memory.read_write_same (m : List Host.Cell) (a : Nat) (v : Byte) :
    Memory.read (Memory.write m a v) a = some v := by
  induction m with
  | nil => simp [Memory.write, Memory.read]
  | cons c m ih =>
    obtain ⟨b, w⟩ := c
    simp only [Memory.write]
    split
    · simp [Memory.read]
    · split
      · simp [Memory.read]
      · rename_i h1 h2
        simp [Memory.read, Ne.symm h2, ih]

theorem Memory.read_write_other (m : List Host.Cell) {a p : Nat} (v : Byte) (h : p ≠ a) :
    Memory.read (Memory.write m a v) p = Memory.read m p := by
  induction m with
  | nil => simp [Memory.write, Memory.read, Ne.symm h]
  | cons c m ih =>
    obtain ⟨b, w⟩ := c
    simp only [Memory.write]
    split
    · simp [Memory.read, Ne.symm h]
    · split
      · rename_i h2
        subst h2
        simp [Memory.read, Ne.symm h]
      · simp only [Memory.read, ih]

/-- A write after a write of the same cell leaves the last. -/
theorem Memory.write_write_same (m : List Host.Cell) (a : Nat) (v w : Byte) :
    Memory.write (Memory.write m a v) a w = Memory.write m a w := by
  induction m with
  | nil => simp [Memory.write]
  | cons c m ih =>
    obtain ⟨b, u⟩ := c
    by_cases h1 : a < b
    · simp [Memory.write, h1]
    · by_cases h2 : a = b
      · subst h2; simp [Memory.write]
      · simp [Memory.write, h1, h2, ih]

theorem Memory.wf_tail {c : Host.Cell} {m : List Host.Cell} (h : Memory.wf (c :: m) = true) :
    Memory.wf m = true := by
  cases m with
  | nil => rfl
  | cons d m => simp [Memory.wf] at h; exact h.2

/-- The first cell of a canonical buffer lies inside the space. -/
theorem Memory.wf_head {a : Nat} {v : Byte} {m : List Host.Cell} (h : Memory.wf ((a, v) :: m) = true) :
    a < Config.capacity := by
  induction m generalizing a v with
  | nil => simpa [Memory.wf] using h
  | cons d m ih =>
    obtain ⟨b, w⟩ := d
    simp [Memory.wf] at h
    exact Nat.lt_trans h.1 (ih h.2)

/-- The canonical form does not depend on the first cell's byte. -/
theorem Memory.wf_head_byte {a : Nat} {v w : Byte} {m : List Host.Cell} (h : Memory.wf ((a, v) :: m) = true) :
    Memory.wf ((a, w) :: m) = true := by
  cases m with
  | nil => simpa [Memory.wf] using h
  | cons d m => simpa [Memory.wf] using h

/-- What stands below a bound stays below it through a write above that bound. -/
theorem Memory.wf_cons_write {b a : Nat} {w v : Byte} {m : List Host.Cell} (h : Memory.wf ((b, w) :: m) = true)
    (hb : b < a) (hw : Memory.wf (Memory.write m a v) = true) :
    Memory.wf ((b, w) :: Memory.write m a v) = true := by
  cases m with
  | nil =>
    simp [Memory.write, Memory.wf] at hw ⊢
    exact ⟨hb, hw⟩
  | cons d m =>
    obtain ⟨c, x⟩ := d
    have hbc : b < c := by simp [Memory.wf] at h; exact h.1
    simp only [Memory.write] at hw ⊢
    split
    · rename_i h1; rw [if_pos h1] at hw; simpa [Memory.wf, hb] using hw
    · rename_i h1; rw [if_neg h1] at hw
      split
      · rename_i h2; rw [if_pos h2] at hw; simp [Memory.wf, hb, hw]
      · rename_i h2; rw [if_neg h2] at hw; simp [Memory.wf, hbc, hw]

/-- Every write inside the space keeps the canonical form. -/
theorem Memory.wf_write {m : List Host.Cell} {a : Nat} (v : Byte) (h : Memory.wf m = true)
    (ha : a < Config.capacity) : Memory.wf (Memory.write m a v) = true := by
  induction m with
  | nil => simpa [Memory.write, Memory.wf] using ha
  | cons c m ih =>
    obtain ⟨b, w⟩ := c
    by_cases h1 : a < b
    · simp [Memory.write, h1, Memory.wf, h]
    · by_cases h2 : a = b
      · subst h2; simpa [Memory.write] using Memory.wf_head_byte h
      · have hb : b < a := by omega
        simpa [Memory.write, h1, h2] using Memory.wf_cons_write h hb (ih (Memory.wf_tail h))

/-- A cell below every listed one is unwritten. -/
theorem Memory.read_below {m : List Host.Cell} {a : Nat} (h : Memory.wf m = true)
    (hb : ∀ c ∈ m.head?, a < c.1) : Memory.read m a = none := by
  induction m with
  | nil => rfl
  | cons c m ih =>
    obtain ⟨b, w⟩ := c
    have hab : a < b := by simpa using hb
    have hne : b ≠ a := by omega
    simp only [Memory.read, if_neg hne]
    apply ih (Memory.wf_tail h)
    intro d hd
    cases m with
    | nil => simp at hd
    | cons e m =>
      simp [Memory.wf] at h hd
      subst hd
      omega

/-- Equal reads at every position make canonical buffers equal data. -/
theorem Memory.ext_of_wf {m n : List Host.Cell} (hm : Memory.wf m = true) (hn : Memory.wf n = true)
    (h : ∀ a, Memory.read m a = Memory.read n a) : m = n := by
  induction m generalizing n with
  | nil =>
    cases n with
    | nil => rfl
    | cons d n => obtain ⟨b, w⟩ := d; have := h b; simp [Memory.read] at this
  | cons c m ih =>
    obtain ⟨a, v⟩ := c
    cases n with
    | nil => have := h a; simp [Memory.read] at this
    | cons d n =>
      obtain ⟨b, w⟩ := d
      have hab : a = b := by
        rcases Nat.lt_trichotomy a b with hlt | heq | hgt
        · have := h a
          rw [Memory.read_below hn (by simpa using hlt)] at this
          simp [Memory.read] at this
        · exact heq
        · have := h b
          rw [Memory.read_below hm (by simpa using hgt)] at this
          simp [Memory.read] at this
      subst hab
      have hvw : v = w := by have := h a; simpa [Memory.read] using this
      subst hvw
      congr 1
      apply ih (Memory.wf_tail hm) (Memory.wf_tail hn)
      intro p
      by_cases hp : p = a
      · subst hp
        have lo : ∀ k : List Host.Cell, Memory.wf ((p, v) :: k) = true → ∀ c ∈ k.head?, p < c.1 := by
          intro k hk c hc
          cases k with
          | nil => simp at hc
          | cons e k => simp [Memory.wf] at hk hc; subst hc; exact hk.1
        rw [Memory.read_below (Memory.wf_tail hm) (lo m hm), Memory.read_below (Memory.wf_tail hn) (lo n hn)]
      · have := h p; simpa [Memory.read, Ne.symm hp] using this

end Sys2Proof.Machine
end

