-- ==== Sys2Proof/Laws/State.lean ====
section
/-! SUPPORT. One lemma per field of State per named update, true by rfl, so that no later proof unfolds an update. -/

namespace Sys2Proof.Machine

open Sys2Proof

variable (s : State)

/-! ### regWrite -/

@[simp] theorem regWrite_role (r : PhysReg) (v : Byte) : (regWrite r v s).role = s.role := rfl
@[simp] theorem regWrite_state (r : PhysReg) (v : Byte) : (regWrite r v s).state = s.state := rfl
@[simp] theorem regWrite_index (r : PhysReg) (v : Byte) : (regWrite r v s).index = s.index := rfl
@[simp] theorem regWrite_size (r : PhysReg) (v : Byte) : (regWrite r v s).size = s.size := rfl
@[simp] theorem regWrite_buf (r : PhysReg) (v : Byte) : (regWrite r v s).buf = s.buf := rfl
@[simp] theorem regWrite_address (r : PhysReg) (v : Byte) : (regWrite r v s).address = s.address := rfl
@[simp] theorem regWrite_sendStop (r : PhysReg) (v : Byte) : (regWrite r v s).sendStop = s.sendStop := rfl
@[simp] theorem regWrite_inRepStart (r : PhysReg) (v : Byte) : (regWrite r v s).inRepStart = s.inRepStart := rfl
@[simp] theorem regWrite_status (r : PhysReg) (v : Byte) : (regWrite r v s).status = s.status := rfl
@[simp] theorem regWrite_initialized (r : PhysReg) (v : Byte) : (regWrite r v s).initialized = s.initialized := rfl
@[simp] theorem regWrite_onRx (r : PhysReg) (v : Byte) : (regWrite r v s).onRx = s.onRx := rfl
@[simp] theorem regWrite_onTx (r : PhysReg) (v : Byte) : (regWrite r v s).onTx = s.onTx := rfl
@[simp] theorem regWrite_regs (r : PhysReg) (v : Byte) : (regWrite r v s).regs = PhysRegs.set r v s.regs := rfl
@[simp] theorem regWrite_kC (r : PhysReg) (v : Byte) : (regWrite r v s).kC = s.kC := rfl
@[simp] theorem regWrite_kH (r : PhysReg) (v : Byte) : (regWrite r v s).kH = s.kH := rfl
@[simp] theorem regWrite_pending (r : PhysReg) (v : Byte) : (regWrite r v s).pending = s.pending := rfl
@[simp] theorem regWrite_enabled (r : PhysReg) (v : Byte) : (regWrite r v s).enabled = s.enabled := rfl
@[simp] theorem regWrite_armed (r : PhysReg) (v : Byte) : (regWrite r v s).armed = s.armed := rfl
@[simp] theorem regWrite_stopPending (r : PhysReg) (v : Byte) : (regWrite r v s).stopPending = s.stopPending := rfl
@[simp] theorem regWrite_cmdLog (r : PhysReg) (v : Byte) : (regWrite r v s).cmdLog = s.cmdLog := rfl
@[simp] theorem regWrite_reqLog (r : PhysReg) (v : Byte) : (regWrite r v s).reqLog = s.reqLog := rfl
@[simp] theorem regWrite_cbLog (r : PhysReg) (v : Byte) : (regWrite r v s).cbLog = s.cbLog := rfl
@[simp] theorem regWrite_bodyLog (r : PhysReg) (v : Byte) : (regWrite r v s).bodyLog = s.bodyLog := rfl
@[simp] theorem regWrite_cfg (r : PhysReg) (v : Byte) : (regWrite r v s).cfg = s.cfg := rfl
@[simp] theorem regWrite_requests (r : PhysReg) (v : Byte) : (regWrite r v s).requests = s.requests := rfl
@[simp] theorem regWrite_schedule (r : PhysReg) (v : Byte) : (regWrite r v s).schedule = s.schedule := rfl
@[simp] theorem regWrite_turns (r : PhysReg) (v : Byte) : (regWrite r v s).turns = s.turns := rfl

/-! ### emit -/

@[simp] theorem emit_role (c : BusCommand) : (emit c s).role = s.role := rfl
@[simp] theorem emit_state (c : BusCommand) : (emit c s).state = s.state := rfl
@[simp] theorem emit_index (c : BusCommand) : (emit c s).index = s.index := rfl
@[simp] theorem emit_size (c : BusCommand) : (emit c s).size = s.size := rfl
@[simp] theorem emit_buf (c : BusCommand) : (emit c s).buf = s.buf := rfl
@[simp] theorem emit_address (c : BusCommand) : (emit c s).address = s.address := rfl
@[simp] theorem emit_sendStop (c : BusCommand) : (emit c s).sendStop = s.sendStop := rfl
@[simp] theorem emit_inRepStart (c : BusCommand) : (emit c s).inRepStart = s.inRepStart := rfl
@[simp] theorem emit_status (c : BusCommand) : (emit c s).status = s.status := rfl
@[simp] theorem emit_initialized (c : BusCommand) : (emit c s).initialized = s.initialized := rfl
@[simp] theorem emit_onRx (c : BusCommand) : (emit c s).onRx = s.onRx := rfl
@[simp] theorem emit_onTx (c : BusCommand) : (emit c s).onTx = s.onTx := rfl
@[simp] theorem emit_regs (c : BusCommand) : (emit c s).regs = PhysRegs.set .control c.control s.regs := rfl
@[simp] theorem emit_kC (c : BusCommand) : (emit c s).kC = s.kC := rfl
@[simp] theorem emit_kH (c : BusCommand) : (emit c s).kH = s.kH := rfl
@[simp] theorem emit_pending (c : BusCommand) : (emit c s).pending = s.pending := rfl
@[simp] theorem emit_enabled (c : BusCommand) : (emit c s).enabled = c.enabledAfter s.enabled := rfl
@[simp] theorem emit_armed (c : BusCommand) : (emit c s).armed = c.armedAfter := rfl
@[simp] theorem emit_stopPending (c : BusCommand) : (emit c s).stopPending = c.stopPendingAfter s.stopPending := rfl
@[simp] theorem emit_cmdLog (c : BusCommand) : (emit c s).cmdLog = s.cmdLog ++ [.command c] := rfl
@[simp] theorem emit_reqLog (c : BusCommand) : (emit c s).reqLog = s.reqLog := rfl
@[simp] theorem emit_cbLog (c : BusCommand) : (emit c s).cbLog = s.cbLog := rfl
@[simp] theorem emit_bodyLog (c : BusCommand) : (emit c s).bodyLog = s.bodyLog := rfl
@[simp] theorem emit_cfg (c : BusCommand) : (emit c s).cfg = s.cfg := rfl
@[simp] theorem emit_requests (c : BusCommand) : (emit c s).requests = s.requests := rfl
@[simp] theorem emit_schedule (c : BusCommand) : (emit c s).schedule = s.schedule := rfl
@[simp] theorem emit_turns (c : BusCommand) : (emit c s).turns = s.turns := rfl

/-! ### emitData -/

@[simp] theorem emitData_role (b : Byte) : (emitData b s).role = s.role := rfl
@[simp] theorem emitData_state (b : Byte) : (emitData b s).state = s.state := rfl
@[simp] theorem emitData_index (b : Byte) : (emitData b s).index = s.index := rfl
@[simp] theorem emitData_size (b : Byte) : (emitData b s).size = s.size := rfl
@[simp] theorem emitData_buf (b : Byte) : (emitData b s).buf = s.buf := rfl
@[simp] theorem emitData_address (b : Byte) : (emitData b s).address = s.address := rfl
@[simp] theorem emitData_sendStop (b : Byte) : (emitData b s).sendStop = s.sendStop := rfl
@[simp] theorem emitData_inRepStart (b : Byte) : (emitData b s).inRepStart = s.inRepStart := rfl
@[simp] theorem emitData_status (b : Byte) : (emitData b s).status = s.status := rfl
@[simp] theorem emitData_initialized (b : Byte) : (emitData b s).initialized = s.initialized := rfl
@[simp] theorem emitData_onRx (b : Byte) : (emitData b s).onRx = s.onRx := rfl
@[simp] theorem emitData_onTx (b : Byte) : (emitData b s).onTx = s.onTx := rfl
@[simp] theorem emitData_regs (b : Byte) : (emitData b s).regs = PhysRegs.set .data b s.regs := rfl
@[simp] theorem emitData_kC (b : Byte) : (emitData b s).kC = s.kC := rfl
@[simp] theorem emitData_kH (b : Byte) : (emitData b s).kH = s.kH := rfl
@[simp] theorem emitData_pending (b : Byte) : (emitData b s).pending = s.pending := rfl
@[simp] theorem emitData_enabled (b : Byte) : (emitData b s).enabled = s.enabled := rfl
@[simp] theorem emitData_armed (b : Byte) : (emitData b s).armed = s.armed := rfl
@[simp] theorem emitData_stopPending (b : Byte) : (emitData b s).stopPending = s.stopPending := rfl
@[simp] theorem emitData_cmdLog (b : Byte) : (emitData b s).cmdLog = s.cmdLog ++ [.data b] := rfl
@[simp] theorem emitData_reqLog (b : Byte) : (emitData b s).reqLog = s.reqLog := rfl
@[simp] theorem emitData_cbLog (b : Byte) : (emitData b s).cbLog = s.cbLog := rfl
@[simp] theorem emitData_bodyLog (b : Byte) : (emitData b s).bodyLog = s.bodyLog := rfl
@[simp] theorem emitData_cfg (b : Byte) : (emitData b s).cfg = s.cfg := rfl
@[simp] theorem emitData_requests (b : Byte) : (emitData b s).requests = s.requests := rfl
@[simp] theorem emitData_schedule (b : Byte) : (emitData b s).schedule = s.schedule := rfl
@[simp] theorem emitData_turns (b : Byte) : (emitData b s).turns = s.turns := rfl

/-! ### releaseBus -/

@[simp] theorem releaseBus_role : (releaseBus s).role = s.role := rfl
@[simp] theorem releaseBus_state : (releaseBus s).state = .ready := rfl
@[simp] theorem releaseBus_index : (releaseBus s).index = s.index := rfl
@[simp] theorem releaseBus_size : (releaseBus s).size = s.size := rfl
@[simp] theorem releaseBus_buf : (releaseBus s).buf = s.buf := rfl
@[simp] theorem releaseBus_address : (releaseBus s).address = s.address := rfl
@[simp] theorem releaseBus_sendStop : (releaseBus s).sendStop = s.sendStop := rfl
@[simp] theorem releaseBus_inRepStart : (releaseBus s).inRepStart = s.inRepStart := rfl
@[simp] theorem releaseBus_status : (releaseBus s).status = s.status := rfl
@[simp] theorem releaseBus_initialized : (releaseBus s).initialized = s.initialized := rfl
@[simp] theorem releaseBus_onRx : (releaseBus s).onRx = s.onRx := rfl
@[simp] theorem releaseBus_onTx : (releaseBus s).onTx = s.onTx := rfl
@[simp] theorem releaseBus_regs : (releaseBus s).regs = PhysRegs.set .control 0xC5 s.regs := rfl
@[simp] theorem releaseBus_kC : (releaseBus s).kC = s.kC := rfl
@[simp] theorem releaseBus_kH : (releaseBus s).kH = s.kH := rfl
@[simp] theorem releaseBus_pending : (releaseBus s).pending = s.pending := rfl
@[simp] theorem releaseBus_enabled : (releaseBus s).enabled = s.enabled := rfl
@[simp] theorem releaseBus_armed : (releaseBus s).armed = true := rfl
@[simp] theorem releaseBus_stopPending : (releaseBus s).stopPending = s.stopPending := rfl
@[simp] theorem releaseBus_cmdLog : (releaseBus s).cmdLog = s.cmdLog ++ [.command .ack] := rfl
@[simp] theorem releaseBus_reqLog : (releaseBus s).reqLog = s.reqLog := rfl
@[simp] theorem releaseBus_cbLog : (releaseBus s).cbLog = s.cbLog := rfl
@[simp] theorem releaseBus_bodyLog : (releaseBus s).bodyLog = s.bodyLog := rfl
@[simp] theorem releaseBus_cfg : (releaseBus s).cfg = s.cfg := rfl
@[simp] theorem releaseBus_requests : (releaseBus s).requests = s.requests := rfl
@[simp] theorem releaseBus_schedule : (releaseBus s).schedule = s.schedule := rfl
@[simp] theorem releaseBus_turns : (releaseBus s).turns = s.turns := rfl

/-! ### stop -/

@[simp] theorem stop_role (ev : Instr) : (stop ev s).role = s.role := rfl
@[simp] theorem stop_state (ev : Instr) : (stop ev s).state = s.state := rfl
@[simp] theorem stop_index (ev : Instr) : (stop ev s).index = s.index := rfl
@[simp] theorem stop_size (ev : Instr) : (stop ev s).size = s.size := rfl
@[simp] theorem stop_buf (ev : Instr) : (stop ev s).buf = s.buf := rfl
@[simp] theorem stop_address (ev : Instr) : (stop ev s).address = s.address := rfl
@[simp] theorem stop_sendStop (ev : Instr) : (stop ev s).sendStop = s.sendStop := rfl
@[simp] theorem stop_inRepStart (ev : Instr) : (stop ev s).inRepStart = s.inRepStart := rfl
@[simp] theorem stop_status (ev : Instr) : (stop ev s).status = s.status := rfl
@[simp] theorem stop_initialized (ev : Instr) : (stop ev s).initialized = s.initialized := rfl
@[simp] theorem stop_onRx (ev : Instr) : (stop ev s).onRx = s.onRx := rfl
@[simp] theorem stop_onTx (ev : Instr) : (stop ev s).onTx = s.onTx := rfl
@[simp] theorem stop_regs (ev : Instr) : (stop ev s).regs = PhysRegs.set .control 0xD5 s.regs := rfl
@[simp] theorem stop_kC (ev : Instr) : (stop ev s).kC = s.kC := rfl
@[simp] theorem stop_kH (ev : Instr) : (stop ev s).kH = .stopWait ev := rfl
@[simp] theorem stop_pending (ev : Instr) : (stop ev s).pending = s.pending := rfl
@[simp] theorem stop_enabled (ev : Instr) : (stop ev s).enabled = s.enabled := rfl
@[simp] theorem stop_armed (ev : Instr) : (stop ev s).armed = true := rfl
@[simp] theorem stop_stopPending (ev : Instr) : (stop ev s).stopPending = true := rfl
@[simp] theorem stop_cmdLog (ev : Instr) : (stop ev s).cmdLog = s.cmdLog ++ [.command .stop] := rfl
@[simp] theorem stop_reqLog (ev : Instr) : (stop ev s).reqLog = s.reqLog := rfl
@[simp] theorem stop_cbLog (ev : Instr) : (stop ev s).cbLog = s.cbLog := rfl
@[simp] theorem stop_bodyLog (ev : Instr) : (stop ev s).bodyLog = s.bodyLog := rfl
@[simp] theorem stop_cfg (ev : Instr) : (stop ev s).cfg = s.cfg := rfl
@[simp] theorem stop_requests (ev : Instr) : (stop ev s).requests = s.requests := rfl
@[simp] theorem stop_schedule (ev : Instr) : (stop ev s).schedule = s.schedule := rfl
@[simp] theorem stop_turns (ev : Instr) : (stop ev s).turns = s.turns := rfl

/-! ### armRepeatedStart -/

@[simp] theorem armRepeatedStart_role : (armRepeatedStart s).role = s.role := rfl
@[simp] theorem armRepeatedStart_state : (armRepeatedStart s).state = .ready := rfl
@[simp] theorem armRepeatedStart_index : (armRepeatedStart s).index = s.index := rfl
@[simp] theorem armRepeatedStart_size : (armRepeatedStart s).size = s.size := rfl
@[simp] theorem armRepeatedStart_buf : (armRepeatedStart s).buf = s.buf := rfl
@[simp] theorem armRepeatedStart_address : (armRepeatedStart s).address = s.address := rfl
@[simp] theorem armRepeatedStart_sendStop : (armRepeatedStart s).sendStop = s.sendStop := rfl
@[simp] theorem armRepeatedStart_inRepStart : (armRepeatedStart s).inRepStart = true := rfl
@[simp] theorem armRepeatedStart_status : (armRepeatedStart s).status = s.status := rfl
@[simp] theorem armRepeatedStart_initialized : (armRepeatedStart s).initialized = s.initialized := rfl
@[simp] theorem armRepeatedStart_onRx : (armRepeatedStart s).onRx = s.onRx := rfl
@[simp] theorem armRepeatedStart_onTx : (armRepeatedStart s).onTx = s.onTx := rfl
@[simp] theorem armRepeatedStart_regs : (armRepeatedStart s).regs = PhysRegs.set .control 0xA4 s.regs := rfl
@[simp] theorem armRepeatedStart_kC : (armRepeatedStart s).kC = s.kC := rfl
@[simp] theorem armRepeatedStart_kH : (armRepeatedStart s).kH = s.kH := rfl
@[simp] theorem armRepeatedStart_pending : (armRepeatedStart s).pending = s.pending := rfl
@[simp] theorem armRepeatedStart_enabled : (armRepeatedStart s).enabled = s.enabled := rfl
@[simp] theorem armRepeatedStart_armed : (armRepeatedStart s).armed = false := rfl
@[simp] theorem armRepeatedStart_stopPending : (armRepeatedStart s).stopPending = s.stopPending := rfl
@[simp] theorem armRepeatedStart_cmdLog : (armRepeatedStart s).cmdLog = s.cmdLog ++ [.command .armRepStart] := rfl
@[simp] theorem armRepeatedStart_reqLog : (armRepeatedStart s).reqLog = s.reqLog := rfl
@[simp] theorem armRepeatedStart_cbLog : (armRepeatedStart s).cbLog = s.cbLog := rfl
@[simp] theorem armRepeatedStart_bodyLog : (armRepeatedStart s).bodyLog = s.bodyLog := rfl
@[simp] theorem armRepeatedStart_cfg : (armRepeatedStart s).cfg = s.cfg := rfl
@[simp] theorem armRepeatedStart_requests : (armRepeatedStart s).requests = s.requests := rfl
@[simp] theorem armRepeatedStart_schedule : (armRepeatedStart s).schedule = s.schedule := rfl
@[simp] theorem armRepeatedStart_turns : (armRepeatedStart s).turns = s.turns := rfl

/-! ### endAction -/

@[simp] theorem endAction_role : (endAction s).role = s.role := rfl
@[simp] theorem endAction_state : (endAction s).state = s.state := rfl
@[simp] theorem endAction_index : (endAction s).index = s.index := rfl
@[simp] theorem endAction_size : (endAction s).size = s.size := rfl
@[simp] theorem endAction_buf : (endAction s).buf = s.buf := rfl
@[simp] theorem endAction_address : (endAction s).address = s.address := rfl
@[simp] theorem endAction_sendStop : (endAction s).sendStop = s.sendStop := rfl
@[simp] theorem endAction_inRepStart : (endAction s).inRepStart = s.inRepStart := rfl
@[simp] theorem endAction_status : (endAction s).status = s.status := rfl
@[simp] theorem endAction_initialized : (endAction s).initialized = s.initialized := rfl
@[simp] theorem endAction_onRx : (endAction s).onRx = s.onRx := rfl
@[simp] theorem endAction_onTx : (endAction s).onTx = s.onTx := rfl
@[simp] theorem endAction_regs : (endAction s).regs = s.regs := rfl
@[simp] theorem endAction_kC : (endAction s).kC = s.kC := rfl
@[simp] theorem endAction_kH : (endAction s).kH = .idle := rfl
@[simp] theorem endAction_pending : (endAction s).pending = s.pending := rfl
@[simp] theorem endAction_enabled : (endAction s).enabled = s.enabled := rfl
@[simp] theorem endAction_armed : (endAction s).armed = s.armed := rfl
@[simp] theorem endAction_stopPending : (endAction s).stopPending = s.stopPending := rfl
@[simp] theorem endAction_cmdLog : (endAction s).cmdLog = s.cmdLog := rfl
@[simp] theorem endAction_reqLog : (endAction s).reqLog = s.reqLog := rfl
@[simp] theorem endAction_cbLog : (endAction s).cbLog = s.cbLog := rfl
@[simp] theorem endAction_bodyLog : (endAction s).bodyLog = s.bodyLog := rfl
@[simp] theorem endAction_cfg : (endAction s).cfg = s.cfg := rfl
@[simp] theorem endAction_requests : (endAction s).requests = s.requests := rfl
@[simp] theorem endAction_schedule : (endAction s).schedule = s.schedule := rfl
@[simp] theorem endAction_turns : (endAction s).turns = s.turns := rfl

/-! ### logBody -/

@[simp] theorem logBody_role (i : Instr) (v : Byte) : (logBody i v s).role = s.role := rfl
@[simp] theorem logBody_state (i : Instr) (v : Byte) : (logBody i v s).state = s.state := rfl
@[simp] theorem logBody_index (i : Instr) (v : Byte) : (logBody i v s).index = s.index := rfl
@[simp] theorem logBody_size (i : Instr) (v : Byte) : (logBody i v s).size = s.size := rfl
@[simp] theorem logBody_buf (i : Instr) (v : Byte) : (logBody i v s).buf = s.buf := rfl
@[simp] theorem logBody_address (i : Instr) (v : Byte) : (logBody i v s).address = s.address := rfl
@[simp] theorem logBody_sendStop (i : Instr) (v : Byte) : (logBody i v s).sendStop = s.sendStop := rfl
@[simp] theorem logBody_inRepStart (i : Instr) (v : Byte) : (logBody i v s).inRepStart = s.inRepStart := rfl
@[simp] theorem logBody_status (i : Instr) (v : Byte) : (logBody i v s).status = s.status := rfl
@[simp] theorem logBody_initialized (i : Instr) (v : Byte) : (logBody i v s).initialized = s.initialized := rfl
@[simp] theorem logBody_onRx (i : Instr) (v : Byte) : (logBody i v s).onRx = s.onRx := rfl
@[simp] theorem logBody_onTx (i : Instr) (v : Byte) : (logBody i v s).onTx = s.onTx := rfl
@[simp] theorem logBody_regs (i : Instr) (v : Byte) : (logBody i v s).regs = s.regs := rfl
@[simp] theorem logBody_kC (i : Instr) (v : Byte) : (logBody i v s).kC = s.kC := rfl
@[simp] theorem logBody_kH (i : Instr) (v : Byte) : (logBody i v s).kH = s.kH := rfl
@[simp] theorem logBody_pending (i : Instr) (v : Byte) : (logBody i v s).pending = s.pending := rfl
@[simp] theorem logBody_enabled (i : Instr) (v : Byte) : (logBody i v s).enabled = s.enabled := rfl
@[simp] theorem logBody_armed (i : Instr) (v : Byte) : (logBody i v s).armed = s.armed := rfl
@[simp] theorem logBody_stopPending (i : Instr) (v : Byte) : (logBody i v s).stopPending = s.stopPending := rfl
@[simp] theorem logBody_cmdLog (i : Instr) (v : Byte) : (logBody i v s).cmdLog = s.cmdLog := rfl
@[simp] theorem logBody_reqLog (i : Instr) (v : Byte) : (logBody i v s).reqLog = s.reqLog := rfl
@[simp] theorem logBody_cbLog (i : Instr) (v : Byte) : (logBody i v s).cbLog = s.cbLog := rfl
@[simp] theorem logBody_bodyLog (i : Instr) (v : Byte) : (logBody i v s).bodyLog = s.bodyLog ++ [⟨i, v⟩] := rfl
@[simp] theorem logBody_cfg (i : Instr) (v : Byte) : (logBody i v s).cfg = s.cfg := rfl
@[simp] theorem logBody_requests (i : Instr) (v : Byte) : (logBody i v s).requests = s.requests := rfl
@[simp] theorem logBody_schedule (i : Instr) (v : Byte) : (logBody i v s).schedule = s.schedule := rfl
@[simp] theorem logBody_turns (i : Instr) (v : Byte) : (logBody i v s).turns = s.turns := rfl

/-! ### busStopDone -/

@[simp] theorem busStopDone_role : (busStopDone s).role = s.role := rfl
@[simp] theorem busStopDone_state : (busStopDone s).state = s.state := rfl
@[simp] theorem busStopDone_index : (busStopDone s).index = s.index := rfl
@[simp] theorem busStopDone_size : (busStopDone s).size = s.size := rfl
@[simp] theorem busStopDone_buf : (busStopDone s).buf = s.buf := rfl
@[simp] theorem busStopDone_address : (busStopDone s).address = s.address := rfl
@[simp] theorem busStopDone_sendStop : (busStopDone s).sendStop = s.sendStop := rfl
@[simp] theorem busStopDone_inRepStart : (busStopDone s).inRepStart = s.inRepStart := rfl
@[simp] theorem busStopDone_status : (busStopDone s).status = s.status := rfl
@[simp] theorem busStopDone_initialized : (busStopDone s).initialized = s.initialized := rfl
@[simp] theorem busStopDone_onRx : (busStopDone s).onRx = s.onRx := rfl
@[simp] theorem busStopDone_onTx : (busStopDone s).onTx = s.onTx := rfl
@[simp] theorem busStopDone_regs : (busStopDone s).regs = s.regs := rfl
@[simp] theorem busStopDone_kC : (busStopDone s).kC = s.kC := rfl
@[simp] theorem busStopDone_kH : (busStopDone s).kH = s.kH := rfl
@[simp] theorem busStopDone_pending : (busStopDone s).pending = s.pending := rfl
@[simp] theorem busStopDone_enabled : (busStopDone s).enabled = s.enabled := rfl
@[simp] theorem busStopDone_armed : (busStopDone s).armed = s.armed := rfl
@[simp] theorem busStopDone_stopPending : (busStopDone s).stopPending = false := rfl
@[simp] theorem busStopDone_cmdLog : (busStopDone s).cmdLog = s.cmdLog := rfl
@[simp] theorem busStopDone_reqLog : (busStopDone s).reqLog = s.reqLog := rfl
@[simp] theorem busStopDone_cbLog : (busStopDone s).cbLog = s.cbLog := rfl
@[simp] theorem busStopDone_bodyLog : (busStopDone s).bodyLog = s.bodyLog := rfl
@[simp] theorem busStopDone_cfg : (busStopDone s).cfg = s.cfg := rfl
@[simp] theorem busStopDone_requests : (busStopDone s).requests = s.requests := rfl
@[simp] theorem busStopDone_schedule : (busStopDone s).schedule = s.schedule := rfl
@[simp] theorem busStopDone_turns : (busStopDone s).turns = s.turns := rfl

/-! ### reply -/

@[simp] theorem reply_cmdLog (a : Bool) :
    (reply a s).cmdLog = s.cmdLog ++ [.command (if a then .ack else .nack)] := by cases a <;> rfl
@[simp] theorem reply_regs (a : Bool) :
    (reply a s).regs = PhysRegs.set .control (if a then 0xC5 else 0x85) s.regs := by cases a <;> rfl
@[simp] theorem reply_enabled (a : Bool) : (reply a s).enabled = s.enabled := by cases a <;> rfl
@[simp] theorem reply_armed (a : Bool) : (reply a s).armed = true := by cases a <;> rfl
@[simp] theorem reply_stopPending (a : Bool) : (reply a s).stopPending = s.stopPending := by cases a <;> rfl
@[simp] theorem reply_role (a : Bool) : (reply a s).role = s.role := rfl
@[simp] theorem reply_state (a : Bool) : (reply a s).state = s.state := rfl
@[simp] theorem reply_index (a : Bool) : (reply a s).index = s.index := rfl
@[simp] theorem reply_size (a : Bool) : (reply a s).size = s.size := rfl
@[simp] theorem reply_buf (a : Bool) : (reply a s).buf = s.buf := rfl
@[simp] theorem reply_address (a : Bool) : (reply a s).address = s.address := rfl
@[simp] theorem reply_sendStop (a : Bool) : (reply a s).sendStop = s.sendStop := rfl
@[simp] theorem reply_inRepStart (a : Bool) : (reply a s).inRepStart = s.inRepStart := rfl
@[simp] theorem reply_status (a : Bool) : (reply a s).status = s.status := rfl
@[simp] theorem reply_initialized (a : Bool) : (reply a s).initialized = s.initialized := rfl
@[simp] theorem reply_onRx (a : Bool) : (reply a s).onRx = s.onRx := rfl
@[simp] theorem reply_onTx (a : Bool) : (reply a s).onTx = s.onTx := rfl
@[simp] theorem reply_kC (a : Bool) : (reply a s).kC = s.kC := rfl
@[simp] theorem reply_kH (a : Bool) : (reply a s).kH = s.kH := rfl
@[simp] theorem reply_pending (a : Bool) : (reply a s).pending = s.pending := rfl
@[simp] theorem reply_reqLog (a : Bool) : (reply a s).reqLog = s.reqLog := rfl
@[simp] theorem reply_cbLog (a : Bool) : (reply a s).cbLog = s.cbLog := rfl
@[simp] theorem reply_bodyLog (a : Bool) : (reply a s).bodyLog = s.bodyLog := rfl
@[simp] theorem reply_cfg (a : Bool) : (reply a s).cfg = s.cfg := rfl
@[simp] theorem reply_requests (a : Bool) : (reply a s).requests = s.requests := rfl
@[simp] theorem reply_schedule (a : Bool) : (reply a s).schedule = s.schedule := rfl
@[simp] theorem reply_turns (a : Bool) : (reply a s).turns = s.turns := rfl

end Sys2Proof.Machine
end

