-- ==== Sys2Proof/Laws/Ops.lean ====
section
/-! SUPPORT. For each shared operation one lemma that says everything it can do, for proofs to cite instead of unfolding
it. -/

namespace Sys2Proof.Machine

open Sys2Proof

/-! ## Sequencing -/

@[simp] theorem andThen_next (s : State) (k : State → Result) : andThen (.next s) k = k s := rfl
@[simp] theorem andThen_fault (f : Fault) (k : State → Result) : andThen (.fault f) k = .fault f := rfl
@[simp] theorem andThen_refused (f : Refusal) (k : State → Result) : andThen (.refused f) k = .refused f := rfl

theorem andThen_eq_next {r : Result} {k : State → Result} {t : State} :
    andThen r k = .next t ↔ ∃ s, r = .next s ∧ k s = .next t := by
  cases r <;> simp

theorem andThen_eq_fault {r : Result} {k : State → Result} {f : Fault} :
    andThen r k = .fault f ↔ r = .fault f ∨ ∃ s, r = .next s ∧ k s = .fault f := by
  cases r <;> simp

theorem andThen_eq_refused {r : Result} {k : State → Result} {f : Refusal} :
    andThen r k = .refused f ↔ r = .refused f ∨ ∃ s, r = .next s ∧ k s = .refused f := by
  cases r <;> simp

theorem andThen_assoc (r : Result) (k l : State → Result) :
    andThen (andThen r k) l = andThen r fun s => andThen (k s) l := by
  cases r <;> rfl

@[simp] theorem runExec_zero (i : Instr) (s : State) : runExec 0 i s = .next s := rfl

theorem runExec_succ (n : Nat) (i : Instr) (s : State) :
    runExec (n + 1) i s = andThen (exec i s) (runExec n i) := rfl

/-- Steps of one request run one after the other. -/
theorem runExec_add (m n : Nat) (i : Instr) (s : State) :
    runExec (m + n) i s = andThen (runExec m i s) (runExec n i) := by
  induction m generalizing s with
  | zero => simp
  | succ m ih =>
    rw [Nat.succ_add, runExec_succ, runExec_succ, andThen_assoc]
    congr 1
    funext t
    exact ih t

@[simp] theorem runEvents_nil (s : State) : runEvents [] s = .next s := rfl

theorem runEvents_cons (i : Instr) (is : List Instr) (s : State) :
    runEvents (i :: is) s = andThen (exec i s) (runEvents is) := rfl

/-! ## The buffer and the bus primitives -/

theorem bufRead_eq_ok {by_ : Instr} {pos : Nat} {s : State} {v : Byte} :
    bufRead by_ pos s = .ok v ↔ pos < Config.capacity ∧ Memory.read s.buf pos = some v := by
  unfold bufRead
  split
  · rename_i h; simp; omega
  · rename_i h
    cases hr : Memory.read s.buf pos <;> simp
    omega

theorem bufWrite_eq_ok {by_ : Instr} {pos : Nat} {v : Byte} {s t : State} :
    bufWrite by_ pos v s = .ok t ↔ pos < Config.capacity ∧ t = { s with buf := Memory.write s.buf pos v } := by
  unfold bufWrite
  split
  · rename_i h; simp; omega
  · rename_i h
    simp only [Except.ok.injEq]
    constructor
    · rintro rfl; exact ⟨by omega, rfl⟩
    · rintro ⟨-, rfl⟩; rfl

/-- A buffer access never refuses, and it faults in the state it is given. -/
theorem bufWrite_eq_error {by_ : Instr} {pos : Nat} {v : Byte} {s : State} {f : Fault} :
    bufWrite by_ pos v s = .error f ↔ Config.capacity ≤ pos ∧ f = .bufferOverrun pos by_ s := by
  unfold bufWrite
  split <;> simp_all [eq_comm]

theorem storeByte_eq_next {ev : Instr} {v : Byte} {s t : State} :
    storeByte ev v s = .next t ↔ s.index.toNat < Config.capacity ∧
      t = { s with buf := Memory.write s.buf s.index.toNat v, index := s.index + 1 } := by
  unfold storeByte
  by_cases h : s.index.toNat < Config.capacity
  · rw [(bufWrite_eq_ok (by_ := ev)).2 ⟨h, rfl⟩]
    simp [h, eq_comm]
  · rw [(bufWrite_eq_error (by_ := ev)).2 ⟨by omega, rfl⟩]
    simp [h]

theorem sendByte_eq_next {ev : Instr} {s t : State} :
    sendByte ev s = .next t ↔ ∃ v, s.index.toNat < Config.capacity ∧ Memory.read s.buf s.index.toNat = some v ∧
      t = { emitData v s with index := s.index + 1 } := by
  unfold sendByte
  cases h : bufRead ev s.index.toNat s with
  | ok v =>
    have := bufRead_eq_ok.1 h
    simp [this.1, this.2, eq_comm]
  | error f =>
    simp only [reduceCtorEq, false_iff]
    rintro ⟨v, h1, h2, -⟩
    rw [bufRead_eq_ok.2 ⟨h1, h2⟩] at h
    cases h

theorem issueAddress_eq_next {s t : State} :
    issueAddress s = .next t ↔
      (s.inRepStart = true ∧ ∃ a, s.address = some a ∧ t = emit .ack (emitData a { s with inRepStart := false })) ∨
      (s.inRepStart = false ∧ t = emit .start s) := by
  unfold issueAddress
  cases hr : s.inRepStart <;> cases ha : s.address <;> simp [eq_comm]

theorem finishMaster_eq_next {ev : Instr} {s t : State} :
    finishMaster ev s = .next t ↔
      (s.sendStop = some true ∧ t = stop ev s) ∨ (s.sendStop = some false ∧ t = armRepeatedStart s) := by
  unfold finishMaster
  cases h : s.sendStop with
  | none => simp
  | some b => cases b <;> simp [eq_comm]

/-! ## The caller's steps -/

theorem callerStep_idle {i : Instr} {rule : Frame → State → Advance} {s : State} (h : s.kC = .idle) :
    callerStep i rule s = settle i (rule (atStep 1) s) := by
  simp [callerStep, h]

theorem callerStep_running {i : Instr} {rule : Frame → State → Advance} {s : State} {fr : Frame}
    (h : s.kC = .running i fr) : callerStep i rule s = settle i (rule fr s) := by
  simp [callerStep, h]

@[simp] theorem settle_goto (i : Instr) (fr : Frame) (t : State) :
    settle i (.goto fr t) = .next { t with kC := .running i fr } := rfl
@[simp] theorem settle_ret (i : Instr) (v : Byte) (t : State) :
    settle i (.ret v t) = .next { t with kC := .idle, reqLog := t.reqLog ++ [⟨i, v⟩] } := rfl
@[simp] theorem settle_fault (i : Instr) (r : Fault) : settle i (.fault r) = .fault r := rfl
@[simp] theorem settle_refused (i : Instr) (r : Refusal) : settle i (.refused r) = .refused r := rfl

/-- Where the caller stands in request `i`: at its first step, or at the place `k_C` names. -/
def callerAt (i : Instr) (fr : Frame) (s : State) : Prop :=
  (s.kC = .idle ∧ fr = atStep 1) ∨ s.kC = .running i fr

theorem callerStep_eq_next {i : Instr} {rule : Frame → State → Advance} {s t : State} :
    callerStep i rule s = .next t ↔ ∃ fr, callerAt i fr s ∧
      ((∃ fr' u, rule fr s = .goto fr' u ∧ t = { u with kC := .running i fr' }) ∨
       (∃ v u, rule fr s = .ret v u ∧ t = { u with kC := .idle, reqLog := u.reqLog ++ [⟨i, v⟩] })) := by
  have key : ∀ a : Advance, settle i a = .next t ↔
      ((∃ fr' u, a = .goto fr' u ∧ t = { u with kC := .running i fr' }) ∨
       (∃ v u, a = .ret v u ∧ t = { u with kC := .idle, reqLog := u.reqLog ++ [⟨i, v⟩] })) := by
    intro a
    cases a <;> simp [eq_comm]
  unfold callerStep callerAt
  cases hk : s.kC with
  | idle => simp [key]
  | running j fr =>
    by_cases hj : j = i
    · subst hj; simp [key]
    · simp [hj]

/-! ## The handler -/

theorem handleOnce_eq_next {act : State → Result} {s t : State} :
    handleOnce act s = .next t ↔ s.kH = .idle ∧ ∃ u, act s = .next u ∧ t = endAction u := by
  unfold handleOnce
  cases s.kH with
  | idle =>
    simp only [andThen_eq_next, Host.Outcome.next.injEq, true_and]
    constructor <;> rintro ⟨u, h, rfl⟩ <;> exact ⟨u, h, rfl⟩
  | stopWait j => simp

theorem handleStopping_eq_next {ev : Instr} {entry rest : State → Result} {s t : State} :
    handleStopping ev entry rest s = .next t ↔
      (s.kH = .idle ∧ entry s = .next t) ∨
      (s.kH = .stopWait ev ∧ s.stopPending = true ∧ t = s) ∨
      (s.kH = .stopWait ev ∧ s.stopPending = false ∧
        ∃ u, rest { s with state := .ready } = .next u ∧ t = endAction u) := by
  unfold handleStopping
  split
  · rename_i hk
    simp [hk]
  · rename_i j hk
    by_cases hj : j = ev
    · subst hj
      cases hs : s.stopPending
      · simp only [if_true, Bool.false_eq_true, if_false, andThen_eq_next, Host.Outcome.next.injEq, hk, reduceCtorEq,
          false_and, true_and, false_or]
        constructor <;> rintro ⟨u, h, rfl⟩ <;> exact ⟨u, h, rfl⟩
      · simp [hk, eq_comm]
    · simp [hk, hj]

theorem handleOnce_idle {act : State → Result} {s : State} (h : s.kH = .idle) :
    handleOnce act s = andThen (act s) fun t => .next (endAction t) := by
  simp [handleOnce, h]

theorem handleStopping_idle {ev : Instr} {entry rest : State → Result} {s : State} (h : s.kH = .idle) :
    handleStopping ev entry rest s = entry s := by
  simp [handleStopping, h]

/-- An action whose state has `k_H` idle at its end needs no return. -/
theorem endAction_of_idle {s : State} (h : s.kH = .idle) : endAction s = s := by
  cases s; simp_all [endAction]

/-! ## Callback bodies -/

/-- All the steps of a request keep whatever each of its steps keeps. -/
theorem runSteps_keeps {rule : Frame → State → Advance} {P : Frame → State → Prop} {Q : State → Prop}
    (hgoto : ∀ fr s fr' t, P fr s → rule fr s = .goto fr' t → P fr' t)
    (hret : ∀ fr s v t, P fr s → rule fr s = .ret v t → Q t)
    {n : Nat} {fr : Frame} {s : State} {v : Byte} {t : State}
    (hp : P fr s) (h : runSteps n rule fr s = .ret v t) : Q t := by
  induction n generalizing fr s with
  | zero => simp [runSteps] at h
  | succ n ih =>
    simp only [runSteps] at h
    cases hr : rule fr s with
    | goto fr' u => rw [hr] at h; exact ih (hgoto _ _ _ _ hp hr) h
    | ret w u => rw [hr] at h; cases h; exact hret _ _ _ _ hp hr
    | fault r => rw [hr] at h; cases h
    | refused r => rw [hr] at h; cases h

/-- A callback body keeps whatever each request it may contain keeps, run to its end, and the body log keeps. -/
theorem runBody_keeps {P : State → Prop}
    (hrun : ∀ i rule n s v t, bodyRule i = some rule → i.wellFormed = true → P s →
      runSteps n rule (atStep 1) s = .ret v t → P t)
    (hwf : ∀ ws i rest, decodeRequest ws = .ok (i, rest) → i.wellFormed = true)
    (hlog : ∀ i v s, P s → P (logBody i v s))
    {n : Nat} {ws : List Word} {s t : State} (hp : P s) (h : runBody n ws s = .next t) : P t := by
  induction n generalizing ws s with
  | zero => cases ws <;> simp [runBody] at h; subst h; exact hp
  | succ n ih =>
    cases ws with
    | nil => simp [runBody] at h; subst h; exact hp
    | cons w ws =>
      simp only [runBody] at h
      cases hd : decodeRequest (w :: ws) with
      | error e => rw [hd] at h; cases h
      | ok p =>
        obtain ⟨i, rest⟩ := p
        rw [hd] at h
        simp only at h
        cases hb : bodyRule i with
        | none => rw [hb] at h; cases h
        | some rule =>
          rw [hb] at h
          simp only at h
          cases hs : runSteps (bodyFuel i) rule (atStep 1) s with
          | ret v u => rw [hs] at h; exact ih (hlog _ _ _ (hrun _ _ _ _ _ _ hb (hwf _ _ _ hd) hp hs)) h
          | goto fr u => rw [hs] at h; cases h
          | fault r => rw [hs] at h; cases h
          | refused r => rw [hs] at h; cases h

@[simp] theorem invokeCallback_none (arg : Option Byte) (s : State) : invokeCallback 0#8 arg s = .next s := by
  simp [invokeCallback]

/-! ## Turns -/

theorem takeTurn_cons {s : State} {t : Turn} {ts : List Turn} (h : s.schedule = t :: ts) :
    takeTurn s = (t, { s with schedule := ts, turns := s.turns + 1 }) := by
  simp [takeTurn, h]

theorem takeTurn_nil {s : State} (h : s.schedule = []) :
    takeTurn s = (Config.freeTurn s.turns, { s with turns := s.turns + 1 }) := by
  simp [takeTurn, h]

/-- Taking a turn touches the inputs of the run only. -/
theorem takeTurn_state (s : State) :
    (takeTurn s).2 = { s with schedule := (takeTurn s).2.schedule, turns := s.turns + 1 } := by
  unfold takeTurn
  cases s.schedule <;> rfl

end Sys2Proof.Machine
end

