-- ==== Sys2Proof/Laws/Decode.lean ====
section
/-! SUPPORT. The fields of an encoded word, and that what the decoder answers is well formed. -/

namespace Sys2Proof

theorem word_toNat {op b : Nat} (ho : op < 256) (hb : b < 2 ^ 24) : (word op b).toNat = op * 2 ^ 24 + b := by
  simp only [word, BitVec.toNat_ofNat]
  exact Nat.mod_eq_of_lt (by omega)

theorem opOf_word {op b : Nat} (ho : op < 256) (hb : b < 2 ^ 24) : opOf (word op b) = op := by
  simp only [opOf, bits, word_toNat ho hb]
  omega

/-- A field below the operation code is a field of the body. -/
theorem bits_word {op b hi lo : Nat} (ho : op < 256) (hb : b < 2 ^ 24) (h : hi < 24) (hl : lo ≤ hi) :
    bits (word op b) hi lo = b / 2 ^ lo % 2 ^ (hi + 1 - lo) := by
  simp only [bits, word_toNat ho hb]
  have hs : (2 : Nat) ^ 24 = 2 ^ lo * (2 ^ (hi + 1 - lo) * 2 ^ (23 - hi)) := by
    rw [← pow_add, ← pow_add]; congr 1; omega
  rw [hs, show op * (2 ^ lo * (2 ^ (hi + 1 - lo) * 2 ^ (23 - hi)))
      = 2 ^ lo * (op * (2 ^ (hi + 1 - lo) * 2 ^ (23 - hi))) by ring,
    Nat.mul_add_div (Nat.pow_pos (by omega)),
    show op * (2 ^ (hi + 1 - lo) * 2 ^ (23 - hi)) = 2 ^ (hi + 1 - lo) * (op * 2 ^ (23 - hi)) by ring,
    Nat.mul_add_mod]

/-- A payload word gives its byte back. -/
theorem payloadWord_fields (b : Byte) :
    opOf (payloadWord b) = 0xFE ∧ bits (payloadWord b) 23 8 = 0 ∧ byteOf (payloadWord b) = b := by
  have hb : b.toNat < 2 ^ 24 := by have := b.isLt; omega
  refine ⟨opOf_word (by omega) hb, ?_, ?_⟩
  · rw [payloadWord, bits_word (by omega) hb (by omega) (by omega)]
    have := b.isLt
    omega
  · rw [byteOf, payloadWord, bits_word (by omega) hb (by omega) (by omega)]
    apply BitVec.eq_of_toNat_eq
    have := b.isLt
    simp only [BitVec.toNat_ofNat]
    omega

/-- R102: the payload words of a list of bytes decode to it, whatever follows. -/
theorem decodePayload_encode (bytes : List Byte) (rest : List Word) :
    decodePayload bytes.length (bytes.map payloadWord ++ rest) = .ok (bytes, rest) := by
  induction bytes with
  | nil => rfl
  | cons b bs ih =>
    obtain ⟨h1, h2, h3⟩ := payloadWord_fields b
    simp [decodePayload, h1, h2, h3, ih]

theorem decodePayload_length {n : Nat} {ws : List Word} {bytes : List Byte} {rest : List Word}
    (h : decodePayload n ws = .ok (bytes, rest)) : bytes.length = n := by
  induction n generalizing ws bytes rest with
  | zero => simp [decodePayload] at h; simp [← h.1]
  | succ n ih =>
    cases ws with
    | nil => simp [decodePayload] at h
    | cons w ws =>
      simp only [decodePayload] at h
      split at h
      · cases hd : decodePayload n ws with
        | error e => rw [hd] at h; cases h
        | ok p => obtain ⟨bs, r⟩ := p; rw [hd] at h; cases h; simp [ih hd]
      · cases h

theorem payloadCount_le (w : Word) : payloadCount w ≤ 255 := by
  unfold payloadCount bits
  split <;> omega

theorem ifReservedZero_eq_ok {z : Bool} {i j : Instr} : ifReservedZero z i = .ok j ↔ z = true ∧ i = j := by
  cases z <;> simp [ifReservedZero]

/-- The one-word requests: the operation code, and the instruction with its operands. -/
theorem decodeSingle_cases {w : Word} {i : Instr} (h : decodeSingle w = .ok i) :
    (opOf w = 0x01 ∧ .beginMaster (freqOf w) = i) ∨
    ((opOf w = 0x02 ∧ bits w 23 7 = 0) ∧ .beginSlave (addrOf w) = i) ∨
    (opOf w = 0x03 ∧ .setFrequency (freqOf w) = i) ∨
    ((opOf w = 0x04 ∧ bits w 23 0 = 0) ∧ .endBus = i) ∨
    ((opOf w = 0x05 ∧ bits w 23 8 = 0) ∧ .setOnReceive (byteOf w) = i) ∨
    ((opOf w = 0x06 ∧ bits w 23 8 = 0) ∧ .setOnTransmit (byteOf w) = i) ∨
    ((opOf w = 0x10 ∧ bits w 23 7 = 0) ∧ .beginTransmission (addrOf w) = i) ∨
    ((opOf w = 0x11 ∧ bits w 23 8 = 0) ∧ .write (byteOf w) = i) ∨
    ((opOf w = 0x13 ∧ bits w 23 1 = 0) ∧ .endTransmission (bits w 0 0 == 1) = i) ∨
    ((opOf w = 0x20 ∧ bits w 23 17 = 0 ∧ bits w 7 7 = 0) ∧
      .requestFrom (addrOf w) (quantityOf w) (bits w 16 16 == 1) = i) ∨
    ((opOf w = 0x21 ∧ bits w 23 0 = 0) ∧ .available = i) ∨
    ((opOf w = 0x22 ∧ bits w 23 0 = 0) ∧ .read = i) ∨
    ((opOf w = 0xFE ∧ bits w 23 8 = 0) ∧ .writeBlockPayload (byteOf w) = i) := by
  have step : ∀ (c : Prop) [Decidable c] (x y : Except DecodeError Instr),
      (if c then x else y) = .ok i ↔ (c ∧ x = .ok i) ∨ (¬ c ∧ y = .ok i) := by
    intro c _ x y; by_cases hc : c <;> simp [hc]
  simp only [decodeSingle, step, ifReservedZero_eq_ok, Except.ok.injEq, beq_iff_eq, Bool.and_eq_true,
    reduceCtorEq, and_false, or_false] at h
  refine h.imp id fun h => ?_
  replace h := h.2
  refine h.imp (fun h => ⟨⟨h.1, h.2.1⟩, h.2.2⟩) fun h => ?_
  replace h := h.2
  refine h.imp id fun h => ?_
  replace h := h.2
  refine h.imp (fun h => ⟨⟨h.1, h.2.1⟩, h.2.2⟩) fun h => ?_
  replace h := h.2
  refine h.imp (fun h => ⟨⟨h.1, h.2.1⟩, h.2.2⟩) fun h => ?_
  replace h := h.2
  refine h.imp (fun h => ⟨⟨h.1, h.2.1⟩, h.2.2⟩) fun h => ?_
  replace h := h.2
  refine h.imp (fun h => ⟨⟨h.1, h.2.1⟩, h.2.2⟩) fun h => ?_
  replace h := h.2
  refine h.imp (fun h => ⟨⟨h.1, h.2.1⟩, h.2.2⟩) fun h => ?_
  replace h := h.2
  refine h.imp (fun h => ⟨⟨h.1, h.2.1⟩, h.2.2⟩) fun h => ?_
  replace h := h.2
  refine h.imp (fun h => ⟨⟨h.1, h.2.1.1, h.2.1.2⟩, h.2.2⟩) fun h => ?_
  replace h := h.2
  refine h.imp (fun h => ⟨⟨h.1, h.2.1⟩, h.2.2⟩) fun h => ?_
  replace h := h.2
  refine h.imp (fun h => ⟨⟨h.1, h.2.1⟩, h.2.2⟩) fun h => ?_
  replace h := h.2
  exact ⟨⟨h.1, h.2.1⟩, h.2.2⟩

/-- R102: every request but `WRITE_BLOCK` is one word long. -/
theorem decodeRequest_single {w : Word} {i : Instr} {rest : List Word} (h : ¬ opOf w = 0x12)
    (hd : decodeSingle w = .ok i) : decodeRequest (w :: rest) = .ok (i, rest) := by
  simp [decodeRequest, h, hd]

/-- R102: a `WRITE_BLOCK` header takes its payload words with it. -/
theorem decodeRequest_block {bytes : List Byte} (rest : List Word) (hl : bytes.length ≤ 255) :
    decodeRequest (headerWord (.writeBlock bytes) :: (bytes.map payloadWord ++ rest)) = .ok (.writeBlock bytes, rest) := by
  have hb : bytes.length < 2 ^ 24 := by omega
  have hop : opOf (word 0x12 bytes.length) = 0x12 := opOf_word (by omega) hb
  have hr : bits (word 0x12 bytes.length) 23 8 = 0 := by
    rw [bits_word (by omega) hb (by omega) (by omega)]; omega
  have hc : payloadCount (word 0x12 bytes.length) = bytes.length := by
    rw [payloadCount, if_pos hop, bits_word (by omega) hb (by omega) (by omega)]; omega
  simp [headerWord, decodeRequest, hop, hr, hc, decodePayload_encode bytes rest]

/-- The decoder answers well-formed instructions only. -/
theorem decodeRequest_wellFormed {ws : List Word} {i : Instr} {rest : List Word}
    (h : decodeRequest ws = .ok (i, rest)) : i.wellFormed = true := by
  cases ws with
  | nil => simp [decodeRequest] at h
  | cons w ws =>
    simp only [decodeRequest] at h
    split at h
    · split at h
      · cases hd : decodePayload (payloadCount w) ws with
        | error e => rw [hd] at h; cases h
        | ok p =>
          obtain ⟨bs, r⟩ := p
          rw [hd] at h
          cases h
          have := decodePayload_length hd
          have := payloadCount_le w
          simp [Instr.wellFormed]
          omega
      · cases h
    · cases hd : decodeSingle w with
      | error e => rw [hd] at h; cases h
      | ok j =>
        rw [hd] at h
        cases h
        rcases decodeSingle_cases hd with h | h | h | h | h | h | h | h | h | h | h | h | h <;> obtain ⟨-, rfl⟩ := h <;> rfl

/-- An event is no request: nothing on the request port decodes to one. -/
theorem decodeRequest_not_event {ws : List Word} {i : Instr} {rest : List Word}
    (h : decodeRequest ws = .ok (i, rest)) : i.isEvent = false := by
  cases ws with
  | nil => simp [decodeRequest] at h
  | cons w ws =>
    simp only [decodeRequest] at h
    split at h
    · split at h
      · cases hd : decodePayload (payloadCount w) ws with
        | error e => rw [hd] at h; cases h
        | ok p => obtain ⟨bs, r⟩ := p; rw [hd] at h; cases h; rfl
      · cases h
    · cases hd : decodeSingle w with
      | error e => rw [hd] at h; cases h
      | ok j =>
        rw [hd] at h
        cases h
        rcases decodeSingle_cases hd with h | h | h | h | h | h | h | h | h | h | h | h | h <;> obtain ⟨-, rfl⟩ := h <;> rfl

/-- The event of a code. -/
theorem decodeEvent_status {code : Nat} (low : BitVec 3) (din : Byte) (h : code < 32) :
    decodeEvent (BitVec.ofNat 8 (code * 8 + low.toNat)) din = eventOfCode code low din := by
  have hl := low.isLt
  have hs : (BitVec.ofNat 8 (code * 8 + low.toNat)).toNat = code * 8 + low.toNat := by
    simp only [BitVec.toNat_ofNat]; omega
  simp only [decodeEvent, hs]
  rw [show (code * 8 + low.toNat) / 8 = code by omega, show (code * 8 + low.toNat) % 8 = low.toNat by omega]
  simp

end Sys2Proof
end

