-- ==== Sys2Proof/Laws/PerInstr.lean ====
section
/-! SUPPORT. The families of statements about every instruction as syntax, one lemma per constructor: `RoundTrip`, that
decoding an instruction's words gives it back. -/

namespace Sys2Proof

/-- A one-word request that the decoder reads from its header word. -/
theorem decode_single {i : Instr} {op b : Nat} (ho : op < 256) (hb : b < 2 ^ 24) (hne : op ≠ 0x12)
    (he : i.isEvent = false) (hp : payloadWords i = []) (hw : headerWord i = word op b)
    (hd : opOf (word op b) = op → decodeSingle (word op b) = .ok i) : decode (encode i) = .ok i := by
  have hop : ¬ opOf (word op b) = 18 := by rw [opOf_word ho hb]; exact hne
  have hr : decodeRequest [word op b] = .ok (i, []) := decodeRequest_single hop (hd (opOf_word ho hb))
  unfold encode
  rw [he, hp, hw, if_neg Bool.false_ne_true, decode, hr]

theorem byteOf_word {op : Nat} (ho : op < 256) (b : Byte) : byteOf (word op b.toNat) = b := by
  have hb := b.isLt
  rw [byteOf, bits_word ho (by omega) (by omega) (by omega)]
  apply BitVec.eq_of_toNat_eq
  simp only [BitVec.toNat_ofNat]
  omega

theorem addrOf_word {op : Nat} (ho : op < 256) (a : BitVec 7) : addrOf (word op a.toNat) = a := by
  have ha := a.isLt
  rw [addrOf, bits_word ho (by omega) (by omega) (by omega)]
  apply BitVec.eq_of_toNat_eq
  simp only [BitVec.toNat_ofNat]
  omega

theorem freqOf_word {op : Nat} (ho : op < 256) (f : BitVec 24) : freqOf (word op f.toNat) = f := by
  have hf := f.isLt
  rw [freqOf, bits_word ho (by omega) (by omega) (by omega)]
  apply BitVec.eq_of_toNat_eq
  simp only [BitVec.toNat_ofNat]
  omega

/-- The reserved bits above a 7-bit or 8-bit operand are zero. -/
theorem reserved_word {op b lo : Nat} (ho : op < 256) (hb : b < 2 ^ lo) (hl : lo ≤ 23) :
    bits (word op b) 23 lo = 0 := by
  have h24 : b < 2 ^ 24 := lt_of_lt_of_le hb (Nat.pow_le_pow_right (by omega) (by omega))
  rw [bits_word ho h24 (by omega) hl, Nat.div_eq_of_lt hb, Nat.zero_mod]

theorem decode_event {i : Instr} {code : Nat} {low : BitVec 3} {din : Byte} (hf : eventFields i = some (code, low, din))
    (hc : code < 32) (hi : eventOfCode code low din = i) : decode (encode i) = .ok i := by
  simp only [encode, Instr.isEvent, statusByte, dataByte, hf, Option.isSome_some, if_true, decode]
  rw [decodeEvent_status low din hc, hi]

namespace Laws.RoundTrip

/-- Decoding the words of a well-formed instruction gives it back. -/
def Statement (i : Instr) : Prop := i.wellFormed = true → decode (encode i) = .ok i

theorem beginMaster (f : BitVec 24) : Statement (.beginMaster f) := by
  intro _
  have h := f.isLt
  refine decode_single (by omega) h (by omega) rfl rfl rfl fun hop => ?_
  simp [decodeSingle, hop, freqOf_word]

theorem setFrequency (f : BitVec 24) : Statement (.setFrequency f) := by
  intro _
  have h := f.isLt
  refine decode_single (by omega) h (by omega) rfl rfl rfl fun hop => ?_
  simp [decodeSingle, hop, freqOf_word]

theorem beginSlave (a : BitVec 7) : Statement (.beginSlave a) := by
  intro _
  have h := a.isLt
  refine decode_single (by omega) (by omega) (by omega) rfl rfl rfl fun hop => ?_
  simp [decodeSingle, hop, ifReservedZero, reserved_word _ h, addrOf_word]

theorem beginTransmission (a : BitVec 7) : Statement (.beginTransmission a) := by
  intro _
  have h := a.isLt
  refine decode_single (by omega) (by omega) (by omega) rfl rfl rfl fun hop => ?_
  simp [decodeSingle, hop, ifReservedZero, reserved_word _ h, addrOf_word]

theorem setOnReceive (b : BitVec 8) : Statement (.setOnReceive b) := by
  intro _
  have h := b.isLt
  refine decode_single (by omega) (by omega) (by omega) rfl rfl rfl fun hop => ?_
  simp [decodeSingle, hop, ifReservedZero, reserved_word _ h, byteOf_word]

theorem setOnTransmit (b : BitVec 8) : Statement (.setOnTransmit b) := by
  intro _
  have h := b.isLt
  refine decode_single (by omega) (by omega) (by omega) rfl rfl rfl fun hop => ?_
  simp [decodeSingle, hop, ifReservedZero, reserved_word _ h, byteOf_word]

theorem write (b : BitVec 8) : Statement (.write b) := by
  intro _
  have h := b.isLt
  refine decode_single (by omega) (by omega) (by omega) rfl rfl rfl fun hop => ?_
  simp [decodeSingle, hop, ifReservedZero, reserved_word _ h, byteOf_word]

theorem writeBlockPayload (b : BitVec 8) : Statement (.writeBlockPayload b) := by
  intro _
  have h := b.isLt
  refine decode_single (by omega) (by omega) (by omega) rfl rfl rfl fun hop => ?_
  simp [decodeSingle, hop, ifReservedZero, reserved_word _ h, byteOf_word]

theorem endBus : Statement .endBus := by
  intro _
  rfl

theorem available : Statement .available := by
  intro _
  rfl

theorem read : Statement .read := by
  intro _
  rfl

theorem endTransmission (s : Bool) : Statement (.endTransmission s) := by
  intro _
  cases s <;> rfl

theorem requestFrom (a : BitVec 7) (q : Byte) (s : Bool) : Statement (.requestFrom a q s) := by
  intro _
  have ha := a.isLt
  have hq := q.isLt
  have hs : s.toNat ≤ 1 := by cases s <;> decide
  have hb : s.toNat * 2 ^ 16 + q.toNat * 2 ^ 8 + a.toNat < 2 ^ 24 := by omega
  have hl : ∀ hi lo, hi < 24 → lo ≤ hi → bits (word 0x20 (s.toNat * 2 ^ 16 + q.toNat * 2 ^ 8 + a.toNat)) hi lo =
      (s.toNat * 2 ^ 16 + q.toNat * 2 ^ 8 + a.toNat) / 2 ^ lo % 2 ^ (hi + 1 - lo) :=
    fun hi lo => bits_word (by omega) hb
  have h1 : bits (word 0x20 (s.toNat * 2 ^ 16 + q.toNat * 2 ^ 8 + a.toNat)) 23 17 = 0 := by
    rw [hl _ _ (by omega) (by omega)]; omega
  have h2 : bits (word 0x20 (s.toNat * 2 ^ 16 + q.toNat * 2 ^ 8 + a.toNat)) 7 7 = 0 := by
    rw [hl _ _ (by omega) (by omega)]; omega
  have h3 : bits (word 0x20 (s.toNat * 2 ^ 16 + q.toNat * 2 ^ 8 + a.toNat)) 6 0 = a.toNat := by
    rw [hl _ _ (by omega) (by omega)]; omega
  have h4 : bits (word 0x20 (s.toNat * 2 ^ 16 + q.toNat * 2 ^ 8 + a.toNat)) 15 8 = q.toNat := by
    rw [hl _ _ (by omega) (by omega)]; omega
  have h5 : bits (word 0x20 (s.toNat * 2 ^ 16 + q.toNat * 2 ^ 8 + a.toNat)) 16 16 = s.toNat := by
    rw [hl _ _ (by omega) (by omega)]; omega
  have h6 : (s.toNat == 1) = s := by cases s <;> rfl
  refine decode_single (by omega) hb (by omega) rfl rfl rfl fun hop => ?_
  simp only [decodeSingle, hop, Nat.reduceEqDiff, if_false, if_true, ifReservedZero, addrOf, quantityOf, h1, h2, h3,
    h4, h5, h6, BitVec.ofNat_toNat, BitVec.setWidth_eq, beq_self_eq_true, Bool.and_self]

theorem writeBlock (bytes : List Byte) : Statement (.writeBlock bytes) := by
  intro h
  have hd := decodeRequest_block (bytes := bytes) [] (by simpa [Instr.wellFormed] using h)
  rw [List.append_nil] at hd
  simp [encode, Instr.isEvent, eventFields, payloadWords, decode, hd]

theorem evtStart (low : BitVec 3) (din : Byte) : Statement (.evtStart low din) :=
  fun _ => decode_event rfl (by decide) rfl

theorem evtRepStart (low : BitVec 3) (din : Byte) : Statement (.evtRepStart low din) :=
  fun _ => decode_event rfl (by decide) rfl

theorem evtMtSlaAck (low : BitVec 3) (din : Byte) : Statement (.evtMtSlaAck low din) :=
  fun _ => decode_event rfl (by decide) rfl

theorem evtMtDataAck (low : BitVec 3) (din : Byte) : Statement (.evtMtDataAck low din) :=
  fun _ => decode_event rfl (by decide) rfl

theorem evtMtSlaNack (low : BitVec 3) (din : Byte) : Statement (.evtMtSlaNack low din) :=
  fun _ => decode_event rfl (by decide) rfl

theorem evtMtDataNack (low : BitVec 3) (din : Byte) : Statement (.evtMtDataNack low din) :=
  fun _ => decode_event rfl (by decide) rfl

theorem evtArbLost (low : BitVec 3) (din : Byte) : Statement (.evtArbLost low din) :=
  fun _ => decode_event rfl (by decide) rfl

theorem evtMrSlaAck (low : BitVec 3) (din : Byte) : Statement (.evtMrSlaAck low din) :=
  fun _ => decode_event rfl (by decide) rfl

theorem evtMrDataAck (low : BitVec 3) (din : Byte) : Statement (.evtMrDataAck low din) :=
  fun _ => decode_event rfl (by decide) rfl

theorem evtMrDataNack (low : BitVec 3) (din : Byte) : Statement (.evtMrDataNack low din) :=
  fun _ => decode_event rfl (by decide) rfl

theorem evtMrSlaNack (low : BitVec 3) (din : Byte) : Statement (.evtMrSlaNack low din) :=
  fun _ => decode_event rfl (by decide) rfl

theorem evtSrSlaAck (low : BitVec 3) (din : Byte) : Statement (.evtSrSlaAck low din) :=
  fun _ => decode_event rfl (by decide) rfl

theorem evtSrArbLostSlaAck (low : BitVec 3) (din : Byte) : Statement (.evtSrArbLostSlaAck low din) :=
  fun _ => decode_event rfl (by decide) rfl

theorem evtSrGcallAck (low : BitVec 3) (din : Byte) : Statement (.evtSrGcallAck low din) :=
  fun _ => decode_event rfl (by decide) rfl

theorem evtSrArbLostGcallAck (low : BitVec 3) (din : Byte) : Statement (.evtSrArbLostGcallAck low din) :=
  fun _ => decode_event rfl (by decide) rfl

theorem evtSrDataAck (low : BitVec 3) (din : Byte) : Statement (.evtSrDataAck low din) :=
  fun _ => decode_event rfl (by decide) rfl

theorem evtSrGcallDataAck (low : BitVec 3) (din : Byte) : Statement (.evtSrGcallDataAck low din) :=
  fun _ => decode_event rfl (by decide) rfl

theorem evtSrDataNack (low : BitVec 3) (din : Byte) : Statement (.evtSrDataNack low din) :=
  fun _ => decode_event rfl (by decide) rfl

theorem evtSrGcallDataNack (low : BitVec 3) (din : Byte) : Statement (.evtSrGcallDataNack low din) :=
  fun _ => decode_event rfl (by decide) rfl

theorem evtSrStop (low : BitVec 3) (din : Byte) : Statement (.evtSrStop low din) :=
  fun _ => decode_event rfl (by decide) rfl

theorem evtStSlaAck (low : BitVec 3) (din : Byte) : Statement (.evtStSlaAck low din) :=
  fun _ => decode_event rfl (by decide) rfl

theorem evtStArbLostSlaAck (low : BitVec 3) (din : Byte) : Statement (.evtStArbLostSlaAck low din) :=
  fun _ => decode_event rfl (by decide) rfl

theorem evtStDataAck (low : BitVec 3) (din : Byte) : Statement (.evtStDataAck low din) :=
  fun _ => decode_event rfl (by decide) rfl

theorem evtStDataNack (low : BitVec 3) (din : Byte) : Statement (.evtStDataNack low din) :=
  fun _ => decode_event rfl (by decide) rfl

theorem evtStLastData (low : BitVec 3) (din : Byte) : Statement (.evtStLastData low din) :=
  fun _ => decode_event rfl (by decide) rfl

theorem evtBusError (low : BitVec 3) (din : Byte) : Statement (.evtBusError low din) :=
  fun _ => decode_event rfl (by decide) rfl

theorem evtNoInfo (low : BitVec 3) (din : Byte) : Statement (.evtNoInfo low din) :=
  fun _ => decode_event rfl (by decide) rfl

theorem evtUnknownD0 (low : BitVec 3) (din : Byte) : Statement (.evtUnknownD0 low din) :=
  fun _ => decode_event rfl (by decide) rfl

theorem evtUnknownD8 (low : BitVec 3) (din : Byte) : Statement (.evtUnknownD8 low din) :=
  fun _ => decode_event rfl (by decide) rfl

theorem evtUnknownE0 (low : BitVec 3) (din : Byte) : Statement (.evtUnknownE0 low din) :=
  fun _ => decode_event rfl (by decide) rfl

theorem evtUnknownE8 (low : BitVec 3) (din : Byte) : Statement (.evtUnknownE8 low din) :=
  fun _ => decode_event rfl (by decide) rfl

theorem evtUnknownF0 (low : BitVec 3) (din : Byte) : Statement (.evtUnknownF0 low din) :=
  fun _ => decode_event rfl (by decide) rfl

end Laws.RoundTrip

end Sys2Proof
end

