-- ==== Sys2Proof/Laws/Rules.lean ====
section
/-! SUPPORT. What each request's rule can do, said once: from a place of its own it never refuses, and it keeps the
buffer's canonical form, the cursors' bounds and its own place. -/

namespace Sys2Proof.Machine

open Sys2Proof

/-- The part of `Inv` that is about data: the buffer and the cursors. -/
structure DataInv (s : State) : Prop where
  buf   : Memory.wf s.buf = true
  index : s.index.toNat ≤ Config.capacity
  size  : s.size.toNat ≤ Config.capacity

/-- A step of a rule that goes on does so with `P`, one that returns does so with `Q`, and none refuses. -/
def Holds (P : Frame → State → Prop) (Q : State → Prop) : Advance → Prop
  | .goto fr s => P fr s
  | .ret _ s => Q s
  | .fault _ => True
  | .refused _ => False

@[simp] theorem holds_goto {P Q} (fr : Frame) (s : State) : Holds P Q (.goto fr s) = P fr s := rfl
@[simp] theorem holds_ret {P Q} (v : Byte) (s : State) : Holds P Q (.ret v s) = Q s := rfl
@[simp] theorem holds_fault {P Q} (r : Fault) : Holds P Q (.fault r) = True := rfl
@[simp] theorem holds_refused {P Q} (r : Refusal) : Holds P Q (.refused r) = False := rfl

/-- What a rule owes at its first step and at every place it has. -/
def RuleKeeps (i : Instr) (rule : Frame → State → Advance) : Prop :=
  ∀ fr s, (fr = atStep 1 ∨ frameOk i fr = true) → DataInv s →
    Holds (fun fr' t => DataInv t ∧ frameOk i fr' = true ∧ t.kH = s.kH) (fun t => DataInv t ∧ t.kH = s.kH) (rule fr s)

theorem between_iff {lo hi k : Nat} : between lo hi k = true ↔ lo ≤ k ∧ k ≤ hi := by simp [between]

theorem beginMasterRule_keeps (f : BitVec 24) : RuleKeeps (.beginMaster f) (beginMasterRule f) := by
  intro fr s hfr ⟨h1, h2, h3⟩
  have hk : fr.step = 1 ∨ fr.step = 2 ∨ fr.step = 3 ∨ fr.step = 4 ∨ fr.step = 5 := by
    rcases hfr with rfl | h
    · exact .inl rfl
    · simp only [frameOk, between_iff] at h; omega
  rcases hk with h | h | h | h | h <;> simp only [beginMasterRule, h]
  · split
    · exact ⟨⟨h1, h2, h3⟩, rfl⟩
    · exact ⟨⟨h1, h2, h3⟩, rfl, rfl⟩
  · exact ⟨⟨h1, h2, h3⟩, rfl, rfl⟩
  · split
    · exact ⟨⟨h1, h2, h3⟩, rfl, rfl⟩
    · trivial
  · exact ⟨⟨h1, h2, h3⟩, rfl, rfl⟩
  · exact ⟨⟨h1, h2, h3⟩, rfl⟩

theorem beginSlaveRule_keeps (a : BitVec 7) : RuleKeeps (.beginSlave a) (beginSlaveRule a) := by
  intro fr s hfr ⟨h1, h2, h3⟩
  have hk : fr.step = 1 ∨ fr.step = 2 ∨ fr.step = 3 ∨ fr.step = 4 ∨ fr.step = 5 := by
    rcases hfr with rfl | h
    · exact .inl rfl
    · simp only [frameOk, between_iff] at h; omega
  rcases hk with h | h | h | h | h <;> simp only [beginSlaveRule, h]
  · split
    · exact ⟨⟨h1, h2, h3⟩, rfl⟩
    · exact ⟨⟨h1, h2, h3⟩, rfl, rfl⟩
  · exact ⟨⟨h1, h2, h3⟩, rfl, rfl⟩
  · exact ⟨⟨h1, h2, h3⟩, rfl, rfl⟩
  · exact ⟨⟨h1, h2, h3⟩, rfl, rfl⟩
  · exact ⟨⟨h1, h2, h3⟩, rfl⟩

theorem setFrequencyRule_keeps (f : BitVec 24) : RuleKeeps (.setFrequency f) (setFrequencyRule f) := by
  intro fr s hfr ⟨h1, h2, h3⟩
  have hk : fr.step = 1 ∨ fr.step = 2 ∨ fr.step = 3 := by
    rcases hfr with rfl | h
    · exact .inl rfl
    · simp only [frameOk, between_iff] at h; omega
  rcases hk with h | h | h <;> simp only [setFrequencyRule, h]
  · split
    · exact ⟨⟨h1, h2, h3⟩, rfl, rfl⟩
    · trivial
  · split
    · exact ⟨⟨h1, h2, h3⟩, rfl, rfl⟩
    · exact ⟨⟨h1, h2, h3⟩, rfl⟩
  · split
    · exact ⟨⟨h1, h2, h3⟩, rfl⟩
    · trivial

theorem endRule_keeps : RuleKeeps .endBus endRule := by
  intro fr s hfr ⟨h1, h2, h3⟩
  have hk : fr.step = 1 ∨ fr.step = 2 ∨ fr.step = 3 ∨ fr.step = 4 ∨ fr.step = 5 := by
    rcases hfr with rfl | h
    · exact .inl rfl
    · simp only [frameOk, between_iff] at h; omega
  rcases hk with h | h | h | h | h <;> simp only [endRule, h]
  · split
    · exact ⟨⟨h1, h2, h3⟩, rfl, rfl⟩
    · exact ⟨⟨h1, h2, h3⟩, rfl⟩
  · exact ⟨⟨h1, h2, h3⟩, rfl, rfl⟩
  · exact ⟨⟨h1, h2, h3⟩, rfl, rfl⟩
  · exact ⟨⟨h1, h2, h3⟩, rfl, rfl⟩
  · exact ⟨⟨h1, h2, h3⟩, rfl⟩

theorem setOnReceiveRule_keeps (b : Byte) : RuleKeeps (.setOnReceive b) (setOnReceiveRule b) := by
  intro fr s hfr ⟨h1, h2, h3⟩
  rcases hfr with rfl | h
  · exact ⟨⟨h1, h2, h3⟩, rfl⟩
  · cases h

theorem setOnTransmitRule_keeps (b : Byte) : RuleKeeps (.setOnTransmit b) (setOnTransmitRule b) := by
  intro fr s hfr ⟨h1, h2, h3⟩
  rcases hfr with rfl | h
  · exact ⟨⟨h1, h2, h3⟩, rfl⟩
  · cases h

theorem payloadRule_keeps (b : Byte) : RuleKeeps (.writeBlockPayload b) (payloadRule b) := by
  intro fr s hfr _
  rcases hfr with rfl | h
  · trivial
  · cases h

theorem issueThen_holds {P : Frame → State → Prop} {Q : State → Prop} {fr : Frame} {s : State}
    (h : ∀ t, issueAddress s = .next t → P fr t) : Holds P Q (issueThen fr s) := by
  unfold issueThen
  cases hi : issueAddress s with
  | next t => exact h t hi
  | fault r => trivial
  | refused r => unfold issueAddress at hi; split at hi <;> (try split at hi) <;> cases hi

theorem issueAddress_keeps {s t : State} (h : issueAddress s = .next t) (hd : DataInv s) :
    DataInv t ∧ t.kH = s.kH := by
  obtain ⟨h1, h2, h3⟩ := hd
  rcases issueAddress_eq_next.1 h with ⟨-, a, -, rfl⟩ | ⟨-, rfl⟩ <;> exact ⟨⟨h1, h2, h3⟩, rfl⟩

theorem beginTransmissionRule_keeps (a : BitVec 7) : RuleKeeps (.beginTransmission a) (beginTransmissionRule a) := by
  intro fr s hfr ⟨h1, h2, h3⟩
  have hk : fr.step = 1 ∨ fr.step = 2 ∨ fr.step = 3 ∨ fr.step = 4 ∨ fr.step = 5 ∨ fr.step = 6 := by
    rcases hfr with rfl | h
    · exact .inl rfl
    · simp only [frameOk, between_iff] at h; omega
  rcases hk with h | h | h | h | h | h <;> simp only [beginTransmissionRule, h]
  · split
    · trivial
    · split
      · exact ⟨⟨h1, h2, h3⟩, rfl⟩
      · exact ⟨⟨h1, h2, h3⟩, rfl, rfl⟩
  · split <;> exact ⟨⟨h1, h2, h3⟩, rfl, rfl⟩
  · exact ⟨⟨h1, h2, h3⟩, rfl, rfl⟩
  · exact ⟨⟨h1, h2, h3⟩, rfl, rfl⟩
  · exact ⟨⟨h1, Nat.zero_le _, h3⟩, rfl, rfl⟩
  · exact ⟨⟨h1, h2, Nat.zero_le _⟩, rfl⟩

theorem endTransmissionRule_keeps (b : Bool) : RuleKeeps (.endTransmission b) (endTransmissionRule b) := by
  intro fr s hfr ⟨h1, h2, h3⟩
  have hk : fr.step = 1 ∨ fr.step = 2 ∨ fr.step = 3 ∨ fr.step = 4 ∨ fr.step = 5 ∨ fr.step = 6 := by
    rcases hfr with rfl | h
    · exact .inl rfl
    · simp only [frameOk, between_iff] at h; omega
  rcases hk with h | h | h | h | h | h <;> simp only [endTransmissionRule, h]
  · split
    · trivial
    · split
      · exact ⟨⟨h1, h2, h3⟩, rfl⟩
      · exact ⟨⟨h1, h2, h3⟩, rfl, rfl⟩
  · exact ⟨⟨h1, h2, h3⟩, rfl, rfl⟩
  · exact ⟨⟨h1, h2, h3⟩, rfl, rfl⟩
  · exact issueThen_holds fun t ht => by
      have := issueAddress_keeps ht ⟨h1, h2, h3⟩
      exact ⟨this.1, rfl, this.2⟩
  · split <;> exact ⟨⟨h1, h2, h3⟩, rfl, rfl⟩
  · split
    · exact ⟨⟨h1, h2, h3⟩, rfl⟩
    · trivial

/-- The three steps of R171, for whichever request runs them. -/
theorem writeByteRule_keeps (by_ : Instr) (b : Byte) {fr : Frame} {s : State}
    (hfr : fr.step = 1 ∨ ((fr.step = 2 ∨ fr.step = 3) ∧ fr.n.toNat < Config.capacity)) (hd : DataInv s) :
    Holds (fun fr' t => DataInv t ∧ ((fr'.step = 2 ∨ fr'.step = 3) ∧ fr'.n.toNat < Config.capacity) ∧ t.kH = s.kH)
      (fun t => DataInv t ∧ t.kH = s.kH) (writeByteRule by_ b fr s) := by
  obtain ⟨h1, h2, h3⟩ := hd
  rcases hfr with h | ⟨h | h, hn⟩ <;> simp only [writeByteRule, h]
  · split
    · exact ⟨⟨h1, h2, h3⟩, rfl⟩
    · exact ⟨⟨h1, h2, h3⟩, ⟨.inl rfl, by show s.size.toNat < _; omega⟩, rfl⟩
  · cases hw : bufWrite by_ fr.n.toNat b s with
    | error r => trivial
    | ok t =>
      obtain ⟨hlt, rfl⟩ := bufWrite_eq_ok.1 hw
      exact ⟨⟨Memory.wf_write b h1 hlt, h2, h3⟩, ⟨.inr rfl, hn⟩, rfl⟩
  · refine ⟨⟨h1, h2, ?_⟩, rfl⟩
    have : (fr.n + 1).toNat = fr.n.toNat + 1 := by
      rw [BitVec.toNat_add]; simp [Config.capacity] at hn ⊢; omega
    show (fr.n + 1).toNat ≤ _
    omega

theorem writeRule_keeps (b : Byte) : RuleKeeps (.write b) (writeByteRule (.write b) b) := by
  intro fr s hfr hd
  have hk : fr.step = 1 ∨ ((fr.step = 2 ∨ fr.step = 3) ∧ fr.n.toNat < Config.capacity) := by
    rcases hfr with rfl | h
    · exact .inl rfl
    · simp only [frameOk, Bool.and_eq_true, between_iff, decide_eq_true_eq] at h
      exact .inr ⟨by omega, h.2⟩
  have := writeByteRule_keeps (.write b) b hk hd
  cases hr : writeByteRule (.write b) b fr s with
  | goto fr' t =>
    rw [hr] at this
    obtain ⟨ht, ⟨hs, hn⟩, hh⟩ := this
    refine ⟨ht, ?_, hh⟩
    simp only [frameOk, Bool.and_eq_true, between_iff, decide_eq_true_eq]
    exact ⟨by omega, hn⟩
  | ret v t => rw [hr] at this; exact this
  | fault r => trivial
  | refused r => rw [hr] at this; exact this

theorem blockNext_ok (bytes : List Byte) (k : Nat) : frameOk (.writeBlock bytes) (blockNext bytes k) = true := by
  unfold blockNext
  split
  · rename_i h; simp [frameOk, h]
  · rfl

theorem writeBlockRule_keeps (bytes : List Byte) : RuleKeeps (.writeBlock bytes) (writeBlockRule bytes) := by
  intro fr s hfr hd
  have hk : fr.step = 1 ∨ fr.step = 3 ∨ (fr.k < bytes.length ∧ (fr.step = 21 ∨
      ((fr.step = 22 ∨ fr.step = 23) ∧ fr.n.toNat < Config.capacity))) := by
    rcases hfr with rfl | h
    · exact .inl rfl
    · simp only [frameOk, Bool.or_eq_true, Bool.and_eq_true, between_iff, decide_eq_true_eq, beq_iff_eq] at h
      rcases h with h | ⟨h, h' | ⟨h', hn⟩⟩
      · exact .inr (.inl h)
      · exact .inr (.inr ⟨h, .inl h'⟩)
      · exact .inr (.inr ⟨h, .inr ⟨by omega, hn⟩⟩)
  rcases hk with h | h | ⟨hk, hs⟩
  · simp only [writeBlockRule, h]
    exact ⟨hd, blockNext_ok bytes 0, rfl⟩
  · simp only [writeBlockRule, h]
    exact ⟨hd, rfl⟩
  · have hb : bytes[fr.k]? = some bytes[fr.k] := List.getElem?_eq_getElem hk
    have hsub : fr.step - 20 = 1 ∨ ((fr.step - 20 = 2 ∨ fr.step - 20 = 3) ∧ fr.n.toNat < Config.capacity) := by
      omega
    have key := writeByteRule_keeps (.writeBlock bytes) bytes[fr.k] (fr := { step := fr.step - 20, n := fr.n }) hsub hd
    have heq : writeBlockRule bytes fr s =
        match writeByteRule (.writeBlock bytes) bytes[fr.k] { step := fr.step - 20, n := fr.n } s with
        | .goto fr' t => .goto { step := fr'.step + 20, n := fr'.n, k := fr.k } t
        | .ret r t => if r = 0 then .ret (BitVec.ofNat 8 fr.k) t else .goto (blockNext bytes (fr.k + 1)) t
        | .fault r => .fault r
        | .refused r => .refused r := by
      rcases hs with h | ⟨h | h, -⟩ <;> simp only [writeBlockRule, h, hb] <;>
        (generalize writeByteRule _ _ _ _ = x; cases x <;> rfl)
    rw [heq]
    cases hr : writeByteRule (.writeBlock bytes) bytes[fr.k] { step := fr.step - 20, n := fr.n } s with
    | goto fr' t =>
      rw [hr] at key
      obtain ⟨ht, ⟨hs', hn⟩, hh⟩ := key
      refine ⟨ht, ?_, hh⟩
      simp only [frameOk, Bool.or_eq_true, Bool.and_eq_true, between_iff, decide_eq_true_eq, beq_iff_eq]
      exact .inr ⟨hk, .inr ⟨by omega, hn⟩⟩
    | ret v t =>
      rw [hr] at key
      show Holds _ _ (if v = 0 then _ else _)
      split
      · exact key
      · exact ⟨key.1, blockNext_ok bytes _, key.2⟩
    | fault r => trivial
    | refused r => rw [hr] at key; exact key

theorem requestFromRule_keeps (a : BitVec 7) (q : Byte) (b : Bool) :
    RuleKeeps (.requestFrom a q b) (requestFromRule a q b) := by
  intro fr s hfr ⟨h1, h2, h3⟩
  by_cases hone : fr.step = 1
  · simp only [requestFromRule, hone]
    split
    · trivial
    · split
      · exact ⟨⟨h1, h2, h3⟩, rfl⟩
      · split
        · exact ⟨⟨h1, h2, h3⟩, rfl⟩
        · split
          · trivial
          · rename_i hcap hq
            refine ⟨⟨h1, h2, h3⟩, ?_, rfl⟩
            have : q.toNat ≠ 0 := fun h0 => hq (BitVec.eq_of_toNat_eq h0)
            have hb : between 1 Config.capacity q.toNat = true := between_iff.2 (by omega)
            simp only [frameOk, hb]
            rfl
  · have hk : (1 ≤ q.toNat ∧ q.toNat ≤ Config.capacity) ∧
        ((2 ≤ fr.step ∧ fr.step ≤ 10) ∨ (fr.step = 11 ∧ fr.n.toNat ≤ Config.capacity)) := by
      rcases hfr with rfl | h
      · exact absurd rfl hone
      · simpa only [frameOk, Bool.or_eq_true, Bool.and_eq_true, between_iff, decide_eq_true_eq, beq_iff_eq] using h
    obtain ⟨hq, hk⟩ := hk
    have hqb : between 1 Config.capacity q.toNat = true := between_iff.2 hq
    have hok : ∀ k, 2 ≤ k → k ≤ 10 → frameOk (.requestFrom a q b) (atStep k) = true := by
      intro k hk1 hk2
      have : between 2 10 k = true := between_iff.2 ⟨hk1, hk2⟩
      simp only [frameOk, atStep, hqb, this]
      rfl
    have hc : (clampCount q s.index).toNat ≤ Config.capacity := by
      unfold clampCount; split <;> omega
    have hcases : fr.step = 2 ∨ fr.step = 3 ∨ fr.step = 4 ∨ fr.step = 5 ∨ fr.step = 6 ∨ fr.step = 7 ∨ fr.step = 8 ∨
        fr.step = 9 ∨ fr.step = 10 ∨ (fr.step = 11 ∧ fr.n.toNat ≤ Config.capacity) := by omega
    rcases hcases with h | h | h | h | h | h | h | h | h | ⟨h, hn⟩ <;> simp only [requestFromRule, h]
    · split <;> exact ⟨⟨h1, h2, h3⟩, hok _ (by omega) (by omega), rfl⟩
    · exact ⟨⟨h1, h2, h3⟩, hok _ (by omega) (by omega), rfl⟩
    · exact ⟨⟨h1, h2, h3⟩, hok _ (by omega) (by omega), rfl⟩
    · exact ⟨⟨h1, Nat.zero_le _, h3⟩, hok _ (by omega) (by omega), rfl⟩
    · refine ⟨⟨h1, h2, ?_⟩, hok _ (by omega) (by omega), rfl⟩
      have := q.isLt
      show (q - 1).toNat ≤ _
      rw [BitVec.toNat_sub]
      simp [Config.capacity] at hq ⊢
      omega
    · exact ⟨⟨h1, h2, h3⟩, hok _ (by omega) (by omega), rfl⟩
    · exact issueThen_holds fun t ht => by
        have := issueAddress_keeps ht ⟨h1, h2, h3⟩
        exact ⟨this.1, hok _ (by omega) (by omega), this.2⟩
    · split <;> exact ⟨⟨h1, h2, h3⟩, hok _ (by omega) (by omega), rfl⟩
    · refine ⟨⟨h1, h2, hc⟩, ?_, rfl⟩
      simp only [frameOk, hqb, hc, decide_true]
      rfl
    · exact ⟨⟨h1, Nat.zero_le _, h3⟩, rfl⟩

theorem availableRule_keeps : RuleKeeps .available availableRule := by
  intro fr s hfr ⟨h1, h2, h3⟩
  have hk : fr.step = 1 ∨ fr.step = 2 := by
    rcases hfr with rfl | h
    · exact .inl rfl
    · simp only [frameOk, Bool.and_eq_true, beq_iff_eq] at h; exact .inr h.1
  rcases hk with h | h <;> simp only [availableRule, h]
  · refine ⟨⟨h1, h2, h3⟩, ?_, rfl⟩
    simp only [frameOk, h3, decide_true]
    rfl
  · split
    · trivial
    · exact ⟨⟨h1, h2, h3⟩, rfl⟩

theorem readRule_keeps : RuleKeeps .read readRule := by
  intro fr s hfr ⟨h1, h2, h3⟩
  have hk : fr.step = 1 ∨ fr.step = 2 ∨ fr.step = 3 ∨ (fr.step = 4 ∧ fr.i.toNat < Config.capacity) := by
    rcases hfr with rfl | h
    · exact .inl rfl
    · simp only [frameOk, Bool.or_eq_true, Bool.and_eq_true, between_iff, decide_eq_true_eq, beq_iff_eq] at h
      rcases h with h | h
      · omega
      · exact .inr (.inr (.inr h))
  rcases hk with h | h | h | ⟨h, hi⟩ <;> simp only [readRule, h]
  · exact ⟨⟨h1, h2, h3⟩, rfl, rfl⟩
  · split
    · exact ⟨⟨h1, h2, h3⟩, rfl⟩
    · exact ⟨⟨h1, h2, h3⟩, rfl, rfl⟩
  · cases hr : bufRead .read fr.i.toNat s with
    | error r => trivial
    | ok v =>
      refine ⟨⟨h1, h2, h3⟩, ?_, rfl⟩
      have := (bufRead_eq_ok.1 hr).1
      simp [frameOk, this]
  · refine ⟨⟨h1, ?_, h3⟩, rfl⟩
    have : (fr.i + 1).toNat = fr.i.toNat + 1 := by
      rw [BitVec.toNat_add]; simp [Config.capacity] at hi ⊢; omega
    show (fr.i + 1).toNat ≤ _
    omega

/-- R289: every request a callback body may contain keeps the data. -/
theorem bodyRule_keeps {i : Instr} {rule : Frame → State → Advance} (h : bodyRule i = some rule) :
    RuleKeeps i rule := by
  cases i <;> simp only [bodyRule, reduceCtorEq] at h <;> cases h
  · exact setOnReceiveRule_keeps _
  · exact setOnTransmitRule_keeps _
  · exact writeRule_keeps _
  · exact writeBlockRule_keeps _
  · exact availableRule_keeps
  · exact readRule_keeps
  · exact payloadRule_keeps _

/-- A request run to its end inside a callback body keeps the data and leaves `k_H` as it was. -/
theorem runSteps_data {i : Instr} {rule : Frame → State → Advance} (hr : RuleKeeps i rule) {n : Nat} {s t : State}
    {v : Byte} (hd : DataInv s) (h : runSteps n rule (atStep 1) s = .ret v t) : DataInv t ∧ t.kH = s.kH := by
  refine runSteps_keeps (P := fun fr u => (fr = atStep 1 ∨ frameOk i fr = true) ∧ DataInv u ∧ u.kH = s.kH)
    (Q := fun u => DataInv u ∧ u.kH = s.kH) ?_ ?_ ⟨.inl rfl, hd, rfl⟩ h
  · rintro fr u fr' w ⟨hfr, hu, hh⟩ he
    have := hr fr u hfr hu
    rw [he] at this
    exact ⟨.inr this.2.1, this.1, this.2.2.trans hh⟩
  · rintro fr u v w ⟨hfr, hu, hh⟩ he
    have := hr fr u hfr hu
    rw [he] at this
    exact ⟨this.1, this.2.trans hh⟩

/-- A callback keeps the data and leaves `k_H` as it was. -/
theorem invokeCallback_data {id : Byte} {arg : Option Byte} {s t : State} (hd : DataInv s)
    (h : invokeCallback id arg s = .next t) : DataInv t ∧ t.kH = s.kH := by
  unfold invokeCallback at h
  split at h
  · cases h; exact ⟨hd, rfl⟩
  · have h0 : DataInv { s with cbLog := s.cbLog ++ [⟨id, arg⟩] } := ⟨hd.buf, hd.index, hd.size⟩
    refine runBody_keeps (P := fun u => DataInv u ∧ u.kH = s.kH) ?_ (fun _ _ _ => decodeRequest_wellFormed) ?_
      (s := { s with cbLog := s.cbLog ++ [⟨id, arg⟩] }) ⟨h0, rfl⟩ h
    · rintro i rule n u v w hb - ⟨hu, hh⟩ hs
      have := runSteps_data (bodyRule_keeps hb) hu hs
      exact ⟨this.1, this.2.trans hh⟩
    · rintro i v u ⟨⟨a, b, c⟩, hh⟩
      exact ⟨⟨a, b, c⟩, hh⟩

theorem storeByte_data {ev : Instr} {v : Byte} {s t : State} (hd : DataInv s) (h : storeByte ev v s = .next t) :
    DataInv t ∧ t.kH = s.kH := by
  obtain ⟨hlt, rfl⟩ := storeByte_eq_next.1 h
  refine ⟨⟨Memory.wf_write v hd.buf hlt, ?_, hd.size⟩, rfl⟩
  show (s.index + 1).toNat ≤ _
  rw [BitVec.toNat_add]; simp [Config.capacity] at hlt ⊢; omega

theorem sendByte_data {ev : Instr} {s t : State} (hd : DataInv s) (h : sendByte ev s = .next t) :
    DataInv t ∧ t.kH = s.kH := by
  obtain ⟨v, hlt, -, rfl⟩ := sendByte_eq_next.1 h
  refine ⟨⟨hd.buf, ?_, hd.size⟩, rfl⟩
  show (s.index + 1).toNat ≤ _
  rw [BitVec.toNat_add]; simp [Config.capacity] at hlt ⊢; omega

theorem finishMaster_data {ev : Instr} {s t : State} (hd : DataInv s) (h : finishMaster ev s = .next t) :
    DataInv t ∧ (t.kH = .stopWait ev ∨ t.kH = s.kH) := by
  rcases finishMaster_eq_next.1 h with ⟨-, rfl⟩ | ⟨-, rfl⟩
  · exact ⟨⟨hd.buf, hd.index, hd.size⟩, .inl rfl⟩
  · exact ⟨⟨hd.buf, hd.index, hd.size⟩, .inr rfl⟩

end Sys2Proof.Machine
end

