-- ==== Sys2Proof/Laws/Callback.lean ====
section
/-! SUPPORT. What a callback body can change (44_bus_primitives.md R288, R289): the buffer, the cursors, the two callback
ids and the logs of the callbacks. Every other field is as it was. -/

namespace Sys2Proof.Machine

open Sys2Proof

/-- `t` is `s` but for what a callback body may write, and its two logs only grew. -/
structure BodyFrame (s t : State) : Prop where
  rest : t = { s with buf := t.buf, index := t.index, size := t.size, onRx := t.onRx, onTx := t.onTx,
                      cbLog := t.cbLog, bodyLog := t.bodyLog }
  cb   : s.cbLog <+: t.cbLog
  body : s.bodyLog <+: t.bodyLog

/-- A change of the buffer, the cursors and the callback ids alone. -/
theorem BodyFrame.of_eq {s t : State}
    (h : t = { s with buf := t.buf, index := t.index, size := t.size, onRx := t.onRx, onTx := t.onTx }) :
    BodyFrame s t := by
  have h1 : t.cbLog = s.cbLog := by rw [h]
  have h2 : t.bodyLog = s.bodyLog := by rw [h]
  exact ⟨by rw [h1, h2]; exact h, by rw [h1], by rw [h2]⟩

theorem BodyFrame.refl (s : State) : BodyFrame s s := .of_eq rfl

theorem BodyFrame.trans {s t u : State} (h : BodyFrame s t) (g : BodyFrame t u) : BodyFrame s u := by
  refine ⟨?_, h.cb.trans g.cb, h.body.trans g.body⟩
  rw [g.rest, h.rest]

/-- An advance that goes on, or returns, does so in the frame of `s`. -/
def AdvanceFrame (s : State) : Advance → Prop
  | .goto _ t => BodyFrame s t
  | .ret _ t => BodyFrame s t
  | .fault _ => True
  | .refused _ => True

@[simp] theorem advanceFrame_goto (s t : State) (fr : Frame) : AdvanceFrame s (.goto fr t) = BodyFrame s t := rfl
@[simp] theorem advanceFrame_ret (s t : State) (v : Byte) : AdvanceFrame s (.ret v t) = BodyFrame s t := rfl
@[simp] theorem advanceFrame_fault (s : State) (r : Fault) : AdvanceFrame s (.fault r) = True := rfl
@[simp] theorem advanceFrame_refused (s : State) (r : Refusal) : AdvanceFrame s (.refused r) = True := rfl

theorem writeByteRule_frame (by_ : Instr) (b : Byte) (fr : Frame) (s : State) :
    AdvanceFrame s (writeByteRule by_ b fr s) := by
  unfold writeByteRule
  split
  · split <;> exact BodyFrame.refl s
  · split
    · rename_i h
      obtain ⟨-, rfl⟩ := bufWrite_eq_ok.1 h
      exact .of_eq rfl
    · trivial
  · exact .of_eq rfl
  · trivial

theorem writeBlockRule_frame (bytes : List Byte) (fr : Frame) (s : State) :
    AdvanceFrame s (writeBlockRule bytes fr s) := by
  have inner : ∀ (b : Byte) (fr' : Frame) (k : Nat), AdvanceFrame s
      (match writeByteRule (.writeBlock bytes) b fr' s with
        | .goto g t => .goto { step := g.step + 20, n := g.n, k := k } t
        | .ret r t => if r = 0 then .ret (BitVec.ofNat 8 k) t else .goto (blockNext bytes (k + 1)) t
        | .fault r => .fault r
        | .refused r => .refused r) := by
    intro b fr' k
    have := writeByteRule_frame (.writeBlock bytes) b fr' s
    cases h : writeByteRule (.writeBlock bytes) b fr' s with
    | goto g t => rw [h] at this; exact this
    | ret r t =>
      rw [h] at this
      show AdvanceFrame s (if r = 0 then _ else _)
      split <;> exact this
    | fault r => trivial
    | refused r => trivial
  unfold writeBlockRule
  split
  · exact BodyFrame.refl s
  · exact BodyFrame.refl s
  rotate_right
  · trivial
  all_goals
    split
    · trivial
    · exact inner _ _ _

theorem availableRule_frame (fr : Frame) (s : State) : AdvanceFrame s (availableRule fr s) := by
  unfold availableRule
  split
  · exact BodyFrame.refl s
  · split
    · trivial
    · exact BodyFrame.refl s
  · trivial

theorem readRule_frame (fr : Frame) (s : State) : AdvanceFrame s (readRule fr s) := by
  unfold readRule
  split
  · exact BodyFrame.refl s
  · split <;> exact BodyFrame.refl s
  · split
    · exact BodyFrame.refl s
    · trivial
  · exact BodyFrame.of_eq rfl
  · trivial

/-- Each step of a request a body may contain keeps the frame. -/
theorem bodyRule_frame {i : Instr} {rule : Frame → State → Advance} (h : bodyRule i = some rule) (fr : Frame)
    (s : State) : AdvanceFrame s (rule fr s) := by
  cases i <;> simp only [bodyRule, reduceCtorEq] at h <;> cases h
  · unfold setOnReceiveRule
    split
    · exact BodyFrame.of_eq rfl
    · trivial
  · unfold setOnTransmitRule
    split
    · exact BodyFrame.of_eq rfl
    · trivial
  · exact writeByteRule_frame _ _ _ _
  · exact writeBlockRule_frame _ _ _
  · exact availableRule_frame _ _
  · exact readRule_frame _ _
  · unfold payloadRule; split <;> trivial

/-- A request run to its end inside a body keeps the frame. -/
theorem runSteps_frame {i : Instr} {rule : Frame → State → Advance} (h : bodyRule i = some rule) {n : Nat}
    {fr : Frame} {s t : State} {v : Byte} (hr : runSteps n rule fr s = .ret v t) : BodyFrame s t := by
  refine runSteps_keeps (P := fun _ u => BodyFrame s u) (Q := BodyFrame s) ?_ ?_ (BodyFrame.refl s) hr
  · intro fr u fr' w hu he
    have := bodyRule_frame h fr u
    rw [he] at this
    exact hu.trans this
  · intro fr u v w hu he
    have := bodyRule_frame h fr u
    rw [he] at this
    exact hu.trans this

/-- A body keeps the frame. -/
theorem runBody_frame {n : Nat} {ws : List Word} {s t : State} (h : runBody n ws s = .next t) : BodyFrame s t := by
  refine runBody_keeps (P := BodyFrame s) ?_ (fun _ _ _ => decodeRequest_wellFormed) ?_ (BodyFrame.refl s) h
  · intro i rule n u v w hb _ hu hs
    exact hu.trans (runSteps_frame hb hs)
  · intro i v u hu
    exact hu.trans ⟨rfl, List.prefix_rfl, List.prefix_append _ _⟩

/-- A callback keeps the frame. -/
theorem invokeCallback_frame {id : Byte} {arg : Option Byte} {s t : State} (h : invokeCallback id arg s = .next t) :
    BodyFrame s t := by
  unfold invokeCallback at h
  split at h
  · cases h; exact BodyFrame.refl s
  · exact BodyFrame.trans (t := { s with cbLog := s.cbLog ++ [⟨id, arg⟩] })
      ⟨rfl, List.prefix_append _ _, List.prefix_rfl⟩ (runBody_frame h)

end Sys2Proof.Machine
end

