-- ==== Sys2Proof/Laws/Table.lean ====
section
/-! SUPPORT. The opcode table's match and mask (spec/opcode_table.json) against the decoder's fields: a masked word equals
a row's match exactly where the operation code and the reserved bits are the row's (30_encoding.md R101). -/

namespace Sys2Proof.Machine

open Sys2Proof

/-- A mask of the bits from `k` up drops the bits below `k`. -/
theorem and_high_toNat (w : Word) {k : Nat} (hk : k ≤ 32) :
    (w &&& BitVec.ofNat 32 (2 ^ 32 - 2 ^ k)).toNat = w.toNat / 2 ^ k * 2 ^ k := by
  have hlt : 2 ^ 32 - 2 ^ k < 2 ^ 32 := Nat.sub_lt (by positivity) (by positivity)
  have he : 2 ^ 32 - 2 ^ k = (2 ^ (32 - k) - 1) * 2 ^ k := by
    rw [Nat.sub_mul, ← Nat.pow_add, Nat.sub_add_cancel hk, Nat.one_mul]
  rw [BitVec.toNat_and, BitVec.toNat_ofNat, Nat.mod_eq_of_lt hlt, he]
  apply Nat.eq_of_testBit_eq
  intro i
  rw [Nat.testBit_and, Nat.testBit_mul_two_pow, Nat.testBit_mul_two_pow, Nat.testBit_two_pow_sub_one,
    Nat.testBit_div_two_pow]
  by_cases h : k ≤ i
  · simp only [h, decide_true, Bool.true_and]
    rw [Nat.sub_add_cancel h]
    by_cases h2 : i < 32
    · simp [show i - k < 32 - k by omega]
    · simp [BitVec.testBit_toNat, BitVec.getLsbD_of_ge w i (by omega)]
  · simp [h]

/-- The rows whose reserved bits are `w[23:k]`. -/
theorem row_iff (w : Word) {op k : Nat} (hop : op < 256) (hk : k < 24) :
    (w &&& BitVec.ofNat 32 (2 ^ 32 - 2 ^ k) == BitVec.ofNat 32 (op * 2 ^ 24)) = true ↔
      opOf w = op ∧ bits w 23 k = 0 := by
  have hw := w.isLt
  rw [beq_iff_eq, ← BitVec.toNat_inj, and_high_toNat w (by omega), BitVec.toNat_ofNat,
    Nat.mod_eq_of_lt (show op * 2 ^ 24 < 2 ^ 32 by omega)]
  unfold opOf bits
  have h24 : 2 ^ 24 = 2 ^ k * 2 ^ (24 - k) := by rw [← Nat.pow_add]; congr 1; omega
  have hop' : w.toNat / 2 ^ 24 % 2 ^ (31 + 1 - 24) = w.toNat / 2 ^ k / 2 ^ (24 - k) := by
    rw [Nat.div_div_eq_div_mul, ← h24]
    exact Nat.mod_eq_of_lt (by omega)
  rw [hop', show 23 + 1 - k = 24 - k by omega, h24]
  generalize w.toNat / 2 ^ k = x
  have hm : 0 < 2 ^ (24 - k) := by positivity
  generalize 2 ^ (24 - k) = m at hm ⊢
  have hp : 0 < 2 ^ k := by positivity
  rw [show op * (2 ^ k * m) = (op * m) * 2 ^ k by rw [Nat.mul_comm (2 ^ k) m, Nat.mul_assoc], Nat.mul_left_inj (by omega)]
  constructor
  · rintro rfl
    exact ⟨Nat.mul_div_cancel _ hm, Nat.mul_mod_left _ _⟩
  · rintro ⟨rfl, h⟩
    rw [Nat.mul_comm]
    exact (Nat.mul_div_cancel' (Nat.dvd_of_mod_eq_zero h)).symm

/-- The rows with no reserved bit. -/
theorem row_op_iff (w : Word) {op : Nat} (hop : op < 256) :
    (w &&& BitVec.ofNat 32 (2 ^ 32 - 2 ^ 24) == BitVec.ofNat 32 (op * 2 ^ 24)) = true ↔ opOf w = op := by
  have hw := w.isLt
  rw [beq_iff_eq, ← BitVec.toNat_inj, and_high_toNat w (by omega), BitVec.toNat_ofNat,
    Nat.mod_eq_of_lt (show op * 2 ^ 24 < 2 ^ 32 by omega)]
  unfold opOf bits
  omega

/-- The row of `REQUEST_FROM`: the reserved bits are `w[23:17]` and `w[7]`. -/
theorem row_request_iff (w : Word) :
    (w &&& 0xFFFE0080 == 0x20000000) = true ↔ opOf w = 0x20 ∧ bits w 23 17 = 0 ∧ bits w 7 7 = 0 := by
  have hsplit : (w &&& 0xFFFE0080#32 = 0x20000000#32) ↔
      (w &&& 0xFFFE0000#32 = 0x20000000#32) ∧ (w &&& 0x80#32 = 0#32) := by
    have h1 : 0xFFFE0080#32 = 0xFFFE0000#32 ||| 0x80#32 := by decide
    have h2 : 0xFFFE0080#32 &&& 0xFFFE0000#32 = 0xFFFE0000#32 := by decide
    have h3 : 0xFFFE0080#32 &&& 0x80#32 = 0x80#32 := by decide
    constructor
    · intro h
      constructor
      · rw [← h2, ← BitVec.and_assoc, h]; decide
      · rw [← h3, ← BitVec.and_assoc, h]; decide
    · rintro ⟨ha, hb⟩
      rw [h1, BitVec.and_or_distrib_left, ha, hb]
      decide
  have hhigh := row_iff w (op := 0x20) (k := 17) (by omega) (by omega)
  have hbit : (w &&& 0x80#32 = 0#32) ↔ bits w 7 7 = 0 := by
    have h := BitVec.toNat_and w 0x80#32
    have hp : (w.toNat &&& 0x80) = 2 ^ 7 * (w.toNat / 2 ^ 7 % 2) := by
      have := Nat.and_two_pow w.toNat 7
      rw [show (0x80 : Nat) = 2 ^ 7 by norm_num, this, Nat.testBit_eq_decide_div_mod_eq]
      norm_num
      rcases Nat.mod_two_eq_zero_or_one (w.toNat / 128) with h | h <;> simp [h]
    rw [← BitVec.toNat_inj, h, show (0x80#32).toNat = 0x80 by decide, hp]
    unfold bits
    simp
  rw [beq_iff_eq] at *
  rw [show (0xFFFE0080 : Word) = 0xFFFE0080#32 from rfl, show (0x20000000 : Word) = 0x20000000#32 from rfl, hsplit, hbit,
    ← and_assoc]
  exact and_congr_left fun _ => hhigh

/-- R102: the payload row. -/
theorem isPayload_iff (w : Word) : isPayload w = true ↔ opOf w = 0xFE ∧ bits w 23 8 = 0 :=
  row_iff w (op := 0xFE) (k := 8) (by omega) (by omega)

/-- R102: the row of `WRITE_BLOCK`. -/
theorem isBlockHeader_iff (w : Word) : isBlockHeader w = true ↔ opOf w = 0x12 ∧ bits w 23 8 = 0 :=
  row_iff w (op := 0x12) (k := 8) (by omega) (by omega)

/-- The words of the table: those of a one-word request or of a `WRITE_BLOCK` header (R102, R103, R109). -/
theorem inTable_iff (w : Word) :
    inTable w = true ↔ (∃ i, decodeSingle w = .ok i) ∨ (opOf w = 0x12 ∧ bits w 23 8 = 0) := by
  have key : inTable w = true ↔ opOf w = 0x01 ∨ (opOf w = 0x02 ∧ bits w 23 7 = 0) ∨ opOf w = 0x03 ∨
      (opOf w = 0x04 ∧ bits w 23 0 = 0) ∨ (opOf w = 0x05 ∧ bits w 23 8 = 0) ∨ (opOf w = 0x06 ∧ bits w 23 8 = 0) ∨
      (opOf w = 0x10 ∧ bits w 23 7 = 0) ∨ (opOf w = 0x11 ∧ bits w 23 8 = 0) ∨ (opOf w = 0x12 ∧ bits w 23 8 = 0) ∨
      (opOf w = 0x13 ∧ bits w 23 1 = 0) ∨ (opOf w = 0x20 ∧ bits w 23 17 = 0 ∧ bits w 7 7 = 0) ∨
      (opOf w = 0x21 ∧ bits w 23 0 = 0) ∨ (opOf w = 0x22 ∧ bits w 23 0 = 0) ∨ (opOf w = 0xFE ∧ bits w 23 8 = 0) := by
    simp only [inTable, requestTable, List.any_cons, List.any_nil, Bool.or_eq_true, Bool.false_eq_true, or_false]
    exact or_congr (row_op_iff w (op := 0x01) (by omega)) <|
      or_congr (row_iff w (op := 0x02) (k := 7) (by omega) (by omega)) <|
      or_congr (row_op_iff w (op := 0x03) (by omega)) <|
      or_congr (row_iff w (op := 0x04) (k := 0) (by omega) (by omega)) <|
      or_congr (row_iff w (op := 0x05) (k := 8) (by omega) (by omega)) <|
      or_congr (row_iff w (op := 0x06) (k := 8) (by omega) (by omega)) <|
      or_congr (row_iff w (op := 0x10) (k := 7) (by omega) (by omega)) <|
      or_congr (row_iff w (op := 0x11) (k := 8) (by omega) (by omega)) <|
      or_congr (row_iff w (op := 0x12) (k := 8) (by omega) (by omega)) <|
      or_congr (row_iff w (op := 0x13) (k := 1) (by omega) (by omega)) <|
      or_congr (row_request_iff w) <|
      or_congr (row_iff w (op := 0x21) (k := 0) (by omega) (by omega)) <|
      or_congr (row_iff w (op := 0x22) (k := 0) (by omega) (by omega)) <|
      row_iff w (op := 0xFE) (k := 8) (by omega) (by omega)
  rw [key]
  constructor
  · rintro (h | h | h | h | h | h | h | h | h | h | h | h | h | h)
    case inr.inr.inr.inr.inr.inr.inr.inr.inl => exact .inr h
    all_goals left; simp [decodeSingle, ifReservedZero, h]
  · rintro (⟨i, hi⟩ | h)
    · rcases decodeSingle_cases hi with h | h | h | h | h | h | h | h | h | h | h | h | h <;> simp [h.1]
    · simp [h]

end Sys2Proof.Machine
end

