-- ==== Sys2Proof/Laws/Turns.lean ====
section
/-! SUPPORT. Everything one step can do: which agent moved, under which guard, and which `exec` it ran. -/

namespace Sys2Proof.Machine

open Sys2Proof

/-- The ways a step reaches an outcome. `u` is the state with the turn taken. -/
inductive StepCase (s u : State) : Turn → Result → Prop
  | callerHeld (ev : Instr) (h : s.kH = .stopWait ev) : StepCase s u .caller (.next u)
  | callerRuns (i : Instr) (fr : Frame) (hH : s.kH = .idle) (hC : s.kC = .running i fr) :
      StepCase s u .caller (exec i u)
  | callerTakes (i : Instr) (rest : List Word) (hH : s.kH = .idle) (hC : s.kC = .idle)
      (hd : decodeRequest s.requests = .ok (i, rest)) : StepCase s u .caller (exec i { u with requests := rest })
  | callerWaits (e : DecodeError) (hH : s.kH = .idle) (hC : s.kC = .idle) (hd : decodeRequest s.requests = .error e)
      (he : e = .noWord ∨ e = .incompleteBlock) : StepCase s u .caller (.next u)
  | callerFaults (e : DecodeError) (hH : s.kH = .idle) (hC : s.kC = .idle) (hd : decodeRequest s.requests = .error e)
      (he : e ≠ .noWord ∧ e ≠ .incompleteBlock) :
      StepCase s u .caller (.fault (.illegalRequest (s.requests.headD 0) u))
  | handlerResumes (ev : Instr) (h : s.kH = .stopWait ev) : StepCase s u .handler (exec ev u)
  | handlerTakes (e : Event) (hH : s.kH = .idle) (hp : s.pending = some e) (he : s.enabled = true) :
      StepCase s u .handler (exec (decodeEvent e.st e.din) { u with pending := none })
  | handlerWaits (hH : s.kH = .idle) (h : s.pending = none ∨ s.enabled = false) : StepCase s u .handler (.next u)
  | posts (st din : Byte) : StepCase s u (.post st din) (.next (busPost st din u))
  | stopsDone : StepCase s u .stopDone (.next (busStopDone u))

/-- Every step is one of these cases. -/
theorem step_cases (s : State) : StepCase s (takeTurn s).2 (takeTurn s).1 (step s) := by
  have hu := takeTurn_state s
  have hstep : step s = runTurn (takeTurn s).1 (takeTurn s).2 := rfl
  rw [hstep]
  generalize (takeTurn s).1 = turn
  generalize (takeTurn s).2 = u at hu ⊢
  have hH : u.kH = s.kH := by rw [hu]
  have hC : u.kC = s.kC := by rw [hu]
  have hr : u.requests = s.requests := by rw [hu]
  have hp : u.pending = s.pending := by rw [hu]
  have he : u.enabled = s.enabled := by rw [hu]
  cases turn with
  | caller =>
    show StepCase s u .caller (callerTurn u)
    unfold callerTurn
    cases h1 : u.kH with
    | stopWait ev => exact .callerHeld ev (hH ▸ h1)
    | idle =>
      cases h2 : u.kC with
      | running i fr => exact .callerRuns i fr (hH ▸ h1) (hC ▸ h2)
      | idle =>
        simp only
        rw [hr]
        cases h3 : decodeRequest s.requests with
        | ok p => rw [← h1, ← h2]; exact .callerTakes p.1 p.2 (hH ▸ h1) (hC ▸ h2) h3
        | error e =>
          cases e with
          | noWord => exact .callerWaits _ (hH ▸ h1) (hC ▸ h2) h3 (.inl rfl)
          | incompleteBlock => exact .callerWaits _ (hH ▸ h1) (hC ▸ h2) h3 (.inr rfl)
          | unassignedOp => exact .callerFaults _ (hH ▸ h1) (hC ▸ h2) h3 ⟨nofun, nofun⟩
          | reservedBits => exact .callerFaults _ (hH ▸ h1) (hC ▸ h2) h3 ⟨nofun, nofun⟩
          | malformedPayload => exact .callerFaults _ (hH ▸ h1) (hC ▸ h2) h3 ⟨nofun, nofun⟩
  | handler =>
    show StepCase s u .handler (handlerTurn u)
    unfold handlerTurn
    cases h1 : u.kH with
    | stopWait ev => exact .handlerResumes ev (hH ▸ h1)
    | idle =>
      cases h2 : u.pending with
      | none => exact .handlerWaits (hH ▸ h1) (.inl (hp ▸ h2))
      | some e =>
        cases h3 : u.enabled with
        | true =>
          have := StepCase.handlerTakes (u := u) e (hH ▸ h1) (hp ▸ h2) (he ▸ h3)
          rw [h1, h3] at this
          exact this
        | false => exact .handlerWaits (hH ▸ h1) (.inr (he ▸ h3))
  | post st din => exact .posts st din
  | stopDone => exact .stopsDone

/-- An event of the event port decodes to an event. -/
theorem decodeEvent_isEvent (st din : Byte) : (decodeEvent st din).isEvent = true := by
  unfold decodeEvent eventOfCode
  split <;> rfl

end Sys2Proof.Machine
end

