-- ==== Sys2Proof/Tests/Slice0.lean ====
section
/-! SUPPORT. The model's own tests. Expected values come from 95_test_vectors.md (its vector ids are named) and from the
encodings of 30_encoding.md; the theorems `witness_…` show states that meet the hypotheses of the obligations. -/

namespace Sys2Proof.Tests

open Sys2Proof Sys2Proof.Machine

/-! ## States -/

/-- The reset state with concrete parameters: 95_test_vectors.md takes `F_CLK` = 16000000. Body 1 is
[`AVAILABLE`, `READ`, `READ`] (P3), body 2 [`WRITE_BLOCK 0x10, 0x20, 0x30`] (P4), body 3 [`BEGIN_TRANSMISSION 0x50`]
(BP-3), body 5 [`WRITE 1`, `READ`]; body 4 is empty. -/
def base : State where
  role := .master
  state := .ready
  index := 0
  size := 0
  buf := []
  address := none
  sendStop := none
  inRepStart := false
  status := none
  initialized := false
  onRx := 0
  onTx := 0
  regs := ⟨0, 0, 0, 0, 0, 0⟩
  kC := .idle
  kH := .idle
  pending := none
  enabled := false
  armed := false
  stopPending := false
  cmdLog := []
  reqLog := []
  cbLog := []
  bodyLog := []
  cfg :=
    { fClk := 16000000
      callbackBody := [(1, [0x21000000, 0x22000000, 0x22000000]),
        (2, [0x12000003, 0xFE000010, 0xFE000020, 0xFE000030]), (3, [0x10000050]), (5, [0x11000001, 0x22000000])]
      regLoc := ⟨0, 1, 2, 3, 4, 5⟩
      physReset := ⟨0, 0, 0, 0, 0, 0⟩ }
  requests := []
  schedule := []
  turns := 0

/-- A master that has begun (INIT-2), its log left out. -/
def master : State := { base with initialized := true, enabled := true, armed := true, regs := ⟨72, 0, 0, 0, 0, 0⟩ }

/-- A slave that has begun (INIT-3), its log left out. -/
def slave : State := { base with initialized := true, enabled := true, armed := true, role := .slave, address := some 0x84 }

/-- The next state of an outcome. -/
def nextOf : Result → Option State
  | .next s => some s
  | .fault _ => none
  | .refused _ => none

/-- The fault of an outcome. -/
def faultOf : Result → Option Fault
  | .next _ => none
  | .fault f => some f
  | .refused _ => none

/-- The log, `index`, `size` and `state` after an outcome. -/
def traffic (r : Result) : Option (List BusOutput × Byte × Byte × TransactionState) :=
  (nextOf r).map fun s => (s.cmdLog, s.index, s.size, s.state)

/-- The response an outcome put on the request port. -/
def responseOf (r : Result) : Option Byte := (nextOf r).bind response

/-! ## Well-formedness -/

/-- The check of a block, by its length. -/
theorem wellFormed_block (bytes : List Byte) : (Instr.writeBlock bytes).wellFormed = decide (bytes.length ≤ 255) := rfl

theorem test_wellFormed_block_too_long : (Instr.writeBlock (List.replicate 256 0)).wellFormed = false := by
  rw [wellFormed_block, List.length_replicate]
  decide
theorem test_wellFormed_block_longest : (Instr.writeBlock (List.replicate 255 0)).wellFormed = true := by
  rw [wellFormed_block, List.length_replicate]
  decide
theorem test_wellFormed_read : Instr.read.wellFormed = true := by decide

/-! ## Decoding: each word is written out from R101, R102, R109, R112, R114 -/

theorem test_decode_init :
    decode (.request [0b00000001_000000011000011010100000]) = .ok (.beginMaster 100000) ∧
    decode (.request [0b00000010_00000000000000000_1000010]) = .ok (.beginSlave 0x42) ∧
    decode (.request [0b00000011_000001100001101010000000]) = .ok (.setFrequency 400000) ∧
    decode (.request [0b00000100_000000000000000000000000]) = .ok .endBus ∧
    decode (.request [0b00000101_0000000000000000_00000001]) = .ok (.setOnReceive 1) ∧
    decode (.request [0b00000110_0000000000000000_00000010]) = .ok (.setOnTransmit 2) := by decide

theorem test_decode_transmit :
    decode (.request [0b00010000_00000000000000000_1010000]) = .ok (.beginTransmission 0x50) ∧
    decode (.request [0b00010001_0000000000000000_10101010]) = .ok (.write 0xAA) ∧
    decode (.request [0b00010010_0000000000000000_00000010, 0b11111110_0000000000000000_00010001,
      0b11111110_0000000000000000_00100010]) = .ok (.writeBlock [0x11, 0x22]) ∧
    decode (.request [0b00010010_0000000000000000_00000000]) = .ok (.writeBlock []) ∧
    decode (.request [0b00010011_00000000000000000000000_1]) = .ok (.endTransmission true) ∧
    decode (.request [0b00010011_00000000000000000000000_0]) = .ok (.endTransmission false) ∧
    decode (.request [0b11111110_0000000000000000_00010010]) = .ok (.writeBlockPayload 0x12) := by decide

theorem test_decode_receive :
    decode (.request [0b00100000_0000000_1_00000011_0_1010000]) = .ok (.requestFrom 0x50 3 true) ∧
    decode (.request [0b00100000_0000000_0_11111111_0_0000001]) = .ok (.requestFrom 1 255 false) ∧
    decode (.request [0b00100001_000000000000000000000000]) = .ok .available ∧
    decode (.request [0b00100010_000000000000000000000000]) = .ok .read := by decide

/-- ENC-1 to ENC-6 and ENC-8. -/
theorem test_decode_illegal :
    decode (.request [0x00000000]) = .error .unassignedOp ∧ decode (.request [0x07000000]) = .error .unassignedOp ∧
    decode (.request [0x10000080]) = .error .reservedBits ∧ decode (.request [0x21000001]) = .error .reservedBits ∧
    decode (.request [0x13000002]) = .error .reservedBits ∧ decode (.request [0x200201D0]) = .error .reservedBits ∧
    decode (.request [0x12000002, 0xFE000011, 0x11000022]) = .error .malformedPayload := by decide

theorem test_decode_master_events :
    decodeEvent 0b00001_011 7 = .evtStart 3 7 ∧ decodeEvent 0b00010_000 0 = .evtRepStart 0 0 ∧
    decodeEvent 0b00011_000 0 = .evtMtSlaAck 0 0 ∧ decodeEvent 0b00100_000 0 = .evtMtSlaNack 0 0 ∧
    decodeEvent 0b00101_000 0 = .evtMtDataAck 0 0 ∧ decodeEvent 0b00110_000 0 = .evtMtDataNack 0 0 ∧
    decodeEvent 0b00111_000 0 = .evtArbLost 0 0 ∧ decodeEvent 0b01000_000 0 = .evtMrSlaAck 0 0 ∧
    decodeEvent 0b01001_000 0 = .evtMrSlaNack 0 0 ∧ decodeEvent 0b01010_000 0x12 = .evtMrDataAck 0 0x12 ∧
    decodeEvent 0b01011_000 0x34 = .evtMrDataNack 0 0x34 := by decide

theorem test_decode_slave_events :
    decodeEvent 0b01100_000 0 = .evtSrSlaAck 0 0 ∧ decodeEvent 0b01101_000 0 = .evtSrArbLostSlaAck 0 0 ∧
    decodeEvent 0b01110_000 0 = .evtSrGcallAck 0 0 ∧ decodeEvent 0b01111_000 0 = .evtSrArbLostGcallAck 0 0 ∧
    decodeEvent 0b10000_000 0x5A = .evtSrDataAck 0 0x5A ∧ decodeEvent 0b10001_000 0 = .evtSrDataNack 0 0 ∧
    decodeEvent 0b10010_000 0x5A = .evtSrGcallDataAck 0 0x5A ∧ decodeEvent 0b10011_000 0 = .evtSrGcallDataNack 0 0 ∧
    decodeEvent 0b10100_000 0 = .evtSrStop 0 0 ∧ decodeEvent 0b10101_000 0 = .evtStSlaAck 0 0 ∧
    decodeEvent 0b10110_000 0 = .evtStArbLostSlaAck 0 0 ∧ decodeEvent 0b10111_000 0 = .evtStDataAck 0 0 ∧
    decodeEvent 0b11000_000 0 = .evtStDataNack 0 0 ∧ decodeEvent 0b11001_000 0 = .evtStLastData 0 0 := by decide

theorem test_decode_error_events :
    decodeEvent 0b00000_000 0 = .evtBusError 0 0 ∧ decodeEvent 0b11111_111 0 = .evtNoInfo 7 0 ∧
    decodeEvent 0b11010_000 0 = .evtUnknownD0 0 0 ∧ decodeEvent 0b11011_000 0 = .evtUnknownD8 0 0 ∧
    decodeEvent 0b11100_000 0 = .evtUnknownE0 0 0 ∧ decodeEvent 0b11101_000 0 = .evtUnknownE8 0 0 ∧
    decodeEvent 0b11110_000 0 = .evtUnknownF0 0 0 := by decide

theorem test_encode :
    encode (.requestFrom 0x68 2 true) = .request [0x20010268] ∧ encode (.evtMrDataNack 0 0x34) = .event 0x58 0x34 ∧
    encode (.writeBlock [0x10, 0x20, 0x30]) = .request [0x12000003, 0xFE000010, 0xFE000020, 0xFE000030] := by decide

theorem test_decodeTableWord :
    decodeTableWord 32 0x010186A0 = some (.beginMaster 100000) ∧ decodeTableWord 8 0xA8 = some (.evtStSlaAck 0 0) ∧
    decodeTableWord 32 0x12000000 = some (.writeBlock []) ∧ decodeTableWord 32 0x00000000 = none := by decide

/-! ## Reset and the first step -/

theorem test_reset_memory : Memory.wf State.reset.buf = true := rfl

/-- INIT-8 as the first step after reset. -/
theorem test_step_end_from_reset : responseOf (step (State.reset.withFetchWord 32 0x04000000)) = some 0 := rfl

/-- EH-27: nothing changes but that `pending` is emptied. -/
theorem test_step_noInfo_from_reset :
    (nextOf (step (State.reset.withFetchWord 8 0xF8))).map (fun t => (t.pending, t.cmdLog)) = some (none, []) := rfl

/-- ENC-2: an illegal word stops the block and is recorded. -/
theorem test_step_illegal :
    (faultOf (step { base with schedule := [.caller], requests := [0x07000000] })).map Fault.code = some 1 := by decide

/-- INIT-10: after `END` no event can be posted. -/
theorem test_post_when_disabled : (busPost 0x08 0 base).pending = none := by decide
/-- R308: a `POST` into an empty slot of an armed block. -/
theorem test_post_when_armed : (busPost 0x08 0 master).pending = some ⟨0x08, 0⟩ := by decide

/-! ## Requests (§2.2 to §2.4) -/

/-- INIT-4: a second begin answers 0. -/
theorem test_beginMaster_twice : responseOf (exec (.beginMaster 100000) slave) = some 0 := by decide
/-- INIT-1, 40_init.md R140: 100 kHz gives 72. -/
theorem test_beginMaster_divisor :
    (nextOf (exec (.beginMaster 100000) (caller (.beginMaster 100000) 3 base))).map (·.regs.bitrate) = some 72 := by
  decide
/-- L1-8e. -/
theorem test_beginSlave_address :
    (nextOf (exec (.beginSlave 0x42) (caller (.beginSlave 0x42) 3 base))).map (fun t => (t.regs.ownAddr, t.address)) =
      some (0x84, some 0x84) := by decide
/-- INIT-7. -/
theorem test_setFrequency_slave :
    responseOf (exec (.setFrequency 400000) (caller (.setFrequency 400000) 2 slave)) = some 0 := by decide
/-- INIT-5. -/
theorem test_setFrequency_before_begin : (faultOf (exec (.setFrequency 400000) base)).map Fault.code = some 2 := by decide
/-- INIT-1: `f` = 30300 (0x765C) needs the divisor 256; `f` = 1 more than 255; `f` = 0 none. -/
theorem test_divisor_out_of_range :
    divisor 16000000 0x765C = none ∧ divisor 16000000 1 = none ∧ divisor 16000000 0 = none := by decide
/-- L1-6a: `Disable` clears `enabled` and `armed`. -/
theorem test_end_disables :
    (nextOf (exec .endBus (caller .endBus 2 master))).map (fun t => (t.enabled, t.armed, t.cmdLog)) =
      some (false, false, [.command .disable]) := by decide
/-- INIT-11. -/
theorem test_setOnReceive : (nextOf (exec (.setOnReceive 1) base)).map (fun t => (t.onRx, response t)) =
    some (1, some 0) := by decide
theorem test_setOnTransmit : (nextOf (exec (.setOnTransmit 2) base)).map (fun t => (t.onTx, response t)) =
    some (2, some 0) := by decide
/-- L1-8e: `SLA+W`. -/
theorem test_beginTransmission_address :
    (nextOf (exec (.beginTransmission 0x50) (caller (.beginTransmission 0x50) 4 master))).map (·.address) =
      some (some 0xA0) := by decide
/-- L1-3: the hold leaves everything as it is. -/
theorem test_beginTransmission_holds :
    nextOf (exec (.beginTransmission 0x51)
      (caller (.beginTransmission 0x51) 2 { master with state := .masterTransmit })) =
        some (caller (.beginTransmission 0x51) 2 { master with state := .masterTransmit }) := by decide
/-- R171: with `size` = 31 the write succeeds. -/
theorem test_write_last_position :
    (nextOf (exec (.write 0xEE)
      { base with size := 31, kC := .running (.write 0xEE) { step := 2, n := 31 } })).map (·.buf) =
        some [(31, 0xEE)] := by decide
/-- L1-2: a full buffer. -/
theorem test_write_full : responseOf (exec (.write 0xEE) { base with size := 32 }) = some 0 := by decide
/-- MT-5 and R172's example: the third byte does not fit. -/
theorem test_writeBlock_stops :
    responseOf (exec (.writeBlock [1, 2, 3])
      { base with size := 32, kC := .running (.writeBlock [1, 2, 3]) { step := 21, k := 2 } }) = some 2 := by decide
theorem test_writeBlock_empty :
    responseOf (exec (.writeBlock []) { base with kC := .running (.writeBlock []) (blockNext [] 0) }) = some 0 := by decide
/-- ENC-7. -/
theorem test_payload_alone : faultOf (exec (.writeBlockPayload 0x12) base) = some (.illegalRequest 0xFE000012 base) := by
  decide
/-- BP-2: no `Start` after an armed repeated START. -/
theorem test_endTransmission_repeated_start :
    (nextOf (exec (.endTransmission true)
      (caller (.endTransmission true) 4 { master with inRepStart := true, address := some 0xA2 }))).map
        (fun t => (t.cmdLog, t.inRepStart)) = some ([.data 0xA2, .command .ack], false) := by decide
/-- MT-8. -/
theorem test_endTransmission_address_nack :
    responseOf (exec (.endTransmission true)
      (caller (.endTransmission true) 6 { master with status := some .addressNack })) = some 2 := by decide
/-- L1-4. -/
theorem test_requestFrom_oversized : responseOf (exec (.requestFrom 0x50 33 true) master) = some 255 := by decide
/-- L1-5: three bytes stored of five. -/
theorem test_requestFrom_clamp :
    (nextOf (exec (.requestFrom 0x50 5 true)
      (caller (.requestFrom 0x50 5 true) 10 { master with index := 3, size := 4 }))).map (fun t => (t.size, t.index)) =
        some (3, 3) := by decide
/-- R202's example, and MR-11. -/
theorem test_available :
    responseOf (exec .available { base with size := 2, kC := .running .available { step := 2, n := 2 } }) = some 2 := by
  decide
theorem test_available_underflow :
    faultOf (exec .available { slave with index := 2, kC := .running .available { step := 2, n := 0 } }) =
      some (.cursorUnderflow 2 0 { slave with index := 2, kC := .running .available { step := 2, n := 0 } }) := by decide
/-- MR-13. -/
theorem test_read_empty :
    responseOf (exec .read { base with kC := .running .read { step := 2, i := 0 } }) = some 0 := by decide
/-- R203's example. -/
theorem test_read_byte :
    (nextOf (exec .read { base with size := 2, buf := [(0, 0x12), (1, 0x34)],
                                    kC := .running .read { step := 4, i := 0, v := 0x12 } })).map
      (fun t => (t.index, response t)) = some (1, some 0x12) := by decide

/-! ## Events (§2.5) -/

/-- EH-1, EH-2, EH-3. -/
theorem test_start :
    traffic (exec (.evtStart 0 0) { master with address := some 0xA0 }) =
      some ([.data 0xA0, .command .ack], 0, 0, .ready) := by decide
theorem test_repStart :
    traffic (exec (.evtRepStart 0 0) { master with address := some 0xA1 }) =
      some ([.data 0xA1, .command .ack], 0, 0, .ready) := by decide
theorem test_start_unwritten : (faultOf (exec (.evtStart 0 0) master)).map Fault.code = some 7 := by decide
/-- EH-4. -/
theorem test_mtSlaAck :
    traffic (exec (.evtMtSlaAck 0 0) { master with size := 1, buf := [(0, 0xAA)], state := .masterTransmit }) =
      some ([.data 0xAA, .command .ack], 1, 1, .masterTransmit) := by decide
/-- EH-5. -/
theorem test_mtDataAck_repeated_start :
    (nextOf (exec (.evtMtDataAck 0 0)
      { master with index := 1, size := 1, sendStop := some false, state := .masterTransmit })).map
        (fun t => (t.cmdLog, t.inRepStart, t.state, t.armed)) =
          some ([.command .armRepStart], true, .ready, false) := by decide
/-- EH-6: until `STOPDONE` the handler holds and `state` stays. -/
theorem test_mtDataAck_stop :
    (nextOf (exec (.evtMtDataAck 0 0)
      { master with index := 1, size := 1, sendStop := some true, state := .masterTransmit })).map
        (fun t => (t.cmdLog, t.kH, t.state, t.stopPending)) =
          some ([.command .stop], .stopWait (.evtMtDataAck 0 0), .masterTransmit, true) := by decide
/-- EH-7, EH-8. -/
theorem test_mtSlaNack :
    (nextOf (exec (.evtMtSlaNack 0 0) master)).map (fun t => (t.cmdLog, t.status)) =
      some ([.command .stop], some .addressNack) := by decide
theorem test_mtDataNack :
    (nextOf (exec (.evtMtDataNack 0 0) master)).map (fun t => (t.cmdLog, t.status)) =
      some ([.command .stop], some .dataNack) := by decide
theorem test_mtDataNack_after_stop :
    (nextOf (exec (.evtMtDataNack 0 0)
      { master with kH := .stopWait (.evtMtDataNack 0 0), state := .masterTransmit })).map
        (fun t => (t.kH, t.state)) = some (.idle, .ready) := by decide
/-- EH-9. -/
theorem test_arbLost :
    (nextOf (exec (.evtArbLost 0 0) { master with state := .masterTransmit })).map
      (fun t => (t.cmdLog, t.status, t.state)) = some ([.command .ack], some .otherError, .ready) := by decide
/-- EH-10, EH-11. -/
theorem test_mrSlaAck_one : traffic (exec (.evtMrSlaAck 0 0) master) = some ([.command .nack], 0, 0, .ready) := by decide
theorem test_mrSlaAck_more :
    traffic (exec (.evtMrSlaAck 0 0) { master with size := 2 }) = some ([.command .ack], 0, 2, .ready) := by decide
/-- EH-12, EH-13. -/
theorem test_mrDataAck :
    (nextOf (exec (.evtMrDataAck 0 0x12) { master with size := 1 })).map (fun t => (t.cmdLog, t.buf, t.index)) =
      some ([.command .nack], [(0, 0x12)], 1) := by decide
theorem test_mrDataAck_overrun :
    (faultOf (exec (.evtMrDataAck 0 0x12) { master with index := 32 })).map Fault.code = some 5 := by decide
/-- EH-14. -/
theorem test_mrDataNack :
    (nextOf (exec (.evtMrDataNack 0 0x34) { master with index := 1, sendStop := some true })).map
      (fun t => (t.cmdLog, t.buf, t.index)) = some ([.command .stop], [(1, 0x34)], 2) := by decide
/-- EH-15. -/
theorem test_mrSlaNack :
    (nextOf (exec (.evtMrSlaNack 0 0) master)).map (fun t => (t.cmdLog, t.status)) = some ([.command .stop], none) := by
  decide
/-- EH-16. -/
theorem test_sr_addressed :
    traffic (exec (.evtSrSlaAck 0 0) { slave with size := 5, index := 3 }) =
      some ([.command .ack], 0, 5, .slaveReceive) ∧
    traffic (exec (.evtSrArbLostSlaAck 0 0) { slave with size := 5 }) = some ([.command .ack], 0, 5, .slaveReceive) ∧
    traffic (exec (.evtSrGcallAck 0 0) { slave with size := 5 }) = some ([.command .ack], 0, 5, .slaveReceive) ∧
    traffic (exec (.evtSrArbLostGcallAck 0 0) { slave with size := 5 }) =
      some ([.command .ack], 0, 5, .slaveReceive) := by decide
/-- EH-17, EH-18. -/
theorem test_srDataAck_last :
    (nextOf (exec (.evtSrDataAck 0 0x5A) { slave with index := 31 })).map (fun t => (t.cmdLog, t.buf, t.index)) =
      some ([.command .ack], [(31, 0x5A)], 32) := by decide
theorem test_srGcallDataAck_full :
    (nextOf (exec (.evtSrGcallDataAck 0 0x5B) { slave with index := 32 })).map (fun t => (t.cmdLog, t.buf, t.index)) =
      some ([.command .nack], [], 32) := by decide
/-- EH-19. -/
theorem test_sr_data_nack :
    traffic (exec (.evtSrDataNack 0 0x11) { slave with state := .slaveReceive }) =
      some ([.command .nack], 0, 0, .slaveReceive) ∧
    traffic (exec (.evtSrGcallDataNack 0 0x11) { slave with state := .slaveReceive }) =
      some ([.command .nack], 0, 0, .slaveReceive) := by decide
/-- P3 after `STOPDONE`: body 1 runs with the count 2; its responses are 2, 0x11 and 0x22. -/
theorem test_srStop_callback :
    (nextOf (exec (.evtSrStop 0 0) { slave with index := 2, onRx := 1, buf := [(0, 0x11), (1, 0x22)],
                                                kH := .stopWait (.evtSrStop 0 0) })).map
      (fun t => (t.bodyLog.map (·.value), t.cbLog, t.cmdLog, t.index, t.size)) =
        some ([2, 0x11, 0x22], [⟨1, some 2⟩], [.command .ack], 2, 2) := by decide
/-- BP-3: the body reaches `BEGIN_TRANSMISSION`. -/
theorem test_srStop_forbidden :
    (faultOf (exec (.evtSrStop 0 0) { slave with onRx := 3, kH := .stopWait (.evtSrStop 0 0) })).map Fault.code =
      some 11 := by decide
/-- P4: the callback's first byte goes out. -/
theorem test_stSlaAck_callback :
    traffic (exec (.evtStSlaAck 0 0) { slave with onTx := 2 }) =
      some ([.data 0x10, .command .ack], 1, 3, .slaveTransmit) := by decide
/-- EH-22. -/
theorem test_stArbLostSlaAck_filler :
    traffic (exec (.evtStArbLostSlaAck 0 0) slave) = some ([.data 0xFF, .command .nack], 1, 1, .slaveTransmit) := by decide
/-- EH-23, EH-24. -/
theorem test_stDataAck :
    traffic (exec (.evtStDataAck 0 0) { slave with index := 1, size := 3, buf := [(1, 0x22)] }) =
      some ([.data 0x22, .command .ack], 2, 3, .ready) := by decide
theorem test_stDataAck_underrun :
    (faultOf (exec (.evtStDataAck 0 0) { slave with index := 1, size := 1 })).map Fault.code = some 9 := by decide
/-- EH-25. -/
theorem test_st_end :
    traffic (exec (.evtStDataNack 0 0) { slave with state := .slaveTransmit }) = some ([.command .ack], 0, 0, .ready) ∧
    traffic (exec (.evtStLastData 0 0) { slave with state := .slaveTransmit }) = some ([.command .ack], 0, 0, .ready) := by
  decide
/-- EH-26. -/
theorem test_busError :
    (nextOf (exec (.evtBusError 0 0) master)).map (fun t => (t.cmdLog, t.status)) =
      some ([.command .stop], some .otherError) := by decide
/-- EH-28. -/
theorem test_unknown :
    faultOf (exec (.evtUnknownD0 0 0) master) = some (.unknownStatus 0xD0 master) ∧
    faultOf (exec (.evtUnknownD8 0 0) master) = some (.unknownStatus 0xD8 master) ∧
    faultOf (exec (.evtUnknownE0 0 0) master) = some (.unknownStatus 0xE0 master) ∧
    faultOf (exec (.evtUnknownE8 0 0) master) = some (.unknownStatus 0xE8 master) ∧
    faultOf (exec (.evtUnknownF0 0 0) master) = some (.unknownStatus 0xF0 master) := by decide

/-! ## The protocol premise (R322) -/

/-- The table's first rows, on the logs of P1. -/
theorem test_protocol :
    protocolAllows 0x60 { master with cmdLog := [.command .enable] } = true ∧
    protocolAllows 0x08 { master with cmdLog := [.command .enable] } = false ∧
    protocolAllows 0x08 { master with cmdLog := [.command .enable, .command .start] } = true ∧
    [0x68, 0x78, 0xB0].all (protocolAllows · { master with cmdLog := [.command .start] }) = true ∧
    [0x60, 0x70, 0xA8].any (protocolAllows · { master with cmdLog := [.command .start] }) = false ∧
    protocolAllows 0x18 { master with cmdLog := [.command .start, .data 0xA0, .command .ack],
                                      regs := ⟨72, 0x08, 0, 0xA0, 0, 0⟩ } = true ∧
    protocolAllows 0x40 { master with cmdLog := [.command .start, .data 0xA0, .command .ack],
                                      regs := ⟨72, 0x08, 0, 0xA0, 0, 0⟩ } = false := by decide

/-! ## Witnesses: states that meet the obligations' hypotheses, one theorem for each obligation that has any -/

/-- A state of both invariants whose next step takes a request. -/
def ready : State := { base with schedule := [.caller], requests := [0x04000000] }

theorem ready_inv : Inv ready := ⟨by decide, by decide, by decide, by decide, by decide⟩

theorem ready_delivery : DeliveryInv ready :=
  ⟨by decide, by decide, by decide, by decide, by decide, by decide⟩

theorem witness_StepKeepsDataInvariant : Inv ready ∧ (nextOf (step ready)).isSome = true := ⟨ready_inv, by decide⟩

theorem witness_StepKeepsDeliveryInvariant : Inv ready ∧ DeliveryInv ready ∧ (nextOf (step ready)).isSome = true :=
  ⟨ready_inv, ready_delivery, by decide⟩

theorem witness_StepNeverRefused : Inv ready := ready_inv

theorem witness_ParametersAreFixed : (nextOf (step ready)).isSome = true := by decide

theorem witness_LogsOnlyGrow :
    (nextOf (step { master with schedule := [.handler], address := some 0xA0, pending := some ⟨0x08, 0⟩ })).map (·.cmdLog) =
      some [.data 0xA0, .command .ack] := by decide

theorem witness_DecodeOfEncode : (Instr.requestFrom 127 255 true).wellFormed = true := by decide

theorem witness_EncodeOfDecode : decode (.request [0x2001FF7F]) = .ok (.requestFrom 127 255 true) := by decide

/-- One state for each of the three kinds of illegal request: the last op and its neighbour, a payload word alone, and
a block whose last payload word is malformed. -/
theorem witness_IllegalRequestsFault :
    inTable 0xFF000000 = false ∧ inTable 0x07000000 = false ∧ inTable 0x02000080 = false ∧
    isPayload 0xFE0000FF = true ∧
    (isBlockHeader 0x12000002 = true ∧
      ([0xFE000011, 0x11000022] : List Word)[1]? = some 0x11000022 ∧ isPayload 0x11000022 = false) ∧
    (∃ ts, ({ ready with requests := [0xFF000000] } : State).schedule = .caller :: ts) ∧
    ready.kC = .idle ∧ ready.kH = .idle :=
  ⟨by decide, by decide, by decide, by decide, by decide, ⟨[], rfl⟩, rfl, rfl⟩

theorem witness_StepRunsTheDecodedInstruction :
    (ready.schedule = [.caller] ∧ ready.kH = .idle ∧ ready.kC = .idle ∧
      decodeRequest ready.requests = .ok (.endBus, [])) ∧
    ((caller .endBus 2 ready).schedule = [.caller] ∧ (caller .endBus 2 ready).kH = .idle ∧
      (caller .endBus 2 ready).kC = .running .endBus (atStep 2)) ∧
    (let s : State := { master with schedule := [.handler], pending := some ⟨0xF8, 1⟩ };
      s.schedule = [.handler] ∧ s.kH = .idle ∧ s.enabled = true ∧ s.pending = some ⟨0xF8, 1⟩ ∧
        decodeEvent 0xF8 1 = .evtNoInfo 0 1) ∧
    (let s : State := { master with schedule := [.handler], kH := .stopWait (.evtBusError 0 0) };
      s.schedule = [.handler] ∧ s.kH = .stopWait (.evtBusError 0 0)) := by decide

theorem witness_HandlerHoldStopsTheCaller :
    ({ ready with kH := .stopWait (.evtBusError 0 0) } : State).schedule = [.caller] ∧
    ({ ready with kH := .stopWait (.evtBusError 0 0), schedule := [.post 8 0] } : State).schedule = [.post 8 0] ∧
    ({ ready with kH := .stopWait (.evtBusError 0 0), schedule := [.stopDone] } : State).schedule = [.stopDone] ∧
    ({ ready with kH := .stopWait (.evtBusError 0 0) } : State).kH = .stopWait (.evtBusError 0 0) := by decide

theorem witness_DeliveryConditions :
    (let s : State := { master with schedule := [.post 8 0] };
      s.schedule = [.post 8 0] ∧ s.enabled = true ∧ s.armed = true ∧ s.pending = none ∧ s.kH = .idle) ∧
    (let s : State := { base with schedule := [.post 8 0] };
      s.schedule = [.post 8 0] ∧ ¬ (s.enabled = true ∧ s.armed = true ∧ s.pending = none ∧ s.kH = .idle)) ∧
    (let s : State := { base with schedule := [.handler], pending := some ⟨8, 0⟩ };
      s.schedule = [.handler] ∧ s.kH = .idle ∧ s.enabled = false) ∧
    (let s : State := { master with schedule := [.handler] };
      s.schedule = [.handler] ∧ s.kH = .idle ∧ s.pending = none) := by decide

theorem witness_PendingEventIsNeverLost :
    ({ ready with pending := some ⟨8, 0⟩ } : State).pending = some ⟨8, 0⟩ ∧
    (nextOf (step { ready with pending := some ⟨8, 0⟩ })).isSome = true ∧
    (nextOf (step { master with schedule := [.handler], pending := some ⟨0xF8, 0⟩ })).map (·.pending) = some none := by
  decide

theorem witness_CommandsSetTheDeliveryFlags :
    ({ master with schedule := [.stopDone], stopPending := true } : State).stopPending = true ∧
    (nextOf (step { master with schedule := [.stopDone], stopPending := true })).map (·.stopPending) = some false := by
  decide

theorem witness_PortWritesChangeOneRegister : PhysReg.data ≠ .control ∧ PhysReg.bitrate ≠ .data := by decide

theorem witness_BeginMasterConfigures :
    (master.kC = .idle ∧ master.initialized = true) ∧ (base.kC = .idle ∧ base.initialized = false) ∧
    inStep (.beginMaster 1) 2 (caller (.beginMaster 1) 2 base) ∧
    (inStep (.beginMaster 100000) 3 (caller (.beginMaster 100000) 3 base) ∧
      divisor base.cfg.fClk 100000 = some 72) ∧
    (inStep (.beginMaster 0) 3 (caller (.beginMaster 0) 3 base) ∧ divisor base.cfg.fClk 0 = none) ∧
    divisor base.cfg.fClk 1000000 = some 0 ∧ divisor base.cfg.fClk 30361 = some 255 ∧
    inStep (.beginMaster 1) 4 (caller (.beginMaster 1) 4 base) ∧
    inStep (.beginMaster 1) 5 (caller (.beginMaster 1) 5 base) := by decide

theorem witness_BeginSlaveConfigures :
    (slave.kC = .idle ∧ slave.initialized = true) ∧ (base.kC = .idle ∧ base.initialized = false) ∧
    inStep (.beginSlave 127) 2 (caller (.beginSlave 127) 2 base) ∧
    inStep (.beginSlave 127) 3 (caller (.beginSlave 127) 3 base) ∧
    inStep (.beginSlave 127) 4 (caller (.beginSlave 127) 4 base) ∧
    inStep (.beginSlave 127) 5 (caller (.beginSlave 127) 5 base) := by decide

theorem witness_SecondBeginFails :
    base.kC = .idle ∧ base.initialized = false ∧ (nextOf (runExec 5 (.beginMaster 100000) base)).isSome = true ∧
    (nextOf (runExec 5 (.beginSlave 0) base)).isSome = true ∧ master.kC = .idle ∧ master.initialized = true := by decide

theorem witness_SetFrequencyWritesTheDivisor :
    (base.kC = .idle ∧ base.initialized = false) ∧ (master.kC = .idle ∧ master.initialized = true) ∧
    (inStep (.setFrequency 1) 2 (caller (.setFrequency 1) 2 slave) ∧ slave.role = .slave) ∧
    (inStep (.setFrequency 1) 2 (caller (.setFrequency 1) 2 master) ∧ master.role = .master) ∧
    (inStep (.setFrequency 400000) 3 (caller (.setFrequency 400000) 3 master) ∧
      divisor master.cfg.fClk 400000 = some 12) ∧
    (inStep (.setFrequency 1) 3 (caller (.setFrequency 1) 3 master) ∧ divisor master.cfg.fClk 1 = none) := by decide

theorem witness_EndTearsDown :
    (base.kC = .idle ∧ base.initialized = false) ∧ (master.kC = .idle ∧ master.initialized = true) ∧
    inStep .endBus 2 (caller .endBus 2 master) ∧ inStep .endBus 3 (caller .endBus 3 master) ∧
    inStep .endBus 4 (caller .endBus 4 master) ∧ inStep .endBus 5 (caller .endBus 5 master) := by decide

theorem witness_SettersRegisterCallbacks : base.kC = .idle := rfl

theorem witness_BeginTransmissionTakesTheBus :
    (base.kC = .idle ∧ base.initialized = false) ∧
    (slave.kC = .idle ∧ slave.initialized = true ∧ slave.role = .slave) ∧
    (master.kC = .idle ∧ master.initialized = true ∧ master.role = .master ∧ master.state = .ready) ∧
    (inStep (.beginTransmission 127) 2 (caller (.beginTransmission 127) 2 { master with state := .slaveReceive }) ∧
      ({ master with state := .slaveReceive } : State).state ≠ .ready) ∧
    inStep (.beginTransmission 127) 2 (caller (.beginTransmission 127) 2 master) ∧
    inStep (.beginTransmission 127) 3 (caller (.beginTransmission 127) 3 master) ∧
    inStep (.beginTransmission 127) 4 (caller (.beginTransmission 127) 4 master) ∧
    inStep (.beginTransmission 127) 5 (caller (.beginTransmission 127) 5 master) ∧
    inStep (.beginTransmission 127) 6 (caller (.beginTransmission 127) 6 master) := by decide

/-- The sizes at and beside the boundary 32, and both places past the first step. -/
theorem witness_WriteAppends :
    (base.kC = .idle ∧ ({ base with size := 32 } : State).size.toNat = 32) ∧
    (({ base with size := 31 } : State).size.toNat ≠ 32 ∧ ({ base with size := 31 } : State).size.toNat < 32) ∧
    ({ base with size := 33 } : State).size.toNat ≠ 32 ∧
    (({ base with kC := .running (.write 1) { step := 2, n := 31 } } : State).kC =
        .running (.write 1) { step := 2, n := 31 } ∧ (31 : Byte).toNat < 32) ∧
    (({ base with kC := .running (.write 1) { step := 2, n := 32 } } : State).kC =
        .running (.write 1) { step := 2, n := 32 } ∧ 32 ≤ (32 : Byte).toNat) ∧
    ({ base with kC := .running (.write 1) { step := 3, n := 31 } } : State).kC =
        .running (.write 1) { step := 3, n := 31 } := by decide

theorem witness_WriteBlockWritesWhatFits :
    ([1, 2, 3] : List Byte).length ≤ 255 ∧ base.kC = .idle ∧ ({ base with size := 30 } : State).size.toNat ≤ 32 ∧
    ({ base with size := 32 } : State).size.toNat ≤ 32 ∧ ([1] : List Byte) ≠ [] ∧
    (({ base with size := 32, kC := .running (.writeBlock [1, 2, 3]) { step := 21, k := 2 } } : State).kC =
        .running (.writeBlock [1, 2, 3]) { step := 21, k := 2 } ∧ ({ base with size := 32 } : State).size.toNat = 32) ∧
    ({ base with size := 31 } : State).size.toNat ≠ 32 ∧
    (([1, 2, 3] : List Byte)[2]? = some 3 ∧ (31 : Byte).toNat < 32 ∧
      ({ base with kC := .running (.writeBlock [1, 2, 3]) { step := 22, n := 31, k := 2 } } : State).kC =
        .running (.writeBlock [1, 2, 3]) { step := 22, n := 31, k := 2 }) ∧
    32 ≤ (33 : Byte).toNat ∧
    (({ base with kC := .running (.writeBlock [1, 2, 3]) { step := 23, n := 31, k := 1 } } : State).kC =
        .running (.writeBlock [1, 2, 3]) { step := 23, n := 31, k := 1 } ∧ 1 + 1 < ([1, 2, 3] : List Byte).length ∧
      2 + 1 = ([1, 2, 3] : List Byte).length) ∧
    inStep (.writeBlock []) 3 (caller (.writeBlock []) 3 base) := by decide

/-- A block of the longest length at its last step. -/
theorem witness_WriteBlockWritesWhatFits_longest :
    inStep (.writeBlock (List.replicate 255 7)) 3 (caller (.writeBlock (List.replicate 255 7)) 3 base) ∧
    (List.replicate 255 (7 : Byte)).length ≤ 255 := ⟨rfl, Nat.le_of_eq List.length_replicate⟩

theorem witness_EndTransmissionReturnsTheStatus :
    (base.kC = .idle ∧ base.initialized = false) ∧
    (slave.kC = .idle ∧ slave.initialized = true ∧ slave.role = .slave) ∧
    (master.kC = .idle ∧ master.initialized = true ∧ master.role = .master) ∧
    inStep (.endTransmission true) 2 (caller (.endTransmission true) 2 master) ∧
    inStep (.endTransmission true) 3 (caller (.endTransmission true) 3 master) ∧
    (inStep (.endTransmission true) 4 (caller (.endTransmission true) 4 master) ∧ master.inRepStart = false) ∧
    (let s : State := { master with inRepStart := true, address := some 0xA2 };
      inStep (.endTransmission true) 4 (caller (.endTransmission true) 4 s) ∧ s.inRepStart = true ∧
        s.address = some 0xA2) ∧
    (let s : State := { master with inRepStart := true };
      inStep (.endTransmission true) 4 (caller (.endTransmission true) 4 s) ∧ s.inRepStart = true ∧
        s.address = none) ∧
    (let s : State := { master with state := .masterTransmit };
      inStep (.endTransmission true) 5 (caller (.endTransmission true) 5 s) ∧ s.state = .masterTransmit) ∧
    (inStep (.endTransmission true) 5 (caller (.endTransmission true) 5 master) ∧ master.state ≠ .masterTransmit) ∧
    inStep (.endTransmission true) 6 (caller (.endTransmission true) 6 master) ∧ master.status = none ∧
    ({ master with status := some .success } : State).status = some .success ∧
    ({ master with status := some .addressNack } : State).status = some .addressNack ∧
    ({ master with status := some .dataNack } : State).status = some .dataNack ∧
    ({ master with status := some .otherError } : State).status = some .otherError := by decide

/-- The quantities at the guards' boundaries: 0, 1, 32, 33. -/
theorem witness_RequestFromReceives :
    (base.kC = .idle ∧ base.initialized = false) ∧
    (slave.kC = .idle ∧ slave.initialized = true ∧ slave.role = .slave) ∧
    (master.kC = .idle ∧ master.initialized = true ∧ master.role = .master) ∧
    32 < (33 : Byte).toNat ∧ (1 ≤ (1 : Byte).toNat ∧ (1 : Byte).toNat ≤ 32) ∧
    (1 ≤ (32 : Byte).toNat ∧ (32 : Byte).toNat ≤ 32) ∧
    (let s : State := { master with state := .slaveTransmit };
      inStep (.requestFrom 0x50 3 true) 2 (caller (.requestFrom 0x50 3 true) 2 s) ∧ s.state ≠ .ready) ∧
    (inStep (.requestFrom 0x50 3 true) 2 (caller (.requestFrom 0x50 3 true) 2 master) ∧ master.state = .ready) ∧
    (∀ k, inStep (.requestFrom 0x50 3 true) k (caller (.requestFrom 0x50 3 true) k master)) ∧
    master.inRepStart = false ∧
    (let s : State := { master with inRepStart := true, address := some 0xA1 };
      inStep (.requestFrom 0x50 3 true) 8 (caller (.requestFrom 0x50 3 true) 8 s) ∧ s.inRepStart = true ∧
        s.address = some 0xA1) ∧
    (let s : State := { master with inRepStart := true };
      inStep (.requestFrom 0x50 3 true) 8 (caller (.requestFrom 0x50 3 true) 8 s) ∧ s.inRepStart = true ∧
        s.address = none) ∧
    (let s : State := { master with state := .masterReceive };
      inStep (.requestFrom 0x50 3 true) 9 (caller (.requestFrom 0x50 3 true) 9 s) ∧ s.state = .masterReceive) ∧
    (inStep (.requestFrom 0x50 3 true) 9 (caller (.requestFrom 0x50 3 true) 9 master) ∧
      master.state ≠ .masterReceive) ∧
    ({ master with kC := .running (.requestFrom 0x50 3 true) { step := 11, n := 3 } } : State).kC =
      .running (.requestFrom 0x50 3 true) { step := 11, n := 3 } := by
  refine ⟨by decide, by decide, by decide, by decide, by decide, by decide, by decide, by decide, fun _ => rfl, by decide,
    by decide, by decide, by decide, by decide, by decide⟩

theorem witness_AvailableCountsUnreadBytes :
    base.kC = .idle ∧
    (let s : State := { base with index := 2, kC := .running .available { step := 2, n := 2 } };
      s.kC = .running .available { step := 2, n := 2 } ∧ s.index.toNat ≤ (2 : Byte).toNat) ∧
    (let s : State := { base with index := 3, kC := .running .available { step := 2, n := 2 } };
      s.kC = .running .available { step := 2, n := 2 } ∧ (2 : Byte).toNat < s.index.toNat) := by decide

/-- A buffer whose last cell alone is written, and both sides of the tests of steps 2 and 3. -/
theorem witness_ReadTakesTheNextByte :
    base.kC = .idle ∧
    (let s : State := { base with size := 2, kC := .running .read { step := 2, i := 2 } };
      s.kC = .running .read { step := 2, i := 2 } ∧ s.size.toNat ≤ (2 : Byte).toNat) ∧
    (let s : State := { base with size := 2, kC := .running .read { step := 2, i := 1 } };
      s.kC = .running .read { step := 2, i := 1 } ∧ (1 : Byte).toNat < s.size.toNat) ∧
    (let s : State := { base with buf := [(31, 7)], kC := .running .read { step := 3, i := 31 } };
      s.kC = .running .read { step := 3, i := 31 } ∧ (31 : Byte).toNat < 32 ∧
        Memory.read s.buf (31 : Byte).toNat = some 7) ∧
    (let s : State := { base with kC := .running .read { step := 3, i := 31 } };
      s.kC = .running .read { step := 3, i := 31 } ∧ (31 : Byte).toNat < 32 ∧
        Memory.read s.buf (31 : Byte).toNat = none) ∧
    (let s : State := { base with kC := .running .read { step := 3, i := 32 } };
      s.kC = .running .read { step := 3, i := 32 } ∧ 32 ≤ (32 : Byte).toNat) ∧
    ({ base with kC := .running .read { step := 4, i := 31, v := 7 } } : State).kC =
      .running .read { step := 4, i := 31, v := 7 } ∧
    (let s : State := { base with index := 31, size := 32, buf := [(31, 7)] };
      s.kC = .idle ∧ s.index.toNat < s.size.toNat ∧ s.index.toNat < 32 ∧
        Memory.read s.buf s.index.toNat = some 7) := by decide

theorem witness_ReadsReturnTheBytesInOrder :
    let s : State := { base with index := 1, size := 3, buf := [(1, 0x11), (2, 0x22)] };
    s.kC = .idle ∧ s.size.toNat ≤ 32 ∧ s.index.toNat + ([0x11, 0x22] : List Byte).length ≤ s.size.toNat ∧
      ∀ k, k < ([0x11, 0x22] : List Byte).length →
        Memory.read s.buf (s.index.toNat + k) = ([0x11, 0x22] : List Byte)[k]? := by decide

theorem witness_StrayPayloadFaults : base.kC = .idle := rfl

theorem witness_StartSendsTheAddress :
    (Instr.evtStart 0 0 = .evtStart 0 0 ∧ Instr.evtRepStart 0 0 = .evtRepStart 0 0) ∧ master.kH = .idle ∧
    ({ master with address := some 0xA0 } : State).address = some 0xA0 ∧ master.address = none := by decide

/-- A byte left at the last position, an unwritten cell, a cursor past the buffer, and a finished transaction with each
value of `sendStop`. -/
theorem witness_MasterTransmitAckSendsOrFinishes :
    master.kH = .idle ∧
    (let s : State := { master with index := 31, size := 32, buf := [(31, 0xAA)] };
      s.index.toNat < s.size.toNat ∧ s.index.toNat < 32 ∧ Memory.read s.buf s.index.toNat = some 0xAA) ∧
    (let s : State := { master with index := 31, size := 32 };
      s.index.toNat < s.size.toNat ∧ s.index.toNat < 32 ∧ Memory.read s.buf s.index.toNat = none) ∧
    (let s : State := { master with index := 32, size := 33 };
      s.index.toNat < s.size.toNat ∧ 32 ≤ s.index.toNat) ∧
    (let s : State := { master with index := 32, size := 32, sendStop := some true };
      s.size.toNat ≤ s.index.toNat ∧ s.sendStop = some true) ∧
    (let s : State := { master with sendStop := some false };
      s.size.toNat ≤ s.index.toNat ∧ s.sendStop = some false) ∧
    (master.size.toNat ≤ master.index.toNat ∧ master.sendStop = none) := by decide

theorem witness_AbortingClassesIssueStop :
    master.kH = .idle ∧
    (let s : State := { master with kH := .stopWait (.evtMrSlaNack 0 0), stopPending := true };
      s.kH = .stopWait (.evtMrSlaNack 0 0) ∧ s.stopPending = true) ∧
    (let s : State := { master with kH := .stopWait (.evtMtSlaNack 0 0) };
      s.kH = .stopWait (.evtMtSlaNack 0 0) ∧ s.stopPending = false) := by decide

theorem witness_StopHoldsUntilDone :
    stops (.evtMtDataAck 0 0) = true ∧
    (let s : State := { master with kH := .stopWait (.evtMtDataAck 0 0), stopPending := true };
      s.kH = .stopWait (.evtMtDataAck 0 0) ∧ s.stopPending = true) ∧
    (let s : State := { master with kH := .stopWait (.evtMtDataAck 0 0) };
      s.kH = .stopWait (.evtMtDataAck 0 0) ∧ s.stopPending = false) ∧
    ∀ low din, Instr.evtMtDataAck 0 0 ≠ .evtSrStop low din :=
  ⟨by decide, by decide, by decide, fun _ _ => nofun⟩

theorem witness_ArbitrationLostReleasesTheBus : master.kH = .idle := rfl

theorem witness_MasterReceiveDecidesTheNextAck :
    master.kH = .idle ∧ ({ master with index := 31 } : State).index.toNat < 32 ∧
    32 ≤ ({ master with index := 32 } : State).index.toNat := by decide

theorem witness_MasterReceiveLastByteFinishes :
    master.kH = .idle ∧
    (let s : State := { master with index := 31, sendStop := some true };
      s.index.toNat < 32 ∧ s.sendStop = some true) ∧
    (let s : State := { master with index := 31, sendStop := some false };
      s.index.toNat < 32 ∧ s.sendStop = some false) ∧
    (master.index.toNat < 32 ∧ master.sendStop = none) ∧
    32 ≤ ({ master with index := 32 } : State).index.toNat := by decide

theorem witness_SlaveReceiveStarts : slave.kH = .idle := rfl

theorem witness_SlaveReceiveStoresOrNacks :
    slave.kH = .idle ∧ ({ slave with index := 31 } : State).index.toNat < 32 ∧
    32 ≤ ({ slave with index := 32 } : State).index.toNat := by decide

/-- The hold, its end with no callback, with a body that runs (1), and with one that faults (3). -/
theorem witness_SlaveReceiveStopFreezesTheSize :
    slave.kH = .idle ∧
    (let s : State := { slave with kH := .stopWait (.evtSrStop 0 0) };
      s.kH = .stopWait (.evtSrStop 0 0) ∧ s.stopPending = false ∧ s.onRx = 0) ∧
    ({ slave with kH := .stopWait (.evtSrStop 0 0), stopPending := true } : State).stopPending = true ∧
    (let s : State := { slave with kH := .stopWait (.evtSrStop 0 0), onRx := 1 };
      s.onRx ≠ 0 ∧ (nextOf (runBody (bodyOf s.onRx s.cfg.callbackBody).length (bodyOf s.onRx s.cfg.callbackBody)
        { s with state := .ready, size := s.index, index := 0,
                 cbLog := s.cbLog ++ [⟨s.onRx, some s.index⟩] })).isSome = true) ∧
    (let s : State := { slave with kH := .stopWait (.evtSrStop 0 0), onRx := 3 };
      s.onRx ≠ 0 ∧ (faultOf (runBody (bodyOf s.onRx s.cfg.callbackBody).length (bodyOf s.onRx s.cfg.callbackBody)
        { s with state := .ready, size := s.index, index := 0,
                 cbLog := s.cbLog ++ [⟨s.onRx, some s.index⟩] })).isSome = true) := by decide

/-- The outcome of the transmit callback `id` of a slave that is addressed. -/
def txBody (id : Byte) : Result :=
  runBody (bodyOf id slave.cfg.callbackBody).length (bodyOf id slave.cfg.callbackBody)
    { slave with onTx := id, state := .slaveTransmit, index := 0, size := 0, cbLog := slave.cbLog ++ [⟨id, none⟩] }

/-- No callback; a body that faults (3); the empty body (4); one that supplies bytes (2); one that reads back the byte
it wrote (5). -/
theorem witness_SlaveTransmitSendsTheFirstByte :
    (slave.kH = .idle ∧ slave.onTx = 0) ∧ (faultOf (txBody 3)).isSome = true ∧
    (nextOf (txBody 4)).map (fun t => (t.size, t.index)) = some (0, 0) ∧
    (nextOf (txBody 2)).map (fun t => (t.size, t.index, Memory.read t.buf t.index.toNat)) = some (3, 0, some 0x10) ∧
    (nextOf (txBody 5)).map (fun t => (t.size, t.index)) = some (1, 1) := by decide

theorem witness_SlaveTransmitMarksTheLastByte :
    slave.kH = .idle ∧
    (let s : State := { slave with index := 31, size := 32, buf := [(31, 0x22)] };
      s.index.toNat < s.size.toNat ∧ s.index.toNat < 32 ∧ Memory.read s.buf s.index.toNat = some 0x22) ∧
    slave.size.toNat ≤ slave.index.toNat ∧
    (let s : State := { slave with index := 31, size := 32 };
      s.index.toNat < s.size.toNat ∧ s.index.toNat < 32 ∧ Memory.read s.buf s.index.toNat = none) ∧
    (let s : State := { slave with index := 32, size := 33 };
      s.index.toNat < s.size.toNat ∧ 32 ≤ s.index.toNat) := by decide

theorem witness_SlaveTransmitEndReleasesTheBus : slave.kH = .idle := rfl

theorem witness_NoInfoAndUnknownCodes : slave.kH = .idle := rfl

theorem witness_ForbiddenRequestsFaultInCallbacks :
    (∃ f, Instr.beginMaster 1 = .beginMaster f) ∧ (∃ a q b, Instr.requestFrom 1 2 true = .requestFrom a q b) :=
  ⟨⟨1, rfl⟩, ⟨1, 2, true, rfl⟩⟩

/-- The cursors beside each other's boundary: a byte unread, `index = size`, `index = size + 1`. -/
theorem witness_CallbackRequestsRunWhole :
    ({ slave with size := 31 } : State).size.toNat < 32 ∧ ({ slave with size := 32 } : State).size.toNat = 32 ∧
    32 < ({ slave with size := 33 } : State).size.toNat ∧
    (let s : State := { slave with index := 1, size := 3 };
      s.index.toNat + (2 : Byte).toNat = s.size.toNat) ∧
    (let s : State := { slave with index := 3, size := 3 };
      s.index.toNat + (0 : Byte).toNat = s.size.toNat ∧ s.size.toNat ≤ s.index.toNat) ∧
    (let s : State := { slave with index := 4, size := 3 };
      s.size.toNat < s.index.toNat ∧ s.size.toNat ≤ s.index.toNat) ∧
    (let s : State := { slave with index := 31, size := 32, buf := [(31, 5)] };
      s.index.toNat < s.size.toNat ∧ s.index.toNat < 32 ∧ Memory.read s.buf s.index.toNat = some 5) ∧
    (let s : State := { slave with index := 31, size := 32 };
      s.index.toNat < s.size.toNat ∧ s.index.toNat < 32 ∧ Memory.read s.buf s.index.toNat = none) ∧
    (let s : State := { slave with index := 32, size := 33 };
      s.index.toNat < s.size.toNat ∧ 32 ≤ s.index.toNat) := by decide

/-- Room for a part of the block, no room, the empty block, and a `size` past the buffer. -/
theorem witness_CallbackBlockRunsWhole :
    ([0x10, 0x20, 0x30] : List Byte).length ≤ 255 ∧ ({ slave with size := 30 } : State).size.toNat ≤ 32 ∧
    ({ slave with size := 32 } : State).size.toNat ≤ 32 ∧ ([] : List Byte) = [] ∧
    (32 < ({ slave with size := 33 } : State).size.toNat ∧ ([0x10] : List Byte) ≠ []) := by decide

theorem witness_HandlerReadsNeitherStateNorRole : (Instr.evtSrStop 0 0).isEvent = true := by decide

theorem witness_HandlerLeavesTheCallerAlone :
    (Instr.evtStSlaAck 0 0).isEvent = true ∧
    (nextOf (exec (.evtStSlaAck 0 0) { slave with onTx := 2 })).isSome = true := by decide

theorem witness_RequestsLeaveTheHandlerAlone :
    Instr.isEvent .endBus = false ∧ (nextOf (exec .endBus master)).isSome = true := by decide

theorem witness_OnlyBeginAndEndWriteTheRole :
    (nextOf (exec (.setOnReceive 1) base)).isSome = true ∧ (∀ f, Instr.setOnReceive 1 ≠ .beginMaster f) ∧
    (∀ a, Instr.setOnReceive 1 ≠ .beginSlave a) ∧ Instr.setOnReceive 1 ≠ .endBus :=
  ⟨by decide, fun _ => nofun, fun _ => nofun, nofun⟩

theorem witness_StatusHasFiveWriters :
    (nextOf (exec (.evtArbLost 0 0) master)).map (fun t => decide (t.status ≠ master.status)) = some true := by decide

theorem witness_MasterTransmitSendsInOrder :
    let s : State := { master with index := 0, size := 2, buf := [(0, 0xAA), (1, 0x55)] };
    s.kH = .idle ∧ s.size.toNat ≤ 32 ∧ s.index.toNat + ([0xAA, 0x55] : List Byte).length ≤ s.size.toNat ∧
      (∀ k, k < ([0xAA, 0x55] : List Byte).length →
        Memory.read s.buf (s.index.toNat + k) = ([0xAA, 0x55] : List Byte)[k]?) ∧
      ∀ i ∈ [Instr.evtMtSlaAck 0 0, Instr.evtMtDataAck 0 0],
        ∃ low din, i = .evtMtSlaAck low din ∨ i = .evtMtDataAck low din := by
  refine ⟨by decide, by decide, by decide, by decide, ?_⟩
  intro i hi
  simp only [List.mem_cons, List.not_mem_nil, or_false] at hi
  exact ⟨0, 0, hi⟩

theorem witness_MasterReceiveStoresInOrder :
    let s : State := { master with index := 0, size := 2 };
    s.kH = .idle ∧ s.index = 0 ∧ s.size.toNat = ([0x12, 0x34] : List Byte).length ∧
      1 ≤ ([0x12, 0x34] : List Byte).length ∧ ([0x12, 0x34] : List Byte).length ≤ 31 := by decide

/-- A caller that holds in `END_TRANSMISSION 0`, and one that is idle. -/
theorem witness_RepeatedStartNeedsNoStop :
    let s : State := { master with index := 1, size := 1, sendStop := some false, status := some .success,
                                   state := .masterTransmit };
    (s.kH = .idle ∧ s.kC = .idle ∧ s.initialized = true ∧ s.role = .master ∧ s.sendStop = some false ∧
      s.size.toNat ≤ s.index.toNat) ∧
    (let h : State := caller (.endTransmission false) 5 s;
      h.kH = .idle ∧ h.initialized = true ∧ h.role = .master ∧ h.sendStop = some false ∧
        h.size.toNat ≤ h.index.toNat ∧ inStep (.endTransmission false) 5 h ∧ h.status = some .success) := by decide

end Sys2Proof.Tests
end

section
/-! The register space and the bus commands (00_scope.md R11, R12): what a write of one register leaves in every
register, and the frames of `emit`, `emitData` and `regWrite`. -/

namespace Sys2Proof.Machine

open Sys2Proof

/-! ### The register file -/

@[simp] theorem PhysRegs.get_set_same (r : PhysReg) (v : Byte) (p : PhysRegs) :
    PhysRegs.get r (PhysRegs.set r v p) = v := by
  cases r <;> rfl

/-- The six registers are separate cells (20_memory.md R71). -/
@[simp] theorem PhysRegs.get_set_of_ne {q r : PhysReg} (h : q ≠ r) (v : Byte) (p : PhysRegs) :
    PhysRegs.get q (PhysRegs.set r v p) = PhysRegs.get q p := by
  cases r <;> cases q <;> simp [PhysRegs.get, PhysRegs.set] at h ⊢

/-! ### The frames of the port's writes -/

theorem emit_frame (c : BusCommand) (s : State) :
    emit c s = { s with
      regs := (emit c s).regs, cmdLog := s.cmdLog ++ [.command c],
      enabled := (emit c s).enabled, armed := (emit c s).armed, stopPending := (emit c s).stopPending } := rfl

theorem emit_get_of_ne_control (c : BusCommand) (s : State) {r : PhysReg} (h : r ≠ .control) :
    PhysRegs.get r (emit c s).regs = PhysRegs.get r s.regs := by
  rw [emit_regs, PhysRegs.get_set_of_ne h]

theorem emitData_eq_regWrite (b : Byte) (s : State) :
    emitData b s = regWrite .data b { s with cmdLog := s.cmdLog ++ [.data b] } := rfl

theorem regWrite_frame (r : PhysReg) (v : Byte) (s : State) :
    regWrite r v s = { s with regs := (regWrite r v s).regs } := rfl

theorem regWrite_get_same (r : PhysReg) (v : Byte) (s : State) :
    PhysRegs.get r (regWrite r v s).regs = v := by
  rw [regWrite_regs, PhysRegs.get_set_same]

theorem regWrite_get_of_ne {q r : PhysReg} (h : q ≠ r) (v : Byte) (s : State) :
    PhysRegs.get q (regWrite r v s).regs = PhysRegs.get q s.regs := by
  rw [regWrite_regs, PhysRegs.get_set_of_ne h]

/-- Settles O17, from the frame of each write and the two rules of the register file. -/
theorem portWritesChangeOneRegister : Obligations.PortWritesChangeOneRegister :=
  ⟨fun c s => ⟨emit_frame c s, fun _ h => emit_get_of_ne_control c s h⟩,
   emitData_eq_regWrite,
   fun r v s => ⟨regWrite_frame r v s, regWrite_get_same r v s, fun _ h => regWrite_get_of_ne h v s⟩⟩

end Sys2Proof.Machine
end

section
/-! The state after reset (10_state.md R55): its table, and both invariants. -/

namespace Sys2Proof.Machine

open Sys2Proof

/-- Settles O1: each clause is a row of the definition of `State.reset`, which is R55's table. -/
theorem resetStateHoldsItsTable : Obligations.ResetStateHoldsItsTable :=
  ⟨rfl, rfl, rfl, rfl, rfl, Memory.read_nil, rfl, rfl, rfl, rfl, rfl, rfl, rfl, rfl, rfl, rfl, rfl, rfl, rfl, rfl, rfl,
   fun _ => rfl⟩

theorem reset_inv : Inv State.reset where
  buf := rfl
  index := Nat.zero_le _
  size := Nat.zero_le _
  caller := rfl
  handler := rfl

/-- At reset no delivery flag is set, the block is not begun and both continuations are idle, so no clause has anything
to say. -/
theorem reset_deliveryInv : DeliveryInv State.reset where
  armedOn h := absurd h Bool.false_ne_true
  stopHeld h := absurd h Bool.false_ne_true
  heldOn h := absurd rfl h
  begunOn h := absurd h Bool.false_ne_true
  onBusBegun h := absurd h Bool.false_ne_true
  beginningOn h := absurd h Bool.false_ne_true

/-- Settles O2. -/
theorem resetMeetsBothInvariants : Obligations.ResetMeetsBothInvariants := ⟨reset_inv, reset_deliveryInv⟩

end Sys2Proof.Machine
end

section
/-! What one step of a request can do, whatever place its rule stands at: a frame over every request, a narrower one
over the requests that do not set the block up, and the elimination that carries a fact about a rule to `exec`. -/

namespace Sys2Proof.Machine

open Sys2Proof

/-! ### The rule of a request -/

/-- The numbered steps `exec` runs for a request. -/
def requestRule : Instr → Frame → State → Advance
  | .beginMaster f => beginMasterRule f
  | .beginSlave a => beginSlaveRule a
  | .setFrequency f => setFrequencyRule f
  | .endBus => endRule
  | .setOnReceive b => setOnReceiveRule b
  | .setOnTransmit b => setOnTransmitRule b
  | .beginTransmission a => beginTransmissionRule a
  | .write b => writeByteRule (.write b) b
  | .writeBlock bytes => writeBlockRule bytes
  | .endTransmission b => endTransmissionRule b
  | .requestFrom a q b => requestFromRule a q b
  | .available => availableRule
  | .read => readRule
  | .writeBlockPayload b => payloadRule b
  | _ => fun _ _ => .refused .noSuchStep

theorem exec_request {i : Instr} (hi : i.isEvent = false) (s : State) :
    exec i s = callerStep i (requestRule i) s := by
  cases i <;> simp only [Instr.isEvent, eventFields, Option.isSome_some, Bool.true_eq_false] at hi
  all_goals rfl

/-- A step that goes on does so with `P`, and one that returns does so with `Q`: `Holds` without the claim that no step
is refused. -/
def Yields (P : Frame → State → Prop) (Q : State → Prop) : Advance → Prop
  | .goto fr t => P fr t
  | .ret _ t => Q t
  | .fault _ => True
  | .refused _ => True

@[simp] theorem yields_goto {P Q} (fr : Frame) (t : State) : Yields P Q (.goto fr t) = P fr t := rfl
@[simp] theorem yields_ret {P Q} (v : Byte) (t : State) : Yields P Q (.ret v t) = Q t := rfl

theorem Holds.yields {P : Frame → State → Prop} {Q : State → Prop} {a : Advance} (h : Holds P Q a) : Yields P Q a := by
  cases a with
  | goto fr t => exact h
  | ret v t => exact h
  | fault r => trivial
  | refused r => trivial

theorem Yields.mono {P P' : Frame → State → Prop} {Q Q' : State → Prop} {a : Advance} (h : Yields P Q a)
    (hP : ∀ fr t, P fr t → P' fr t) (hQ : ∀ t, Q t → Q' t) : Yields P' Q' a := by
  cases a with
  | goto fr t => exact hP fr t h
  | ret v t => exact hQ t h
  | fault r => trivial
  | refused r => trivial

/-- What holds of every step of a request's rule holds of `exec`, up to the caller's place and the response. -/
theorem exec_request_cases {P : Frame → State → Prop} {Q : State → Prop} {i : Instr} {s t : State}
    (hi : i.isEvent = false) (h : exec i s = .next t)
    (hrule : ∀ fr, callerAt i fr s → Yields P Q (requestRule i fr s)) :
    (∃ fr u, P fr u ∧ t = { u with kC := .running i fr }) ∨
    (∃ v u, Q u ∧ t = { u with kC := .idle, reqLog := u.reqLog ++ [⟨i, v⟩] }) := by
  rw [exec_request hi, callerStep_eq_next] at h
  obtain ⟨fr, hat, ⟨fr', u, he, ht⟩ | ⟨v, u, he, ht⟩⟩ := h
  · exact .inl ⟨fr', u, by simpa only [he, yields_goto] using hrule fr hat, ht⟩
  · exact .inr ⟨v, u, by simpa only [he, yields_ret] using hrule fr hat, ht⟩

/-! ### The frames -/

/-- `t` is `s` but for the fields some step of a request may write (R43), and the command log only grew. -/
structure RequestFrame (s t : State) : Prop where
  rest : t = { s with role := t.role, state := t.state, index := t.index, size := t.size, buf := t.buf,
                      address := t.address, sendStop := t.sendStop, inRepStart := t.inRepStart, status := t.status,
                      initialized := t.initialized, onRx := t.onRx, onTx := t.onTx, regs := t.regs,
                      enabled := t.enabled, armed := t.armed, cmdLog := t.cmdLog }
  regs : t.regs = { s.regs with bitrate := t.regs.bitrate, ownAddr := t.regs.ownAddr, data := t.regs.data,
                                control := t.regs.control }
  cmd  : s.cmdLog <+: t.cmdLog

/-- A request's frame that keeps what `BEGIN_MASTER`, `BEGIN_SLAVE` and `END` write (R31, R40, R47, R52). -/
structure RoleFrame (s t : State) : Prop extends RequestFrame s t where
  role        : t.role = s.role
  initialized : t.initialized = s.initialized
  enabled     : t.enabled = s.enabled
  ownAddr     : t.regs.ownAddr = s.regs.ownAddr

/-- A step that writes neither a register nor the command log. -/
theorem RequestFrame.of_eq {s t : State}
    (h : t = { s with role := t.role, state := t.state, index := t.index, size := t.size, buf := t.buf,
                      address := t.address, sendStop := t.sendStop, inRepStart := t.inRepStart, status := t.status,
                      initialized := t.initialized, onRx := t.onRx, onTx := t.onTx }) : RequestFrame s t := by
  rw [h]; exact ⟨rfl, rfl, List.prefix_rfl⟩

/-- A step that writes neither a register, nor the command log, nor the role. -/
theorem RoleFrame.of_eq {s t : State}
    (h : t = { s with state := t.state, index := t.index, size := t.size, buf := t.buf, address := t.address,
                      sendStop := t.sendStop, inRepStart := t.inRepStart, status := t.status, onRx := t.onRx,
                      onTx := t.onTx }) : RoleFrame s t := by
  rw [h]; exact ⟨⟨rfl, rfl, List.prefix_rfl⟩, rfl, rfl, rfl, rfl⟩

theorem RoleFrame.refl (s : State) : RoleFrame s s := .of_eq rfl

/-- `BEGIN_MASTER`, `BEGIN_SLAVE` and `END` (40_init.md R141, R143, R145). -/
def setsUp : Instr → Bool
  | .beginMaster _ | .beginSlave _ | .endBus => true
  | _ => false

/-! ### Each rule in its frame -/

theorem beginMasterRule_frame (f : BitVec 24) (fr : Frame) (s : State) :
    Yields (fun _ => RequestFrame s) (RequestFrame s) (beginMasterRule f fr s) := by
  unfold beginMasterRule
  split
  · split <;> exact .of_eq rfl
  · exact .of_eq rfl
  · split
    · exact ⟨rfl, rfl, List.prefix_rfl⟩
    · trivial
  · exact ⟨rfl, rfl, List.prefix_append _ _⟩
  · exact .of_eq rfl
  · trivial

theorem beginSlaveRule_frame (a : BitVec 7) (fr : Frame) (s : State) :
    Yields (fun _ => RequestFrame s) (RequestFrame s) (beginSlaveRule a fr s) := by
  unfold beginSlaveRule
  split
  · split <;> exact .of_eq rfl
  · exact .of_eq rfl
  · exact ⟨rfl, rfl, List.prefix_rfl⟩
  · exact ⟨rfl, rfl, List.prefix_append _ _⟩
  · exact .of_eq rfl
  · trivial

theorem endRule_frame (fr : Frame) (s : State) :
    Yields (fun _ => RequestFrame s) (RequestFrame s) (endRule fr s) := by
  unfold endRule
  split
  · split <;> exact .of_eq rfl
  · exact ⟨rfl, rfl, List.prefix_append _ _⟩
  · exact ⟨rfl, rfl, List.prefix_rfl⟩
  · exact ⟨rfl, rfl, List.prefix_rfl⟩
  · exact .of_eq rfl
  · trivial

theorem setFrequencyRule_frame (f : BitVec 24) (fr : Frame) (s : State) :
    Yields (fun _ => RoleFrame s) (RoleFrame s) (setFrequencyRule f fr s) := by
  unfold setFrequencyRule
  split
  · split
    · exact .refl s
    · trivial
  · split <;> exact .refl s
  · split
    · exact ⟨⟨rfl, rfl, List.prefix_rfl⟩, rfl, rfl, rfl, rfl⟩
    · trivial
  · trivial

theorem issueAddress_frame {s t : State} (h : issueAddress s = .next t) : RoleFrame s t := by
  rcases issueAddress_eq_next.1 h with ⟨-, a, -, rfl⟩ | ⟨-, rfl⟩
  · refine ⟨⟨rfl, rfl, ?_⟩, rfl, rfl, rfl, rfl⟩
    exact (List.prefix_append _ _).trans (List.prefix_append _ _)
  · exact ⟨⟨rfl, rfl, List.prefix_append _ _⟩, rfl, rfl, rfl, rfl⟩

theorem issueThen_frame (fr : Frame) (s : State) : Yields (fun _ => RoleFrame s) (RoleFrame s) (issueThen fr s) :=
  (issueThen_holds fun _ => issueAddress_frame).yields

theorem beginTransmissionRule_frame (a : BitVec 7) (fr : Frame) (s : State) :
    Yields (fun _ => RoleFrame s) (RoleFrame s) (beginTransmissionRule a fr s) := by
  unfold beginTransmissionRule
  split
  · split
    · trivial
    · split <;> exact .refl s
  · split <;> exact .refl s
  · exact .of_eq rfl
  · exact .of_eq rfl
  · exact .of_eq rfl
  · exact .of_eq rfl
  · trivial

theorem endTransmissionRule_frame (b : Bool) (fr : Frame) (s : State) :
    Yields (fun _ => RoleFrame s) (RoleFrame s) (endTransmissionRule b fr s) := by
  unfold endTransmissionRule
  split
  · split
    · trivial
    · split <;> exact .refl s
  · exact .of_eq rfl
  · exact .of_eq rfl
  · exact issueThen_frame _ s
  · split <;> exact .refl s
  · split
    · exact .refl s
    · trivial
  · trivial

theorem requestFromRule_frame (a : BitVec 7) (q : Byte) (b : Bool) (fr : Frame) (s : State) :
    Yields (fun _ => RoleFrame s) (RoleFrame s) (requestFromRule a q b fr s) := by
  unfold requestFromRule
  split
  · split
    · trivial
    · split
      · exact .refl s
      · split
        · exact .refl s
        · split
          · trivial
          · exact .refl s
  · split <;> exact .refl s
  · exact .of_eq rfl
  · exact .of_eq rfl
  · exact .of_eq rfl
  · exact .of_eq rfl
  · exact .of_eq rfl
  · exact issueThen_frame _ s
  · split <;> exact .refl s
  · exact .of_eq rfl
  · exact .of_eq rfl
  · trivial

/-- `t` is `s` but for the buffer, the cursors and the two callback ids. -/
def BufferFrame (s t : State) : Prop :=
  t = { s with buf := t.buf, index := t.index, size := t.size, onRx := t.onRx, onTx := t.onTx }

theorem BufferFrame.refl (s : State) : BufferFrame s s := rfl

theorem BufferFrame.roleFrame {s t : State} (h : BufferFrame s t) : RoleFrame s t := .of_eq (by rw [h])

theorem writeByteRule_bufferFrame (by_ : Instr) (b : Byte) (fr : Frame) (s : State) :
    Yields (fun _ => BufferFrame s) (BufferFrame s) (writeByteRule by_ b fr s) := by
  unfold writeByteRule
  split
  · split <;> exact .refl s
  · split
    · rename_i h
      obtain ⟨-, rfl⟩ := bufWrite_eq_ok.1 h
      exact rfl
    · trivial
  · exact rfl
  · trivial

theorem writeBlockRule_bufferFrame (bytes : List Byte) (fr : Frame) (s : State) :
    Yields (fun _ => BufferFrame s) (BufferFrame s) (writeBlockRule bytes fr s) := by
  unfold writeBlockRule
  split
  · exact .refl s
  · exact .refl s
  case h_6 => trivial
  all_goals
    split
    · trivial
    · rename_i b _
      have hbyte := writeByteRule_bufferFrame (.writeBlock bytes) b { step := fr.step - 20, n := fr.n } s
      generalize writeByteRule _ _ _ s = a at hbyte
      cases a with
      | goto g t => exact hbyte
      | ret r t => dsimp only; split <;> exact hbyte
      | fault r => trivial
      | refused r => trivial

theorem availableRule_bufferFrame (fr : Frame) (s : State) :
    Yields (fun _ => BufferFrame s) (BufferFrame s) (availableRule fr s) := by
  unfold availableRule
  split
  · exact .refl s
  · split
    · trivial
    · exact .refl s
  · trivial

theorem readRule_bufferFrame (fr : Frame) (s : State) :
    Yields (fun _ => BufferFrame s) (BufferFrame s) (readRule fr s) := by
  unfold readRule
  split
  · exact .refl s
  · split <;> exact .refl s
  · split
    · exact .refl s
    · trivial
  · exact rfl
  · trivial

/-- The requests R289 permits in a callback body write the buffer, the cursors and the callback ids alone. -/
theorem bodyRule_bufferFrame {i : Instr} {rule : Frame → State → Advance} (h : bodyRule i = some rule) (fr : Frame)
    (s : State) : Yields (fun _ => BufferFrame s) (BufferFrame s) (rule fr s) := by
  cases i <;> simp only [bodyRule, reduceCtorEq] at h <;> cases h
  case setOnReceive b =>
    unfold setOnReceiveRule
    split
    · exact rfl
    · trivial
  case setOnTransmit b =>
    unfold setOnTransmitRule
    split
    · exact rfl
    · trivial
  case write b => exact writeByteRule_bufferFrame _ b fr s
  case writeBlock bytes => exact writeBlockRule_bufferFrame bytes fr s
  case available => exact availableRule_bufferFrame fr s
  case read => exact readRule_bufferFrame fr s
  case writeBlockPayload b => unfold payloadRule; split <;> trivial

/-- A request is one of these: one of the three that set the block up, `SET_FREQUENCY`, one that goes on the bus, or
one a callback body may contain. -/
inductive RequestKind : Instr → Prop
  | beginMaster (f : BitVec 24) : RequestKind (.beginMaster f)
  | beginSlave (a : BitVec 7) : RequestKind (.beginSlave a)
  | endBus : RequestKind .endBus
  | setFrequency (f : BitVec 24) : RequestKind (.setFrequency f)
  | onBus (i : Instr) (h : ∀ fr, callerOnBus (.running i fr) = true) : RequestKind i
  | body (i : Instr) (h : bodyRule i = some (requestRule i)) : RequestKind i

theorem requestKind {i : Instr} (hi : i.isEvent = false) : RequestKind i := by
  cases i
  case beginMaster f => exact .beginMaster f
  case beginSlave a => exact .beginSlave a
  case endBus => exact .endBus
  case setFrequency f => exact .setFrequency f
  case beginTransmission a => exact .onBus _ fun _ => rfl
  case endTransmission b => exact .onBus _ fun _ => rfl
  case requestFrom a q b => exact .onBus _ fun _ => rfl
  case setOnReceive b => exact .body _ rfl
  case setOnTransmit b => exact .body _ rfl
  case write b => exact .body _ rfl
  case writeBlock bytes => exact .body _ rfl
  case available => exact .body _ rfl
  case read => exact .body _ rfl
  case writeBlockPayload b => exact .body _ rfl
  all_goals cases hi

/-- A request that does not set the block up keeps the role. -/
theorem requestRule_roleFrame {i : Instr} (hi : i.isEvent = false) (hs : setsUp i = false) (fr : Frame) (s : State) :
    Yields (fun _ => RoleFrame s) (RoleFrame s) (requestRule i fr s) := by
  cases requestKind hi with
  | beginMaster f => cases hs
  | beginSlave a => cases hs
  | endBus => cases hs
  | setFrequency f => exact setFrequencyRule_frame f fr s
  | onBus i h =>
    cases i
    case beginTransmission a => exact beginTransmissionRule_frame a fr s
    case endTransmission b => exact endTransmissionRule_frame b fr s
    case requestFrom a q b => exact requestFromRule_frame a q b fr s
    all_goals cases h fr
  | body i h => exact (bodyRule_bufferFrame h fr s).mono (fun _ _ => (·.roleFrame)) fun _ => (·.roleFrame)

theorem requestRule_frame {i : Instr} (hi : i.isEvent = false) (fr : Frame) (s : State) :
    Yields (fun _ => RequestFrame s) (RequestFrame s) (requestRule i fr s) := by
  by_cases hs : setsUp i = true
  · cases i
    case beginMaster f => exact beginMasterRule_frame f fr s
    case beginSlave a => exact beginSlaveRule_frame a fr s
    case endBus => exact endRule_frame fr s
    all_goals cases hs
  · exact (requestRule_roleFrame hi (by simpa using hs) fr s).mono (fun _ _ => (·.toRequestFrame))
      fun _ => (·.toRequestFrame)

end Sys2Proof.Machine
end

section
/-! What one step of the handler can do, whatever its event: an action that calls `stop()` reaches its hold, one that
calls none ends, and an action that holds stays there or ends (44_bus_primitives.md R282, 60_exceptions.md R314). -/

namespace Sys2Proof.Machine

open Sys2Proof

/-! ### The frame of an action -/

/-- `t` is `s` but for the fields a handler action may write before it calls `stop()` or ends (R43); the logs only grew,
and the buffer and the cursors stay in their bounds. -/
structure ActionFrame (s t : State) : Prop where
  rest : t = { s with state := t.state, index := t.index, size := t.size, buf := t.buf, inRepStart := t.inRepStart,
                      status := t.status, onRx := t.onRx, onTx := t.onTx, regs := t.regs, armed := t.armed,
                      cmdLog := t.cmdLog, cbLog := t.cbLog, bodyLog := t.bodyLog }
  regs : t.regs = { s.regs with data := t.regs.data, control := t.regs.control }
  cmd  : s.cmdLog <+: t.cmdLog
  cb   : s.cbLog <+: t.cbLog
  body : s.bodyLog <+: t.bodyLog
  data : DataInv s → DataInv t

theorem ActionFrame.trans {s t u : State} (h : ActionFrame s t) (g : ActionFrame t u) : ActionFrame s u where
  rest := by rw [g.rest, h.rest]
  regs := by rw [g.regs, h.regs]
  cmd := h.cmd.trans g.cmd
  cb := h.cb.trans g.cb
  body := h.body.trans g.body
  data := g.data ∘ h.data

/-- A step that writes neither a register nor a log. -/
theorem ActionFrame.of_eq {s t : State}
    (h : t = { s with state := t.state, index := t.index, size := t.size, buf := t.buf, inRepStart := t.inRepStart,
                      status := t.status }) (hd : DataInv s → DataInv t) : ActionFrame s t where
  rest := by rw [h]
  regs := by rw [h]
  cmd := by rw [h]
  cb := by rw [h]
  body := by rw [h]
  data := hd

theorem ActionFrame.refl (s : State) : ActionFrame s s := .of_eq rfl id

theorem DataInv.emit {s : State} (h : DataInv s) (c : BusCommand) : DataInv (emit c s) := ⟨h.buf, h.index, h.size⟩

/-- A bus command other than `Enable`, `Disable` and `Stop`, the ones no action issues outside `stop()`. -/
theorem emit_actionFrame {c : BusCommand} (hc : c = .ack ∨ c = .nack ∨ c = .armRepStart) (s : State) :
    ActionFrame s (emit c s) := by
  rcases hc with rfl | rfl | rfl <;>
    exact ⟨rfl, rfl, List.prefix_append _ _, List.prefix_rfl, List.prefix_rfl, (·.emit _)⟩

theorem reply_actionFrame (ack : Bool) (s : State) : ActionFrame s (reply ack s) := by
  cases ack
  · exact emit_actionFrame (.inr (.inl rfl)) s
  · exact emit_actionFrame (.inl rfl) s

theorem releaseBus_actionFrame (s : State) : ActionFrame s (releaseBus s) :=
  (emit_actionFrame (.inl rfl) s).trans (.of_eq rfl fun h => ⟨h.buf, h.index, h.size⟩)

theorem armRepeatedStart_actionFrame (s : State) : ActionFrame s (armRepeatedStart s) :=
  .trans (t := { s with inRepStart := true }) (.of_eq rfl fun h => ⟨h.buf, h.index, h.size⟩)
    ((emit_actionFrame (.inr (.inr rfl)) _).trans (.of_eq rfl fun h => ⟨h.buf, h.index, h.size⟩))

theorem emitData_actionFrame (b : Byte) (s : State) : ActionFrame s (emitData b s) :=
  ⟨rfl, rfl, List.prefix_append _ _, List.prefix_rfl, List.prefix_rfl, fun h => ⟨h.buf, h.index, h.size⟩⟩

theorem storeByte_actionFrame {ev : Instr} {v : Byte} {s t : State} (h : storeByte ev v s = .next t) :
    ActionFrame s t := by
  have hdata : DataInv s → DataInv t := fun hd => (storeByte_data hd h).1
  obtain ⟨-, rfl⟩ := storeByte_eq_next.1 h
  exact .of_eq rfl hdata

theorem sendByte_actionFrame {ev : Instr} {s t : State} (h : sendByte ev s = .next t) : ActionFrame s t := by
  have hdata : DataInv s → DataInv t := fun hd => (sendByte_data hd h).1
  obtain ⟨v, -, -, rfl⟩ := sendByte_eq_next.1 h
  exact ⟨rfl, rfl, List.prefix_append _ _, List.prefix_rfl, List.prefix_rfl, hdata⟩

theorem invokeCallback_actionFrame {id : Byte} {arg : Option Byte} {s t : State}
    (h : invokeCallback id arg s = .next t) : ActionFrame s t := by
  have hf := invokeCallback_frame h
  exact ⟨by rw [hf.rest], by rw [hf.rest], by rw [hf.rest], hf.cb, hf.body, fun hd => (invokeCallback_data hd h).1⟩

/-! ### The actions that call no `stop()` -/

/-- Wherever the action answers next, it has stayed in its frame. -/
def Acts (act : State → Result) : Prop := ∀ s t, act s = .next t → ActionFrame s t

/-- Two actions, one after the other. -/
theorem andThen_actionFrame {r : Result} {k : State → Result} {s t : State}
    (hr : ∀ u, r = .next u → ActionFrame s u) (hk : Acts k) (h : andThen r k = .next t) : ActionFrame s t := by
  obtain ⟨u, hu, ht⟩ := andThen_eq_next.1 h
  exact (hr u hu).trans (hk u t ht)

theorem Acts.of_frame {f : State → State} (hf : ∀ s, ActionFrame s (f s)) : Acts fun s => .next (f s) := by
  rintro s t ⟨⟩
  exact hf s

theorem startAction_acts : Acts startAction := by
  intro s t h
  unfold startAction at h
  split at h
  · cases h; exact (emitData_actionFrame _ s).trans (reply_actionFrame _ _)
  · cases h

theorem arbLostAction_acts : Acts arbLostAction :=
  .of_frame fun s => .trans (t := { s with status := some .otherError })
    (.of_eq rfl fun h => ⟨h.buf, h.index, h.size⟩) (releaseBus_actionFrame _)

theorem mrAddressedAction_acts : Acts mrAddressedAction := .of_frame fun s => reply_actionFrame (moreExpected s) s

theorem mrDataAckAction_acts (ev : Instr) (din : Byte) : Acts (mrDataAckAction ev din) := fun _ _ =>
  andThen_actionFrame (fun _ => storeByte_actionFrame) (.of_frame fun t => reply_actionFrame (moreExpected t) t)

theorem srAddressedAction_acts : Acts srAddressedAction :=
  .of_frame fun s => .trans (t := { s with state := .slaveReceive, index := 0 })
    (.of_eq rfl fun h => ⟨h.buf, Nat.zero_le _, h.size⟩) (reply_actionFrame _ _)

theorem srDataAckAction_acts (ev : Instr) (din : Byte) : Acts (srDataAckAction ev din) := by
  intro s t h
  unfold srDataAckAction at h
  split at h
  · exact andThen_actionFrame (fun _ => storeByte_actionFrame) (.of_frame (reply_actionFrame true)) h
  · cases h; exact reply_actionFrame _ s

theorem srDataNackAction_acts : Acts srDataNackAction := .of_frame (reply_actionFrame false)

/-- R244: the frozen `size` is the old `index`, so it stays in its bounds. -/
theorem srStopRest_acts : Acts srStopRest := by
  intro s t h
  have hfreeze : ActionFrame s { s with size := s.index, index := 0 } :=
    .of_eq rfl fun hd => ⟨hd.buf, Nat.zero_le _, hd.index⟩
  exact hfreeze.trans
    (andThen_actionFrame (fun _ => invokeCallback_actionFrame) (.of_frame releaseBus_actionFrame) h)

theorem stSend_acts (ev : Instr) : Acts (stSend ev) := by
  intro s t h
  unfold stSend at h
  split at h
  · exact andThen_actionFrame (fun _ => sendByte_actionFrame) (.of_frame fun u => reply_actionFrame (moreExpected u) u) h
  · cases h

/-- R245: the filler goes to position 0, which lies in the buffer. -/
theorem fillIfEmpty_acts (ev : Instr) : Acts (fillIfEmpty ev) := by
  intro s t h
  unfold fillIfEmpty at h
  split at h
  · split at h
    · rename_i hw
      obtain ⟨hpos, rfl⟩ := bufWrite_eq_ok.1 hw
      cases h
      exact .of_eq rfl fun hd => ⟨Memory.wf_write _ hd.buf hpos, hd.index, (by decide : (1 : Byte).toNat ≤ Config.capacity)⟩
    · cases h
  · cases h; exact .refl s

theorem stAddressedAction_acts (ev : Instr) : Acts (stAddressedAction ev) := by
  intro s t h
  have hentry : ActionFrame s { s with state := .slaveTransmit, index := 0, size := 0 } :=
    .of_eq rfl fun hd => ⟨hd.buf, Nat.zero_le _, Nat.zero_le _⟩
  refine hentry.trans (andThen_actionFrame (fun _ => invokeCallback_actionFrame) (fun u v hv => ?_) h)
  exact andThen_actionFrame (fun w => fillIfEmpty_acts ev u w) (stSend_acts ev) hv

theorem stEndAction_acts : Acts stEndAction := .of_frame releaseBus_actionFrame

theorem unknownAction_acts (ev : Instr) : Acts (unknownAction ev) := by
  intro s t h
  unfold unknownAction at h
  cases h

theorem next_acts : Acts .next := .of_frame (f := id) ActionFrame.refl

/-! ### The entries of the actions that call `stop()` -/

/-- Wherever the entry answers next, it has stayed in its frame, or it called `stop()` at the end. -/
def Enters (ev : Instr) (entry : State → Result) : Prop :=
  ∀ s t, entry s = .next t → ActionFrame s t ∨ ∃ u, ActionFrame s u ∧ t = stop ev u

theorem stop_enters (ev : Instr) : Enters ev fun s => .next (stop ev s) := by
  rintro s t ⟨⟩
  exact .inr ⟨s, .refl s, rfl⟩

theorem finishMaster_enters (ev : Instr) : Enters ev (finishMaster ev) := by
  intro s t h
  rcases finishMaster_eq_next.1 h with ⟨-, rfl⟩ | ⟨-, rfl⟩
  · exact .inr ⟨s, .refl s, rfl⟩
  · exact .inl (armRepeatedStart_actionFrame s)

theorem mtAckedAction_enters (ev : Instr) : Enters ev (mtAckedAction ev) := by
  intro s t h
  unfold mtAckedAction at h
  split at h
  · exact .inl (andThen_actionFrame (fun _ => sendByte_actionFrame) (.of_frame (reply_actionFrame true)) h)
  · exact finishMaster_enters ev s t h

theorem stopWithStatus_enters (ev : Instr) (outcome : TransmissionStatus) :
    Enters ev (stopWithStatus ev outcome) := by
  rintro s t ⟨⟩
  exact .inr ⟨{ s with status := some outcome }, .of_eq rfl fun h => ⟨h.buf, h.index, h.size⟩, rfl⟩

theorem mrDataNackAction_enters (ev : Instr) (din : Byte) : Enters ev (mrDataNackAction ev din) := by
  intro s t h
  obtain ⟨u, hu, ht⟩ := andThen_eq_next.1 h
  have hstore := storeByte_actionFrame hu
  rcases finishMaster_enters ev u t ht with hf | ⟨v, hf, ht⟩
  · exact .inl (hstore.trans hf)
  · exact .inr ⟨v, hstore.trans hf, ht⟩

/-! ### One step of the handler -/

/-- The ways one step of the handler goes on in the action of event `i`. -/
inductive HandlerCase (i : Instr) (s t : State) : Prop
  | ends (u : State) (hk : s.kH = .idle ∨ (s.kH = .stopWait i ∧ s.stopPending = false)) (hf : ActionFrame s u)
      (ht : t = endAction u)
  | stops (u : State) (hk : s.kH = .idle) (hi : stops i = true) (hf : ActionFrame s u) (ht : t = stop i u)
  | holds (hk : s.kH = .stopWait i) (hp : s.stopPending = true) (ht : t = s)

theorem handleOnce_case {i : Instr} {act : State → Result} {s t : State} (ha : Acts act)
    (h : handleOnce act s = .next t) : HandlerCase i s t := by
  obtain ⟨hk, u, hu, ht⟩ := handleOnce_eq_next.1 h
  exact .ends u (.inl hk) (ha s u hu) ht

theorem ActionFrame.kH {s t : State} (h : ActionFrame s t) : t.kH = s.kH := by rw [h.rest]

theorem handleStopping_case {i : Instr} {entry rest : State → Result} {s t : State} (hi : Machine.stops i = true)
    (he : Enters i entry) (hr : Acts rest) (h : handleStopping i entry rest s = .next t) : HandlerCase i s t := by
  rcases handleStopping_eq_next.1 h with ⟨hk, hen⟩ | ⟨hk, hp, ht⟩ | ⟨hk, hp, u, hu, ht⟩
  · rcases he s t hen with hf | ⟨u, hf, ht⟩
    · exact .ends t (.inl hk) hf (endAction_of_idle (hf.kH.trans hk)).symm
    · exact .stops u hk hi hf ht
  · exact .holds hk hp ht
  · have hready : ActionFrame s { s with state := .ready } := .of_eq rfl fun h => ⟨h.buf, h.index, h.size⟩
    exact .ends u (.inr ⟨hk, hp⟩) (hready.trans (hr _ u hu)) ht

/-- Whatever its event, a step of the handler is one of the three cases. -/
theorem exec_event_case {i : Instr} {s t : State} (hi : i.isEvent = true) (h : exec i s = .next t) :
    HandlerCase i s t := by
  cases i
  case evtStart low din => exact handleOnce_case startAction_acts h
  case evtRepStart low din => exact handleOnce_case startAction_acts h
  case evtMtSlaAck low din => exact handleStopping_case rfl (mtAckedAction_enters _) next_acts h
  case evtMtDataAck low din => exact handleStopping_case rfl (mtAckedAction_enters _) next_acts h
  case evtMtSlaNack low din => exact handleStopping_case rfl (stopWithStatus_enters _ _) next_acts h
  case evtMtDataNack low din => exact handleStopping_case rfl (stopWithStatus_enters _ _) next_acts h
  case evtArbLost low din => exact handleOnce_case arbLostAction_acts h
  case evtMrSlaAck low din => exact handleOnce_case mrAddressedAction_acts h
  case evtMrDataAck low din => exact handleOnce_case (mrDataAckAction_acts _ _) h
  case evtMrDataNack low din => exact handleStopping_case rfl (mrDataNackAction_enters _ _) next_acts h
  case evtMrSlaNack low din => exact handleStopping_case rfl (stop_enters _) next_acts h
  case evtSrSlaAck low din => exact handleOnce_case srAddressedAction_acts h
  case evtSrArbLostSlaAck low din => exact handleOnce_case srAddressedAction_acts h
  case evtSrGcallAck low din => exact handleOnce_case srAddressedAction_acts h
  case evtSrArbLostGcallAck low din => exact handleOnce_case srAddressedAction_acts h
  case evtSrDataAck low din => exact handleOnce_case (srDataAckAction_acts _ _) h
  case evtSrGcallDataAck low din => exact handleOnce_case (srDataAckAction_acts _ _) h
  case evtSrDataNack low din => exact handleOnce_case srDataNackAction_acts h
  case evtSrGcallDataNack low din => exact handleOnce_case srDataNackAction_acts h
  case evtSrStop low din => exact handleStopping_case rfl (stop_enters _) srStopRest_acts h
  case evtStSlaAck low din => exact handleOnce_case (stAddressedAction_acts _) h
  case evtStArbLostSlaAck low din => exact handleOnce_case (stAddressedAction_acts _) h
  case evtStDataAck low din => exact handleOnce_case (stSend_acts _) h
  case evtStDataNack low din => exact handleOnce_case stEndAction_acts h
  case evtStLastData low din => exact handleOnce_case stEndAction_acts h
  case evtBusError low din => exact handleStopping_case rfl (stopWithStatus_enters _ _) next_acts h
  case evtNoInfo low din => exact handleOnce_case next_acts h
  case evtUnknownD0 low din => exact handleOnce_case (unknownAction_acts _) h
  case evtUnknownD8 low din => exact handleOnce_case (unknownAction_acts _) h
  case evtUnknownE0 low din => exact handleOnce_case (unknownAction_acts _) h
  case evtUnknownE8 low din => exact handleOnce_case (unknownAction_acts _) h
  case evtUnknownF0 low din => exact handleOnce_case (unknownAction_acts _) h
  all_goals cases hi

end Sys2Proof.Machine
end

section
/-! The frames of `exec` over the instructions: what a request leaves (R43, R46, R50 to R52), and who writes the role
(R31, R40, R47). -/

namespace Sys2Proof.Machine

open Sys2Proof

/-- One atomic step of a request stays in the request's frame, up to the caller's place and the response. -/
theorem exec_request_frame {i : Instr} {s t : State} (hi : i.isEvent = false) (h : exec i s = .next t) :
    ∃ u k r, RequestFrame s u ∧ t = { u with kC := k, reqLog := u.reqLog ++ r } := by
  rcases exec_request_cases hi h fun fr _ => requestRule_frame hi fr s with ⟨fr, u, hu, ht⟩ | ⟨v, u, hu, ht⟩
  · exact ⟨u, .running i fr, [], hu, by rw [ht, List.append_nil]⟩
  · exact ⟨u, .idle, _, hu, ht⟩

/-- Settles O52, from the frame of a request. -/
theorem requestsLeaveTheHandlerAlone : Obligations.RequestsLeaveTheHandlerAlone := by
  intro i s t hi h
  obtain ⟨u, k, r, hu, rfl⟩ := exec_request_frame hi h
  dsimp only
  rw [hu.regs, hu.rest]
  exact ⟨rfl, rfl, rfl, rfl, rfl, rfl, rfl, rfl⟩

/-- What only `BEGIN_MASTER`, `BEGIN_SLAVE` and `END` write is the same in two states. -/
def SameRole (s t : State) : Prop :=
  t.role = s.role ∧ t.initialized = s.initialized ∧ t.enabled = s.enabled ∧ t.regs.ownAddr = s.regs.ownAddr

theorem RoleFrame.sameRole {s t : State} (h : RoleFrame s t) : SameRole s t :=
  ⟨h.role, h.initialized, h.enabled, h.ownAddr⟩

theorem ActionFrame.sameRole {s t : State} (h : ActionFrame s t) : SameRole s t :=
  ⟨by rw [h.rest], by rw [h.rest], by rw [h.rest], by rw [h.regs]⟩

theorem exec_request_sameRole {i : Instr} {s t : State} (hi : i.isEvent = false) (hs : setsUp i = false)
    (h : exec i s = .next t) : SameRole s t := by
  rcases exec_request_cases hi h fun fr _ => requestRule_roleFrame hi hs fr s with ⟨_, u, hu, rfl⟩ | ⟨_, u, hu, rfl⟩
  · exact hu.sameRole
  · exact hu.sameRole

theorem exec_event_sameRole {i : Instr} {s t : State} (hi : i.isEvent = true) (h : exec i s = .next t) :
    SameRole s t := by
  cases exec_event_case hi h with
  | ends u hk hf ht => subst ht; exact hf.sameRole
  | stops u hk hi hf ht => subst ht; exact hf.sameRole
  | holds hk hp ht => subst ht; exact ⟨rfl, rfl, rfl, rfl⟩

/-- Settles O53: every event keeps the role, and so does every request that does not set the block up. -/
theorem onlyBeginAndEndWriteTheRole : Obligations.OnlyBeginAndEndWriteTheRole := by
  intro i s t h hmaster hslave hend
  cases hi : i.isEvent with
  | true => exact exec_event_sameRole hi h
  | false =>
    refine exec_request_sameRole hi ?_ h
    cases i
    case beginMaster f => exact absurd rfl (hmaster f)
    case beginSlave a => exact absurd rfl (hslave a)
    case endBus => exact absurd rfl hend
    all_goals rfl

end Sys2Proof.Machine
end

section
/-! A step of the machine that answers next, and what holds of every one of them: the logs only grow (R53), and only
`STOPDONE` clears `stopPending` (R52). -/

namespace Sys2Proof.Machine

open Sys2Proof

/-! ### The ways a step goes on -/

/-- `u` is `s` but for the inputs of the run, the event slot and the registers: what a turn that runs no instruction
writes, and what a turn writes before it runs one. -/
def InputFrame (s u : State) : Prop :=
  u = { s with regs := u.regs, pending := u.pending, requests := u.requests, schedule := u.schedule, turns := u.turns }

/-- The caller's agent, in its turn, runs `i`: the request it is in, or the next one on the port. -/
def CallerRuns (s : State) (i : Instr) : Prop :=
  (∃ fr, s.kC = .running i fr) ∨ ∃ rest, decodeRequest s.requests = .ok (i, rest)

/-- The handler's agent, in its turn, runs `i`: the action that holds, or an event it takes while the hardware is on. -/
def HandlerRuns (s : State) (i : Instr) : Prop :=
  s.kH = .stopWait i ∨ (s.kH = .idle ∧ s.enabled = true ∧ i.isEvent = true)

/-- The ways a step from `s` reaches the state `t`: it runs no instruction, the caller's agent or the handler's runs `i`,
or the bus engine ends its STOP. -/
inductive StepNext (s t : State) : Prop
  | waits (ht : InputFrame s t)
  | caller (i : Instr) (u : State) (hu : InputFrame s u) (hH : s.kH = .idle) (hi : CallerRuns s i)
      (he : exec i u = .next t)
  | handler (i : Instr) (u : State) (hu : InputFrame s u) (hi : HandlerRuns s i)
      (he : exec i u = .next t)
  | stopsDone (u : State) (hu : InputFrame s u) (hturn : (takeTurn s).1 = .stopDone) (ht : t = busStopDone u)

theorem takeTurn_inputFrame (s : State) : InputFrame s (takeTurn s).2 := by
  rw [takeTurn_state]
  rfl

theorem InputFrame.busPost {s u : State} (h : InputFrame s u) (st din : Byte) : InputFrame s (busPost st din u) := by
  unfold Machine.busPost
  split
  · rw [h]; rfl
  · exact h

theorem step_next_cases {s t : State} (h : step s = .next t) : StepNext s t := by
  have hu := takeTurn_inputFrame s
  have hc := step_cases s
  generalize hturn : (takeTurn s).1 = turn at hc
  generalize (takeTurn s).2 = u at hu hc
  rw [h] at hc
  generalize hr : Host.Outcome.next t = r at hc
  cases hc with
  | callerHeld ev hH => cases hr; exact .waits hu
  | callerRuns i fr hH hC => exact .caller i u hu hH (.inl ⟨fr, hC⟩) hr.symm
  | callerTakes i rest hH hC hd => exact .caller i _ (by rw [hu]; rfl) hH (.inr ⟨rest, hd⟩) hr.symm
  | callerWaits e hH hC hd he => cases hr; exact .waits hu
  | callerFaults e hH hC hd he => cases hr
  | handlerResumes ev hH => exact .handler ev u hu (.inl hH) hr.symm
  | handlerTakes e hH hp he => exact .handler _ _ (by rw [hu]; rfl) (.inr ⟨hH, he, decodeEvent_isEvent _ _⟩) hr.symm
  | handlerWaits hH hw => cases hr; exact .waits hu
  | posts st din => cases hr; exact .waits (hu.busPost st din)
  | stopsDone => cases hr; exact .stopsDone u hu hturn rfl

/-! ### The logs -/

/-- Each of the four logs of `s` begins that of `t`. -/
def LogsGrow (s t : State) : Prop :=
  s.cmdLog <+: t.cmdLog ∧ s.reqLog <+: t.reqLog ∧ s.cbLog <+: t.cbLog ∧ s.bodyLog <+: t.bodyLog

theorem LogsGrow.refl (s : State) : LogsGrow s s :=
  ⟨List.prefix_rfl, List.prefix_rfl, List.prefix_rfl, List.prefix_rfl⟩

theorem ActionFrame.logsGrow {s t : State} (h : ActionFrame s t) : LogsGrow s t :=
  ⟨h.cmd, by rw [h.rest], h.cb, h.body⟩

theorem exec_logsGrow {i : Instr} {s t : State} (h : exec i s = .next t) : LogsGrow s t := by
  cases hi : i.isEvent with
  | false =>
    obtain ⟨u, k, r, hu, rfl⟩ := exec_request_frame hi h
    refine ⟨hu.cmd, ?_, by rw [hu.rest], by rw [hu.rest]⟩
    have hreq : u.reqLog = s.reqLog := by rw [hu.rest]
    exact hreq ▸ List.prefix_append _ _
  | true =>
    cases exec_event_case hi h with
    | ends u hk hf ht => subst ht; exact hf.logsGrow
    | stops u hk hi hf ht =>
      obtain ⟨hcmd, hreq, hcb, hbody⟩ := hf.logsGrow
      subst ht
      exact ⟨hcmd.trans (List.prefix_append _ _), hreq, hcb, hbody⟩
    | holds hk hp ht => subst ht; exact .refl _

theorem LogsGrow.trans {s t u : State} (h : LogsGrow s t) (g : LogsGrow t u) : LogsGrow s u := by
  obtain ⟨hcmd, hreq, hcb, hbody⟩ := h
  obtain ⟨gcmd, greq, gcb, gbody⟩ := g
  exact ⟨hcmd.trans gcmd, hreq.trans greq, hcb.trans gcb, hbody.trans gbody⟩

theorem InputFrame.logsGrow {s u : State} (h : InputFrame s u) : LogsGrow s u := by
  rw [h]
  exact .refl s

/-- Settles O7: an agent's move grows the logs by `exec_logsGrow`, and no other move touches one. -/
theorem logsOnlyGrow : Obligations.LogsOnlyGrow := by
  intro s t h
  cases step_next_cases h with
  | waits ht => exact ht.logsGrow
  | caller i u hu hH hi he => exact hu.logsGrow.trans (exec_logsGrow he)
  | handler i u hu hi he => exact hu.logsGrow.trans (exec_logsGrow he)
  | stopsDone u hu hturn ht => exact ht ▸ hu.logsGrow

/-! ### The delivery flags -/

/-- No instruction clears `stopPending`: a request leaves it, and the handler at most sets it. -/
theorem exec_stopPending {i : Instr} {s t : State} (hs : s.stopPending = true) (h : exec i s = .next t) :
    t.stopPending = true := by
  cases hi : i.isEvent with
  | false =>
    obtain ⟨-, -, hstop, -⟩ := requestsLeaveTheHandlerAlone i s t hi h
    rw [hstop, hs]
  | true =>
    cases exec_event_case hi h with
    | ends u hk hf ht => rw [ht, endAction_stopPending, hf.rest]; exact hs
    | stops u hk hi hf ht => rw [ht]; rfl
    | holds hk hp ht => rw [ht, hs]

/-- Only the bus engine's `STOPDONE` clears `stopPending`. -/
theorem step_clears_stopPending {s t : State} (hs : s.stopPending = true) (h : step s = .next t)
    (ht : t.stopPending = false) : (takeTurn s).1 = .stopDone := by
  have hinput {u : State} (hu : InputFrame s u) : u.stopPending = true := by rw [hu]; exact hs
  cases step_next_cases h with
  | waits hf => exact absurd (hinput hf) (by simp [ht])
  | caller i u hu hH hi he => exact absurd (exec_stopPending (hinput hu) he) (by simp [ht])
  | handler i u hu hi he => exact absurd (exec_stopPending (hinput hu) he) (by simp [ht])
  | stopsDone u hu hturn ht => exact hturn

/-- Settles O16: the table's rows are the definitions of the three flags after a command, and the last clause is
`step_clears_stopPending`. -/
theorem commandsSetTheDeliveryFlags : Obligations.CommandsSetTheDeliveryFlags := by
  refine ⟨fun s => ⟨⟨rfl, rfl, rfl⟩, ⟨rfl, rfl, rfl⟩, ?_, ⟨rfl, rfl, rfl⟩, ⟨rfl, rfl, rfl⟩, fun b => ⟨rfl, rfl, rfl⟩⟩,
    fun s t => step_clears_stopPending⟩
  rintro c (rfl | rfl | rfl) <;> exact ⟨rfl, rfl, rfl⟩

end Sys2Proof.Machine
end

section
/-! The data invariant (R33, R34, R42, R49): `exec` keeps it whatever the instruction, so every step does. -/

namespace Sys2Proof.Machine

open Sys2Proof

/-- Every request keeps the data and its own place. -/
theorem requestRule_keeps {i : Instr} (hi : i.isEvent = false) : RuleKeeps i (requestRule i) := by
  cases requestKind hi with
  | beginMaster f => exact beginMasterRule_keeps f
  | beginSlave a => exact beginSlaveRule_keeps a
  | endBus => exact endRule_keeps
  | setFrequency f => exact setFrequencyRule_keeps f
  | onBus i h =>
    cases i
    case beginTransmission a => exact beginTransmissionRule_keeps a
    case endTransmission b => exact endTransmissionRule_keeps b
    case requestFrom a q b => exact requestFromRule_keeps a q b
    all_goals cases h (atStep 1)
  | body i h => exact bodyRule_keeps h

theorem Inv.data {s : State} (h : Inv s) : DataInv s := ⟨h.buf, h.index, h.size⟩

theorem Inv.frameOk {i : Instr} {s : State} {fr : Frame} (h : Inv s) (hC : s.kC = .running i fr) :
    i.wellFormed = true ∧ Machine.frameOk i fr = true := by
  have hcaller := h.caller
  simpa only [hC, callerOk, Bool.and_eq_true] using hcaller

/-- The places `k_C` names are places of requests. -/
theorem isEvent_of_frameOk {i : Instr} {fr : Frame} (h : frameOk i fr = true) : i.isEvent = false := by
  cases i <;> simp only [frameOk, Bool.false_eq_true] at h
  all_goals rfl

/-- The events `k_H` can hold in are events. -/
theorem isEvent_of_stops {i : Instr} (h : stops i = true) : i.isEvent = true := by
  cases i <;> simp only [stops, Bool.false_eq_true] at h
  all_goals rfl

theorem exec_request_keeps_inv {i : Instr} {s t : State} (hi : i.isEvent = false) (hwf : i.wellFormed = true)
    (hs : Inv s) (h : exec i s = .next t) : Inv t := by
  have hrule (fr : Frame) (hat : callerAt i fr s) := by
    refine (requestRule_keeps hi fr s ?_ hs.data).yields
    rcases hat with ⟨-, hfr⟩ | hC
    · exact .inl hfr
    · exact .inr (hs.frameOk hC).2
  rcases exec_request_cases hi h hrule with ⟨fr, u, ⟨hu, hfr, hH⟩, rfl⟩ | ⟨v, u, ⟨hu, hH⟩, rfl⟩
  · exact ⟨hu.buf, hu.index, hu.size, by simp [callerOk, hwf, hfr], hH ▸ hs.handler⟩
  · exact ⟨hu.buf, hu.index, hu.size, rfl, hH ▸ hs.handler⟩

theorem exec_event_keeps_inv {i : Instr} {s t : State} (hi : i.isEvent = true) (hs : Inv s)
    (h : exec i s = .next t) : Inv t := by
  cases exec_event_case hi h with
  | ends u hk hf ht =>
    have hu := hf.data hs.data
    have hC : u.kC = s.kC := by rw [hf.rest]
    subst ht
    exact ⟨hu.buf, hu.index, hu.size, hC ▸ hs.caller, rfl⟩
  | stops u hk hstops hf ht =>
    have hu := hf.data hs.data
    have hC : u.kC = s.kC := by rw [hf.rest]
    subst ht
    exact ⟨hu.buf, hu.index, hu.size, hC ▸ hs.caller, hstops⟩
  | holds hk hp ht => subst ht; exact hs

/-- The invariant speaks of the buffer, the cursors and the two continuations alone. -/
theorem Inv.inputFrame {s u : State} (h : Inv s) (hu : InputFrame s u) : Inv u := by
  rw [hu]
  exact ⟨h.buf, h.index, h.size, h.caller, h.handler⟩

theorem Inv.stops {i : Instr} {s : State} (h : Inv s) (hH : s.kH = .stopWait i) : Machine.stops i = true := by
  have hhandler := h.handler
  rwa [hH] at hhandler

/-- What the caller's agent runs is a well-formed request. -/
theorem Inv.caller_request {s : State} (h : Inv s) {i : Instr} (hi : CallerRuns s i) :
    i.isEvent = false ∧ i.wellFormed = true := by
  rcases hi with ⟨fr, hC⟩ | ⟨rest, hd⟩
  · obtain ⟨hwf, hfr⟩ := h.frameOk hC
    exact ⟨isEvent_of_frameOk hfr, hwf⟩
  · exact ⟨decodeRequest_not_event hd, decodeRequest_wellFormed hd⟩

/-- What the handler's agent runs is an event. -/
theorem Inv.handler_event {s : State} (h : Inv s) {i : Instr} (hi : HandlerRuns s i) :
    i.isEvent = true := by
  rcases hi with hH | ⟨-, -, hev⟩
  · exact isEvent_of_stops (h.stops hH)
  · exact hev

/-- Settles O3: the caller's agent runs requests alone and the handler's runs events alone, and both keep the
invariant. -/
theorem stepKeepsDataInvariant : Obligations.StepKeepsDataInvariant := by
  intro s t hs h
  cases step_next_cases h with
  | waits ht => exact hs.inputFrame ht
  | caller i u hu hH hi he =>
    obtain ⟨hreq, hwf⟩ := hs.caller_request hi
    exact exec_request_keeps_inv hreq hwf (hs.inputFrame hu) he
  | handler i u hu hi he => exact exec_event_keeps_inv (hs.handler_event hi) (hs.inputFrame hu) he
  | stopsDone u hu hturn ht =>
    have hinv := hs.inputFrame hu
    rw [ht]
    exact ⟨hinv.buf, hinv.index, hinv.size, hinv.caller, hinv.handler⟩

end Sys2Proof.Machine
end

section
/-! The delivery invariant (R52, R308): what one step of a request does to the flags, with the place it leaves the caller
at, and what one step of the handler does to them while the hardware is on. -/

namespace Sys2Proof.Machine

open Sys2Proof

/-! ### The clauses about the caller -/

/-- The clauses of `DeliveryInv` that no handler position occurs in, with the caller at `k`. -/
structure DeliveryAt (k : CallerPos) (s : State) : Prop where
  armedOn     : s.armed = true → s.enabled = true
  begunOn     : s.initialized = true → callerEnding k = false → s.enabled = true
  onBusBegun  : callerOnBus k = true → s.initialized = true
  beginningOn : callerBegun k = true → s.enabled = true

theorem DeliveryInv.deliveryAt {s : State} (h : DeliveryInv s) : DeliveryAt s.kC s :=
  ⟨h.armedOn, h.begunOn, h.onBusBegun, h.beginningOn⟩

/-- With the hardware on, only the clause about a request on the bus has anything to say. -/
theorem DeliveryAt.of_enabled {k : CallerPos} {s : State} (hon : s.enabled = true)
    (hbus : callerOnBus k = true → s.initialized = true) : DeliveryAt k s :=
  ⟨fun _ => hon, fun _ _ => hon, hbus, fun _ => hon⟩

/-- A step that leaves the three flags, to a place that is neither on the bus nor past an `Enable`. -/
theorem DeliveryAt.of_sameFlags {k k' : CallerPos} {s t : State} (h : DeliveryAt k s) (hk : callerEnding k = false)
    (hen : t.enabled = s.enabled) (harm : t.armed = s.armed) (hini : t.initialized = s.initialized)
    (hbus : callerOnBus k' = false) (hbeg : callerBegun k' = false) : DeliveryAt k' t where
  armedOn := by rw [hen, harm]; exact h.armedOn
  begunOn := by rw [hen, hini]; exact fun hi _ => h.begunOn hi hk
  onBusBegun h' := absurd (hbus.symm.trans h') Bool.false_ne_true
  beginningOn h' := absurd (hbeg.symm.trans h') Bool.false_ne_true

/-- The place `k_C` names where request `i` is about to take its step at `fr`. -/
def PlaceOf (i : Instr) (fr : Frame) (k : CallerPos) : Prop := (k = .idle ∧ fr = atStep 1) ∨ k = .running i fr

/-- What a rule owes the delivery flags at each of its steps. -/
def RuleDelivers (i : Instr) (rule : Frame → State → Advance) : Prop :=
  ∀ fr k s, PlaceOf i fr k → DeliveryAt k s →
    Yields (fun fr' t => DeliveryAt (.running i fr') t) (DeliveryAt .idle) (rule fr s)

/-! ### Each request -/

/-- Past its `Enable` a `begin` has the hardware on, and up to it the flags stay as they were. -/
theorem beginMasterRule_delivers (f : BitVec 24) : RuleDelivers (.beginMaster f) (beginMasterRule f) := by
  intro fr k s hplace h
  have hk : callerEnding k = false := by rcases hplace with ⟨rfl, -⟩ | rfl <;> rfl
  unfold beginMasterRule
  split
  · split <;> exact h.of_sameFlags hk rfl rfl rfl rfl rfl
  · exact h.of_sameFlags hk rfl rfl rfl rfl rfl
  · split
    · exact h.of_sameFlags hk rfl rfl rfl rfl rfl
    · trivial
  · exact .of_enabled rfl nofun
  · rename_i hstep
    rcases hplace with ⟨-, rfl⟩ | rfl
    · cases hstep
    · exact .of_enabled (h.beginningOn (decide_eq_true hstep)) nofun
  · trivial

theorem beginSlaveRule_delivers (a : BitVec 7) : RuleDelivers (.beginSlave a) (beginSlaveRule a) := by
  intro fr k s hplace h
  have hk : callerEnding k = false := by rcases hplace with ⟨rfl, -⟩ | rfl <;> rfl
  unfold beginSlaveRule
  split
  · split <;> exact h.of_sameFlags hk rfl rfl rfl rfl rfl
  · exact h.of_sameFlags hk rfl rfl rfl rfl rfl
  · exact h.of_sameFlags hk rfl rfl rfl rfl rfl
  · exact .of_enabled rfl nofun
  · rename_i hstep
    rcases hplace with ⟨-, rfl⟩ | rfl
    · cases hstep
    · exact .of_enabled (h.beginningOn (decide_eq_true hstep)) nofun
  · trivial

/-- From its `Disable` on `END` stands at a place where a begun block may be off, and it ends with the block no longer
begun. -/
theorem endRule_delivers : RuleDelivers .endBus endRule := by
  intro fr k s hplace h
  unfold endRule
  split
  · rename_i hstep
    have hk : callerEnding k = false := by
      rcases hplace with ⟨rfl, -⟩ | rfl
      · rfl
      · simp [callerEnding, hstep]
    split <;> exact h.of_sameFlags hk rfl rfl rfl rfl rfl
  · exact ⟨nofun, nofun, nofun, nofun⟩
  · exact ⟨h.armedOn, nofun, nofun, nofun⟩
  · exact ⟨h.armedOn, nofun, nofun, nofun⟩
  · exact ⟨h.armedOn, nofun, nofun, nofun⟩
  · trivial

theorem setFrequencyRule_delivers (f : BitVec 24) : RuleDelivers (.setFrequency f) (setFrequencyRule f) := by
  intro fr k s hplace h
  have hk : callerEnding k = false := by rcases hplace with ⟨rfl, -⟩ | rfl <;> rfl
  unfold setFrequencyRule
  split
  · split
    · exact h.of_sameFlags hk rfl rfl rfl rfl rfl
    · trivial
  · split <;> exact h.of_sameFlags hk rfl rfl rfl rfl rfl
  · split
    · exact h.of_sameFlags hk rfl rfl rfl rfl rfl
    · trivial
  · trivial

/-- A request a callback body may contain touches no flag. -/
theorem bodyRule_delivers {i : Instr} {rule : Frame → State → Advance} (hb : bodyRule i = some rule) :
    RuleDelivers i rule := by
  intro fr k s hplace h
  have hquiet (fr : Frame) : callerEnding (.running i fr) = false ∧ callerOnBus (.running i fr) = false ∧
      callerBegun (.running i fr) = false := by
    cases i <;> simp only [bodyRule, reduceCtorEq] at hb
    all_goals exact ⟨rfl, rfl, rfl⟩
  have hk : callerEnding k = false := by
    rcases hplace with ⟨rfl, -⟩ | rfl
    · rfl
    · exact (hquiet fr).1
  refine (bodyRule_bufferFrame hb fr s).mono (fun fr' t ht => ?_) fun t ht => ?_
  · exact h.of_sameFlags hk (by rw [ht]) (by rw [ht]) (by rw [ht]) (hquiet fr').2.1 (hquiet fr').2.2
  · exact h.of_sameFlags hk (by rw [ht]) (by rw [ht]) (by rw [ht]) rfl rfl

/-- R170, R173, R200: the first step of a request on the bus changes nothing, and it goes on only in a begun block. -/
theorem onBus_first_step {i : Instr} (hbus : ∀ fr, callerOnBus (.running i fr) = true) (s : State) :
    Yields (fun _ t => t = s ∧ s.initialized = true) (· = s) (requestRule i (atStep 1) s) := by
  cases i
  case beginTransmission a =>
    show Yields _ _ (beginTransmissionRule a (atStep 1) s)
    simp only [beginTransmissionRule, atStep]
    split
    · trivial
    · rename_i hbegun
      have hini : s.initialized = true := by simpa using hbegun
      split
      · exact rfl
      · exact ⟨rfl, hini⟩
  case endTransmission b =>
    show Yields _ _ (endTransmissionRule b (atStep 1) s)
    simp only [endTransmissionRule, atStep]
    split
    · trivial
    · rename_i hbegun
      have hini : s.initialized = true := by simpa using hbegun
      split
      · exact rfl
      · exact ⟨rfl, hini⟩
  case requestFrom a q b =>
    show Yields _ _ (requestFromRule a q b (atStep 1) s)
    simp only [requestFromRule, atStep]
    split
    · trivial
    · rename_i hbegun
      have hini : s.initialized = true := by simpa using hbegun
      split
      · exact rfl
      · split
        · exact rfl
        · split
          · trivial
          · exact ⟨rfl, hini⟩
  all_goals cases hbus (atStep 1)

/-- Past its first step a request on the bus runs in a begun block, whose hardware is on, and it keeps both; so the
commands it emits may arm. -/
theorem onBus_delivers {i : Instr} (hi : i.isEvent = false) (hbus : ∀ fr, callerOnBus (.running i fr) = true) :
    RuleDelivers i (requestRule i) := by
  have hquiet (fr : Frame) : setsUp i = false ∧ callerEnding (.running i fr) = false := by
    have hplace := hbus fr
    cases i <;> simp only [callerOnBus, Bool.false_eq_true] at hplace
    all_goals exact ⟨rfl, rfl⟩
  rintro fr k s (⟨rfl, rfl⟩ | rfl) h
  · refine (onBus_first_step hbus s).mono (fun fr' t => ?_) fun t => ?_
    · rintro ⟨rfl, hini⟩
      exact .of_enabled (h.begunOn hini rfl) fun _ => hini
    · rintro rfl
      exact h
  · have hini := h.onBusBegun (hbus fr)
    have hon := h.begunOn hini (hquiet fr).2
    refine (requestRule_roleFrame hi (hquiet fr).1 fr s).mono (fun fr' t ht => ?_) fun t ht => ?_
    · exact .of_enabled (ht.enabled.trans hon) fun _ => ht.initialized.trans hini
    · exact .of_enabled (ht.enabled.trans hon) nofun

theorem requestRule_delivers {i : Instr} (hi : i.isEvent = false) : RuleDelivers i (requestRule i) := by
  cases requestKind hi with
  | beginMaster f => exact beginMasterRule_delivers f
  | beginSlave a => exact beginSlaveRule_delivers a
  | endBus => exact endRule_delivers
  | setFrequency f => exact setFrequencyRule_delivers f
  | onBus i h => exact onBus_delivers hi h
  | body i h => exact bodyRule_delivers h

/-! ### One step of either agent -/

/-- A request leaves `k_H` idle and `stopPending` alone, so only the clauses about the caller are at stake. -/
theorem exec_request_keeps_deliveryInv {i : Instr} {s t : State} (hi : i.isEvent = false) (hs : DeliveryInv s)
    (hH : s.kH = .idle) (h : exec i s = .next t) : DeliveryInv t := by
  have hat : DeliveryAt t.kC t := by
    have hrule (fr : Frame) (hat : callerAt i fr s) := requestRule_delivers hi fr s.kC s hat hs.deliveryAt
    rcases exec_request_cases hi h hrule with ⟨fr, u, hu, rfl⟩ | ⟨v, u, hu, rfl⟩ <;>
      exact ⟨hu.armedOn, hu.begunOn, hu.onBusBegun, hu.beginningOn⟩
  obtain ⟨hkH, -, hstop, -⟩ := requestsLeaveTheHandlerAlone i s t hi h
  have hidle : t.kH = .idle := hkH.trans hH
  exact {
    armedOn := hat.armedOn
    stopHeld := fun hp => absurd hH (hs.stopHeld (hstop ▸ hp))
    heldOn := fun hne => absurd hidle hne
    begunOn := hat.begunOn
    onBusBegun := hat.onBusBegun
    beginningOn := hat.beginningOn }

/-- The handler runs with the hardware on and leaves it on; it sets `stopPending` only where it comes to hold. -/
theorem exec_event_keeps_deliveryInv {i : Instr} {s t : State} (hi : i.isEvent = true) (hs : DeliveryInv s)
    (hon : s.enabled = true) (h : exec i s = .next t) : DeliveryInv t := by
  cases exec_event_case hi h with
  | ends u hk hf ht =>
    have hstop : s.stopPending = false := by
      rcases hk with hidle | ⟨-, hp⟩
      · exact Bool.eq_false_iff.2 fun hp => hs.stopHeld hp hidle
      · exact hp
    have hat : DeliveryAt u.kC u := .of_enabled (by rw [hf.rest]; exact hon) (by rw [hf.rest]; exact hs.onBusBegun)
    have hu : u.stopPending = false := by rw [hf.rest]; exact hstop
    subst ht
    exact ⟨hat.armedOn, fun hp => absurd (hu.symm.trans hp) Bool.false_ne_true, fun hne => absurd rfl hne, hat.begunOn,
      hat.onBusBegun, hat.beginningOn⟩
  | stops u hk hstops hf ht =>
    have hu : u.enabled = true := by rw [hf.rest]; exact hon
    have hat : DeliveryAt u.kC u := .of_enabled hu (by rw [hf.rest]; exact hs.onBusBegun)
    subst ht
    exact ⟨fun _ => hu, fun _ => nofun, fun _ => hu, hat.begunOn, hat.onBusBegun, hat.beginningOn⟩
  | holds hk hp ht => subst ht; exact hs

theorem DeliveryInv.inputFrame {s u : State} (h : DeliveryInv s) (hu : InputFrame s u) : DeliveryInv u := by
  rw [hu]
  exact ⟨h.armedOn, h.stopHeld, h.heldOn, h.begunOn, h.onBusBegun, h.beginningOn⟩

/-- The handler moves only while the hardware is on: it takes an event only then, and it holds only then. -/
theorem DeliveryInv.handler_enabled {s : State} (h : DeliveryInv s) {i : Instr} (hi : HandlerRuns s i) :
    s.enabled = true := by
  rcases hi with hH | ⟨-, hon, -⟩
  · exact h.heldOn (by rw [hH]; exact nofun)
  · exact hon

/-- Settles O4: the caller's agent runs requests alone, with `k_H` idle, and the handler's runs events alone, with the
hardware on; `STOPDONE` only clears the flag that needs a holding handler. -/
theorem stepKeepsDeliveryInvariant : Obligations.StepKeepsDeliveryInvariant := by
  intro s t hinv hs h
  cases step_next_cases h with
  | waits ht => exact hs.inputFrame ht
  | caller i u hu hH hi he =>
    have hidle : u.kH = .idle := by rw [hu]; exact hH
    exact exec_request_keeps_deliveryInv (hinv.caller_request hi).1 (hs.inputFrame hu) hidle he
  | handler i u hu hi he =>
    have hon : u.enabled = true := by rw [hu]; exact hs.handler_enabled hi
    exact exec_event_keeps_deliveryInv (hinv.handler_event hi) (hs.inputFrame hu) hon he
  | stopsDone u hu hturn ht =>
    have hu := hs.inputFrame hu
    subst ht
    exact ⟨hu.armedOn, nofun, hu.heldOn, hu.begunOn, hu.onBusBegun, hu.beginningOn⟩

end Sys2Proof.Machine
end

section
/-! The parameters of the run, which no step writes (20_memory.md R88, R90). -/

namespace Sys2Proof.Machine

open Sys2Proof

theorem exec_cfg {i : Instr} {s t : State} (h : exec i s = .next t) : t.cfg = s.cfg := by
  cases hi : i.isEvent with
  | false =>
    obtain ⟨u, k, r, hu, rfl⟩ := exec_request_frame hi h
    rw [hu.rest]
  | true =>
    cases exec_event_case hi h with
    | ends u hk hf ht => rw [ht, endAction_cfg, hf.rest]
    | stops u hk hi hf ht => rw [ht, stop_cfg, hf.rest]
    | holds hk hp ht => rw [ht]

theorem InputFrame.cfg {s u : State} (h : InputFrame s u) : u.cfg = s.cfg := by rw [h]

/-- Settles O6: an agent's move keeps the parameters by `exec_cfg`, and no other move touches them. -/
theorem parametersAreFixed : Obligations.ParametersAreFixed := by
  intro s t h
  cases step_next_cases h with
  | waits ht => exact ht.cfg
  | caller i u hu hH hi he => exact (exec_cfg he).trans hu.cfg
  | handler i u hu hi he => exact (exec_cfg he).trans hu.cfg
  | stopsDone u hu hturn ht => rw [ht, busStopDone_cfg, hu.cfg]

end Sys2Proof.Machine
end

section
/-! A listed turn, and the turns of the caller and the bus engine while the handler holds (20_memory.md R81,
60_exceptions.md R308, R322). -/

namespace Sys2Proof.Machine

open Sys2Proof

/-- A listed turn is the one a step takes. -/
theorem step_of_schedule {s : State} {turn : Turn} {ts : List Turn} (h : s.schedule = turn :: ts) :
    step s = runTurn turn (turnTaken s) := by
  simp only [step, stepTurn, takeTurn_cons h, turnTaken, h, List.tail_cons]

theorem callerTurn_of_held {s : State} {ev : Instr} (h : s.kH = .stopWait ev) : callerTurn s = .next s := by
  simp [callerTurn, h]

/-- No event is posted while the handler holds (R308). -/
theorem busPost_of_held {s : State} {ev : Instr} (h : s.kH = .stopWait ev) (st din : Byte) : busPost st din s = s := by
  simp [busPost, postEnabled, h]

/-- Settles O13: the caller's turn and a post find the handler holding, and `STOPDONE` asks for nothing. -/
theorem handlerHoldStopsTheCaller : Obligations.HandlerHoldStopsTheCaller := by
  intro s ts ev hheld
  have hheld' : (turnTaken s).kH = .stopWait ev := hheld
  refine ⟨fun h => ?_, fun st din h => ?_, fun h => ?_⟩
  · rw [step_of_schedule h, runTurn, callerTurn_of_held hheld']
  · rw [step_of_schedule h, runTurn, busPost_of_held hheld']
  · rw [step_of_schedule h, runTurn, busStopDone]

end Sys2Proof.Machine
end

section
/-! Sending from the buffer in a master transmit (43_event_handler.md R233, 44_bus_primitives.md R286): what one
acknowledging event does while bytes are left, and a whole run of them. -/

namespace Sys2Proof.Machine

open Sys2Proof

/-- The classes that acknowledge the address or a byte of a master transmit (R233). -/
def MtAcks (i : Instr) : Prop := ∃ low din, i = .evtMtSlaAck low din ∨ i = .evtMtDataAck low din

/-- The state after the handler has sent `v` from the buffer and answered ACK. -/
def byteSent (v : Byte) (s : State) : State := reply true { emitData v s with index := s.index + 1 }

@[simp] theorem byteSent_cmdLog (v : Byte) (s : State) :
    (byteSent v s).cmdLog = s.cmdLog ++ [.data v, .command .ack] := by
  simp [byteSent]

@[simp] theorem byteSent_size (v : Byte) (s : State) : (byteSent v s).size = s.size := rfl
@[simp] theorem byteSent_buf (v : Byte) (s : State) : (byteSent v s).buf = s.buf := rfl
@[simp] theorem byteSent_state (v : Byte) (s : State) : (byteSent v s).state = s.state := rfl
@[simp] theorem byteSent_kH (v : Byte) (s : State) : (byteSent v s).kH = s.kH := rfl

/-- A cursor inside the buffer does not wrap. -/
theorem byteSent_index (v : Byte) {s : State} (h : s.index.toNat < Config.capacity) :
    (byteSent v s).index.toNat = s.index.toNat + 1 := by
  have h32 : s.index.toNat < 32 := h
  show (s.index + 1).toNat = s.index.toNat + 1
  bv_omega

theorem exec_of_mtAcks {i : Instr} (hi : MtAcks i) {s : State} (hk : s.kH = .idle) : exec i s = mtAckedAction i s := by
  obtain ⟨low, din, rfl | rfl⟩ := hi <;> exact handleStopping_idle hk

/-- While bytes are left, an acknowledging event sends the next one. -/
theorem mtAckedAction_sends {i : Instr} {v : Byte} {s : State} (hmore : s.index.toNat < s.size.toNat)
    (hpos : s.index.toNat < Config.capacity) (hread : Memory.read s.buf s.index.toNat = some v) :
    mtAckedAction i s = .next (byteSent v s) := by
  have hsend : sendByte i s = .next { emitData v s with index := s.index + 1 } :=
    sendByte_eq_next.2 ⟨v, hpos, hread, rfl⟩
  rw [mtAckedAction, moreExpected, if_pos (decide_eq_true hmore), hsend, andThen_next, byteSent]

/-- Settles O55, by induction on the bytes: the first event sends the first byte, and leaves the rest of them from the
raised cursor on. -/
theorem masterTransmitSendsInOrder : Obligations.MasterTransmitSendsInOrder := by
  intro bytes
  induction bytes with
  | nil =>
    intro events s hk _ _ _ hlen _
    obtain rfl := List.eq_nil_of_length_eq_zero hlen
    exact ⟨s, rfl, by simp, rfl, rfl, rfl, rfl, hk⟩
  | cons v bytes ih =>
    intro events s hk hsize hfit hbytes hlen hacks
    obtain ⟨i, events, rfl⟩ := List.exists_cons_of_length_eq_add_one hlen
    rw [List.length_cons] at hfit hlen
    have hpos : s.index.toNat < Config.capacity := by
      have hcap : Config.capacity = 32 := rfl
      omega
    have hread : Memory.read s.buf s.index.toNat = some v := hbytes 0 (Nat.zero_lt_succ _)
    have hfirst : exec i s = .next (byteSent v s) := by
      rw [exec_of_mtAcks (hacks i List.mem_cons_self) hk, mtAckedAction_sends (by omega) hpos hread]
    have hindex := byteSent_index v hpos
    have hrest : ∀ k, k < bytes.length →
        Memory.read (byteSent v s).buf ((byteSent v s).index.toNat + k) = bytes[k]? := by
      intro k hlt
      rw [hindex, byteSent_buf, Nat.add_assoc, Nat.add_comm 1 k, hbytes (k + 1) (Nat.succ_lt_succ hlt),
        List.getElem?_cons_succ]
    obtain ⟨t, hrun, hcmd, hidx, htail⟩ := ih events (byteSent v s) hk hsize (by rw [hindex, byteSent_size]; omega)
      hrest (Nat.succ.inj hlen) fun j hj => hacks j (List.mem_cons_of_mem i hj)
    refine ⟨t, ?_, ?_, ?_, htail⟩
    · rw [runEvents_cons, hfirst, andThen_next, hrun]
    · rw [hcmd, byteSent_cmdLog, List.append_assoc, List.flatMap_cons]
    · rw [hidx, hindex, List.length_cons]; omega

end Sys2Proof.Machine
end

section
/-! The round trips of the two ports (30_encoding.md R101 to R103, R109, R111 to R114): an instruction's words or its
event decode to it, and what decodes is the encoding of what it decodes to. -/

namespace Sys2Proof

/-! ### From the instruction to its encoding and back -/

/-- R112, R114: an event's code names its constructor. -/
theorem eventOfCode_of_eventFields {i : Instr} {code : Nat} {low : BitVec 3} {din : Byte}
    (h : eventFields i = some (code, low, din)) : code < 32 ∧ eventOfCode code low din = i := by
  cases i <;> cases h <;> exact ⟨by decide, rfl⟩

theorem decode_encode_event {i : Instr} (hi : i.isEvent = true) : decode (encode i) = .ok i := by
  obtain ⟨⟨code, low, din⟩, hf⟩ := Option.isSome_iff_exists.1 hi
  obtain ⟨hcode, hev⟩ := eventOfCode_of_eventFields hf
  exact decode_event hf hcode hev

theorem decode_encode_request {i : Instr} (hi : i.isEvent = false) (hwf : i.wellFormed = true) :
    decode (encode i) = .ok i := by
  cases i
  case beginMaster f => exact Laws.RoundTrip.beginMaster f hwf
  case beginSlave a => exact Laws.RoundTrip.beginSlave a hwf
  case setFrequency f => exact Laws.RoundTrip.setFrequency f hwf
  case endBus => exact Laws.RoundTrip.endBus hwf
  case setOnReceive b => exact Laws.RoundTrip.setOnReceive b hwf
  case setOnTransmit b => exact Laws.RoundTrip.setOnTransmit b hwf
  case beginTransmission a => exact Laws.RoundTrip.beginTransmission a hwf
  case write b => exact Laws.RoundTrip.write b hwf
  case writeBlock bytes => exact Laws.RoundTrip.writeBlock bytes hwf
  case endTransmission s => exact Laws.RoundTrip.endTransmission s hwf
  case requestFrom a q s => exact Laws.RoundTrip.requestFrom a q s hwf
  case available => exact Laws.RoundTrip.available hwf
  case read => exact Laws.RoundTrip.read hwf
  case writeBlockPayload b => exact Laws.RoundTrip.writeBlockPayload b hwf
  all_goals cases hi

/-! ### From the word to its fields and back -/

/-- R100: a word is its operation code above its body. -/
theorem eq_word {w : Word} {op b : Nat} (hop : opOf w = op) (hb : bits w 23 0 = b) : w = word op b := by
  subst hop hb
  apply BitVec.eq_of_toNat_eq
  have hw := w.isLt
  simp only [word, opOf, bits, BitVec.toNat_ofNat]
  omega

/-- R101 format F: the operand is the whole body. -/
theorem body_eq_freqOf (w : Word) : bits w 23 0 = (freqOf w).toNat := by
  simp only [freqOf, bits, BitVec.toNat_ofNat]
  omega

/-- R101: where the bits above a 7-bit operand are zero, the operand is the whole body. -/
theorem body_eq_addrOf {w : Word} (h : bits w 23 7 = 0) : bits w 23 0 = (addrOf w).toNat := by
  simp only [addrOf, bits, BitVec.toNat_ofNat] at h ⊢
  omega

/-- R101: where the bits above an 8-bit operand are zero, the operand is the whole body. -/
theorem body_eq_byteOf {w : Word} (h : bits w 23 8 = 0) : bits w 23 0 = (byteOf w).toNat := by
  simp only [byteOf, bits, BitVec.toNat_ofNat] at h ⊢
  omega

/-- A one-bit field is the number of the boolean the decoder reads from it. -/
theorem bit_toNat (w : Word) (k : Nat) : (bits w k k == 1).toNat = bits w k k := by
  have h : bits w k k < 2 := by
    rw [bits, Nat.add_sub_cancel_left]
    exact Nat.mod_lt _ (by decide)
  generalize bits w k k = x at h ⊢
  interval_cases x <;> rfl

/-- R101 format S: where the bits above the flag are zero, the flag is the whole body. -/
theorem body_eq_flag {w : Word} (h : bits w 23 1 = 0) : bits w 23 0 = (bits w 0 0 == 1).toNat := by
  rw [bit_toNat]
  simp only [bits] at h ⊢
  omega

/-- R107 format Q: the flag, the quantity and the address are the whole body where the reserved bits are zero. -/
theorem body_eq_formatQ {w : Word} (hhigh : bits w 23 17 = 0) (hlow : bits w 7 7 = 0) :
    bits w 23 0 = (bits w 16 16 == 1).toNat * 2 ^ 16 + (quantityOf w).toNat * 2 ^ 8 + (addrOf w).toNat := by
  rw [bit_toNat]
  simp only [quantityOf, addrOf, bits, BitVec.toNat_ofNat] at hhigh hlow ⊢
  omega

/-- R102: a word of the payload row is the payload word of its byte. -/
theorem eq_payloadWord {w : Word} (hop : opOf w = 0xFE) (hz : bits w 23 8 = 0) : w = payloadWord (byteOf w) :=
  eq_word hop (body_eq_byteOf hz)

/-! ### What decodes is an encoding -/

/-- R101: a one-word request is its header word, and has no payload words. -/
theorem eq_headerWord_of_decodeSingle {w : Word} {i : Instr} (h : decodeSingle w = .ok i) :
    w = headerWord i ∧ payloadWords i = [] := by
  obtain ⟨hop, rfl⟩ | ⟨⟨hop, hz⟩, rfl⟩ | ⟨hop, rfl⟩ | ⟨⟨hop, hz⟩, rfl⟩ | ⟨⟨hop, hz⟩, rfl⟩ | ⟨⟨hop, hz⟩, rfl⟩ |
    ⟨⟨hop, hz⟩, rfl⟩ | ⟨⟨hop, hz⟩, rfl⟩ | ⟨⟨hop, hz⟩, rfl⟩ | ⟨⟨hop, hhigh, hlow⟩, rfl⟩ | ⟨⟨hop, hz⟩, rfl⟩ |
    ⟨⟨hop, hz⟩, rfl⟩ | ⟨⟨hop, hz⟩, rfl⟩ := decodeSingle_cases h
  · exact ⟨eq_word hop (body_eq_freqOf w), rfl⟩            -- beginMaster
  · exact ⟨eq_word hop (body_eq_addrOf hz), rfl⟩           -- beginSlave
  · exact ⟨eq_word hop (body_eq_freqOf w), rfl⟩            -- setFrequency
  · exact ⟨eq_word hop hz, rfl⟩                            -- endBus
  · exact ⟨eq_word hop (body_eq_byteOf hz), rfl⟩           -- setOnReceive
  · exact ⟨eq_word hop (body_eq_byteOf hz), rfl⟩           -- setOnTransmit
  · exact ⟨eq_word hop (body_eq_addrOf hz), rfl⟩           -- beginTransmission
  · exact ⟨eq_word hop (body_eq_byteOf hz), rfl⟩           -- write
  · exact ⟨eq_word hop (body_eq_flag hz), rfl⟩             -- endTransmission
  · exact ⟨eq_word hop (body_eq_formatQ hhigh hlow), rfl⟩  -- requestFrom
  · exact ⟨eq_word hop hz, rfl⟩                            -- available
  · exact ⟨eq_word hop hz, rfl⟩                            -- read
  · exact ⟨eq_payloadWord hop hz, rfl⟩                     -- writeBlockPayload

/-- R102: the words a block takes are the payload words of its bytes. -/
theorem eq_payloadWords_of_decodePayload {n : Nat} {ws rest : List Word} {bytes : List Byte}
    (h : decodePayload n ws = .ok (bytes, rest)) : ws = bytes.map payloadWord ++ rest := by
  induction n generalizing ws bytes with
  | zero => cases h; rfl
  | succ n ih =>
    cases ws with
    | nil => cases h
    | cons w ws =>
      rw [decodePayload] at h
      split at h
      case isFalse => cases h
      case isTrue hrow =>
        obtain ⟨hop, hz⟩ : opOf w = 0xFE ∧ bits w 23 8 = 0 := by simpa using hrow
        split at h
        case h_2 => cases h
        case h_1 bs r hd =>
          cases h
          rw [List.map_cons, List.cons_append, ← ih hd, ← eq_payloadWord hop hz]

/-- A request that decodes is one word, or a block with its payload. -/
inductive DecodedRequest (w : Word) (ws : List Word) : Instr → List Word → Prop
  | single (i : Instr) (hop : opOf w ≠ 0x12) (hd : decodeSingle w = .ok i) : DecodedRequest w ws i ws
  | block (bytes : List Byte) (rest : List Word) (hop : opOf w = 0x12) (hz : bits w 23 8 = 0)
      (hd : decodePayload (bits w 7 0) ws = .ok (bytes, rest)) : DecodedRequest w ws (.writeBlock bytes) rest

theorem decodedRequest_of_decodeRequest {w : Word} {ws rest : List Word} {i : Instr}
    (h : decodeRequest (w :: ws) = .ok (i, rest)) : DecodedRequest w ws i rest := by
  by_cases hop : opOf w = 0x12
  · by_cases hz : bits w 23 8 = 0
    · cases hd : decodePayload (bits w 7 0) ws with
      | error e => simp [decodeRequest, payloadCount, hop, hz, hd] at h
      | ok p =>
        obtain ⟨rfl, rfl⟩ : .writeBlock p.1 = i ∧ p.2 = rest := by
          simpa [decodeRequest, payloadCount, hop, hz, hd] using h
        exact .block p.1 p.2 hop hz hd
    · simp [decodeRequest, hop, hz] at h
  · cases hd : decodeSingle w with
    | error e => simp [decodeRequest, hop, hd] at h
    | ok j =>
      obtain ⟨rfl, rfl⟩ : j = i ∧ ws = rest := by simpa [decodeRequest, hop, hd] using h
      exact .single j hop hd

/-- R100, R102: the words a decoded request takes from the port are its header word and its payload words. -/
theorem eq_words_of_decodeRequest {ws rest : List Word} {i : Instr} (h : decodeRequest ws = .ok (i, rest)) :
    ws = headerWord i :: (payloadWords i ++ rest) := by
  cases ws with
  | nil => cases h
  | cons w ws =>
    cases decodedRequest_of_decodeRequest h with
    | single _ hop hd =>
      obtain ⟨hw, hp⟩ := eq_headerWord_of_decodeSingle hd
      rw [← hw, hp, List.nil_append]
    | block bytes _ hop hz hd =>
      have hbody : bits w 23 0 = bytes.length := by
        rw [body_eq_byteOf hz, decodePayload_length hd]
        simp only [byteOf, bits, BitVec.toNat_ofNat]
        omega
      rw [eq_payloadWords_of_decodePayload hd, eq_word hop hbody]
      rfl

theorem encode_of_decodeRequest {ws : List Word} {i : Instr} (h : decodeRequest ws = .ok (i, [])) :
    encode i = .request ws := by
  rw [encode, decodeRequest_not_event h, if_neg Bool.false_ne_true, eq_words_of_decodeRequest h, List.append_nil]

/-- Only a block's payload can be too long for its encoding. -/
theorem wellFormed_of_isEvent {i : Instr} (hi : i.isEvent = true) : i.wellFormed = true := by
  cases i
  case writeBlock bytes => cases hi
  all_goals rfl

theorem eventFields_eventOfCode {code : Nat} (h : code < 32) (low : BitVec 3) (din : Byte) :
    eventFields (eventOfCode code low din) = some (code, low, din) := by
  interval_cases code <;> rfl

/-- R111, R113: an event keeps every bit of its status byte and its data byte. -/
theorem encode_decodeEvent (st din : Byte) : encode (decodeEvent st din) = .event st din := by
  have hst := st.isLt
  have hf : eventFields (decodeEvent st din) = some (st.toNat / 8, BitVec.ofNat 3 (st.toNat % 8), din) :=
    eventFields_eventOfCode (by omega) _ din
  have hbyte : BitVec.ofNat 8 (st.toNat / 8 * 8 + (BitVec.ofNat 3 (st.toNat % 8)).toNat) = st := by
    apply BitVec.eq_of_toNat_eq
    simp only [BitVec.toNat_ofNat]
    omega
  simp only [encode, Instr.isEvent, statusByte, dataByte, hf, Option.isSome_some, if_true, hbyte]

theorem decode_request_eq_ok {ws : List Word} {i : Instr} :
    decode (.request ws) = .ok i ↔ decodeRequest ws = .ok (i, []) := by
  rw [decode]
  split <;> simp_all

end Sys2Proof

namespace Sys2Proof.Machine

open Sys2Proof

/-- Settles O8: an event through its code, a request by its own round trip. -/
theorem decodeOfEncode : Obligations.DecodeOfEncode := by
  intro i hwf
  cases hi : i.isEvent with
  | true => exact decode_encode_event hi
  | false => exact decode_encode_request hi hwf

/-- Settles O9: the words of a decoded request are its own, and an event keeps both its bytes. -/
theorem encodeOfDecode : Obligations.EncodeOfDecode := by
  intro p i h
  cases p with
  | request ws =>
    have hd := decode_request_eq_ok.1 h
    exact ⟨decodeRequest_wellFormed hd, encode_of_decodeRequest hd⟩
  | event st din =>
    obtain rfl : decodeEvent st din = i := Except.ok.inj h
    exact ⟨wellFormed_of_isEvent (decodeEvent_isEvent st din), encode_decodeEvent st din⟩

/-- Settles O10: each word is decoded as it stands. -/
theorem wordsOfTheSpecDecode : Obligations.WordsOfTheSpecDecode := by
  unfold Obligations.WordsOfTheSpecDecode
  decide

end Sys2Proof.Machine
end

section
/-! The illegal requests of the request port (30_encoding.md R102, R103): what each kind decodes to, and the fault the
caller's turn raises. -/

namespace Sys2Proof

/-- An answer of the one-word decoder: where it is a refusal, it blames the operation code or the reserved bits. -/
def RefusesTheWord (x : Except DecodeError Instr) : Prop :=
  ∀ e, x = .error e → e = .unassignedOp ∨ e = .reservedBits

theorem RefusesTheWord.ok (i : Instr) : RefusesTheWord (.ok i) := nofun

theorem RefusesTheWord.unassignedOp : RefusesTheWord (.error .unassignedOp) :=
  fun _ h => .inl (Except.error.inj h).symm

theorem RefusesTheWord.ifReservedZero (zero : Bool) (i : Instr) : RefusesTheWord (ifReservedZero zero i) := by
  cases zero with
  | true => exact .ok i
  | false => exact fun _ h => .inr (Except.error.inj h).symm

theorem RefusesTheWord.ite {c : Prop} [Decidable c] {x y : Except DecodeError Instr} (hx : RefusesTheWord x)
    (hy : RefusesTheWord y) : RefusesTheWord (if c then x else y) := by
  split
  · exact hx
  · exact hy

/-- R101, R109: the decoder refuses a one-word request for its operation code or its reserved bits. -/
theorem decodeSingle_refusesTheWord (w : Word) : RefusesTheWord (decodeSingle w) :=
  .ite (.ok _) <| .ite (.ifReservedZero _ _) <| .ite (.ok _) <| .ite (.ifReservedZero _ _) <|
  .ite (.ifReservedZero _ _) <| .ite (.ifReservedZero _ _) <| .ite (.ifReservedZero _ _) <|
  .ite (.ifReservedZero _ _) <| .ite (.ifReservedZero _ _) <| .ite (.ifReservedZero _ _) <|
  .ite (.ifReservedZero _ _) <| .ite (.ifReservedZero _ _) <| .ite (.ifReservedZero _ _) .unassignedOp

/-- R102: a word that is no payload word makes the whole block malformed, whatever the words before it are. -/
theorem decodePayload_of_malformed {n j : Nat} {ws : List Word} {p : Word} (hj : j < n) (hp : ws[j]? = some p)
    (hbad : ¬ (opOf p = 0xFE ∧ bits p 23 8 = 0)) : decodePayload n ws = .error .malformedPayload := by
  induction n generalizing j ws with
  | zero => omega
  | succ n ih =>
    cases ws with
    | nil => cases hp
    | cons w ws =>
      by_cases hrow : opOf w = 0xFE ∧ bits w 23 8 = 0
      · cases j with
        | zero => cases hp; exact absurd hrow hbad
        | succ j => simp [decodePayload, hrow, ih (Nat.lt_of_succ_lt_succ hj) hp]
      · rw [decodePayload, if_neg (by simpa using hrow)]

/-- R103: a word in no row of the table is refused, whatever follows it. -/
theorem decodeRequest_of_not_inTable {w : Word} (h : Machine.inTable w = false) (ws : List Word) :
    decodeRequest (w :: ws) = .error .unassignedOp ∨ decodeRequest (w :: ws) = .error .reservedBits := by
  obtain ⟨hsingle, hblock⟩ : (¬ ∃ i, decodeSingle w = .ok i) ∧ ¬ (opOf w = 0x12 ∧ bits w 23 8 = 0) := by
    rw [← not_or, ← Machine.inTable_iff, h]
    exact Bool.false_ne_true
  by_cases hop : opOf w = 0x12
  · have hz : bits w 23 8 ≠ 0 := fun hz => hblock ⟨hop, hz⟩
    exact .inr (by simp [decodeRequest, hop, hz])
  · cases hd : decodeSingle w with
    | ok i => exact absurd ⟨i, hd⟩ hsingle
    | error e =>
      have hreq : decodeRequest (w :: ws) = .error e := by simp [decodeRequest, hop, hd]
      obtain rfl | rfl := decodeSingle_refusesTheWord w e hd
      · exact .inl hreq
      · exact .inr hreq

/-- R102: a payload word with no header before it decodes as a request of its own. -/
theorem decodeRequest_payloadWord (b : Byte) (ws : List Word) :
    decodeRequest (payloadWord b :: ws) = .ok (.writeBlockPayload b, ws) := by
  obtain ⟨hop, hz, hb⟩ := payloadWord_fields b
  exact decodeRequest_single (by omega) (by simp [decodeSingle, ifReservedZero, hop, hz, hb])

/-- R102: a block with a malformed payload word is refused, its other words there or not. -/
theorem decodeRequest_of_malformed {w p : Word} {ws : List Word} {j : Nat} (hhead : Machine.isBlockHeader w = true)
    (hj : j < w.toNat % 256) (hp : ws[j]? = some p) (hbad : Machine.isPayload p = false) :
    decodeRequest (w :: ws) = .error .malformedPayload := by
  obtain ⟨hop, hz⟩ := (Machine.isBlockHeader_iff w).1 hhead
  have hcount : payloadCount w = w.toNat % 256 := by simp [payloadCount, hop, bits]
  have hno : ¬ (opOf p = 0xFE ∧ bits p 23 8 = 0) := by
    rw [← Machine.isPayload_iff, hbad]
    exact Bool.false_ne_true
  simp [decodeRequest, hop, hz, decodePayload_of_malformed (hcount.symm ▸ hj) hp hno]

end Sys2Proof

namespace Sys2Proof.Machine

open Sys2Proof

/-- Settles O33: step 1 of the payload word's rule is the fault. -/
theorem strayPayloadFaults : Obligations.StrayPayloadFaults := by
  intro b s hk
  rw [exec_request rfl, callerStep_idle hk]
  rfl

/-- R103: an idle caller whose port shows a refused request faults with its first word. -/
theorem callerTurn_of_refused {s : State} {w : Word} {ws : List Word} {e : DecodeError} (hC : s.kC = .idle)
    (hH : s.kH = .idle) (hr : s.requests = w :: ws) (hd : decodeRequest (w :: ws) = .error e)
    (he : e ≠ .noWord ∧ e ≠ .incompleteBlock) : callerTurn s = .fault (.illegalRequest w s) := by
  cases e
  case noWord => exact absurd rfl he.1
  case incompleteBlock => exact absurd rfl he.2
  all_goals simp [callerTurn, hC, hH, hr, hd]

/-- R340: an idle caller takes the request its port shows. -/
theorem callerTurn_of_request {s : State} {i : Instr} {rest : List Word} (hC : s.kC = .idle) (hH : s.kH = .idle)
    (hd : decodeRequest s.requests = .ok (i, rest)) : callerTurn s = exec i { s with requests := rest } := by
  simp only [callerTurn, hC, hH, hd]

/-- Settles O11: the decoder refuses the first and the third kind of word, and takes a payload word for a request of its
own, whose only step is the fault. -/
theorem illegalRequestsFault : Obligations.IllegalRequestsFault := by
  intro s ts w rest hs hC hH hr hillegal
  have hC' : (turnTaken s).kC = .idle := hC
  have hH' : (turnTaken s).kH = .idle := hH
  have hr' : (turnTaken s).requests = w :: rest := hr
  have refused : ∀ {e}, decodeRequest (w :: rest) = .error e → e ≠ .noWord ∧ e ≠ .incompleteBlock →
      ∃ ws, step s = .fault (.illegalRequest w { turnTaken s with requests := ws }) := fun hd he =>
    ⟨s.requests, by rw [step_of_schedule hs, runTurn, callerTurn_of_refused hC' hH' hr' hd he]; rfl⟩
  obtain hout | hpay | ⟨hhead, j, p, hj, hp, hbad⟩ := hillegal
  · obtain hd | hd := decodeRequest_of_not_inTable hout rest
    · exact refused hd ⟨nofun, nofun⟩
    · exact refused hd ⟨nofun, nofun⟩
  · obtain ⟨hop, hz⟩ := (isPayload_iff w).1 hpay
    have hw := eq_payloadWord hop hz
    have hd : decodeRequest (turnTaken s).requests = .ok (.writeBlockPayload (byteOf w), rest) := by
      conv_lhs => rw [hr', hw, decodeRequest_payloadWord]
    refine ⟨rest, ?_⟩
    rw [step_of_schedule hs, runTurn, callerTurn_of_request hC' hH' hd]
    conv_rhs => rw [hw]
    exact strayPayloadFaults _ _ hC'
  · exact refused (decodeRequest_of_malformed hhead hj hp hbad) ⟨nofun, nofun⟩

end Sys2Proof.Machine
end

section
/-! One step of a request from where the caller stands: what `exec` answers when the request's rule goes on, returns or
faults there, and the same with the steps after it. -/

namespace Sys2Proof.Machine

open Sys2Proof

variable {i : Instr} {fr : Frame} {s t : State}

/-! ### One step -/

theorem callerAt_idle (h : s.kC = .idle) : callerAt i (atStep 1) s := .inl ⟨h, rfl⟩

theorem callerAt_inStep {k : Nat} (h : inStep i k s) : callerAt i (atStep k) s := .inr h

theorem exec_request_at (hi : i.isEvent = false) (hat : callerAt i fr s) :
    exec i s = settle i (requestRule i fr s) := by
  rw [exec_request hi]
  obtain ⟨hk, rfl⟩ | hk := hat
  · exact callerStep_idle hk
  · exact callerStep_running hk

theorem exec_goto {k : Nat} (hi : i.isEvent = false) (hat : callerAt i fr s)
    (h : requestRule i fr s = .goto (atStep k) t) : exec i s = .next (caller i k t) := by
  rw [exec_request_at hi hat, h]; rfl

theorem exec_ret {v : Byte} (hi : i.isEvent = false) (hat : callerAt i fr s) (h : requestRule i fr s = .ret v t) :
    exec i s = .next (returned i v t) := by
  rw [exec_request_at hi hat, h]; rfl

theorem exec_fault {r : Fault} (hi : i.isEvent = false) (hat : callerAt i fr s) (h : requestRule i fr s = .fault r) :
    exec i s = .fault r := by
  rw [exec_request_at hi hat, h]; rfl

/-! ### Several steps -/

theorem runExec_of_next {n : Nat} (h : exec i s = .next t) : runExec (n + 1) i s = runExec n i t := by
  rw [runExec_succ, h, andThen_next]

theorem runExec_of_fault {n : Nat} {r : Fault} (h : exec i s = .fault r) : runExec (n + 1) i s = .fault r := by
  rw [runExec_succ, h, andThen_fault]

end Sys2Proof.Machine
end

section
/-! The speed divisor (40_init.md R140) and the requests that set the block up and tear it down (R141 to R149): each
numbered step, and the steps of one request with no other agent between them. -/

namespace Sys2Proof.Machine

open Sys2Proof

variable {f : BitVec 24} {a : BitVec 7} {s t : State}

/-! ### The speed divisor -/

theorem divisor_eq_some_iff {clock : Nat} {d : Byte} :
    divisor clock f = some d ↔
      f.toNat ≠ 0 ∧ 16 ≤ clock / f.toNat ∧ (clock / f.toNat - 16) / 2 ≤ 255 ∧
        d.toNat = (clock / f.toNat - 16) / 2 := by
  have hoffset : Config.offset = 16 := rfl
  rw [divisor, hoffset]
  generalize clock / f.toNat = q
  split_ifs with hzero hlow hhigh
  · simp [hzero]
  · simp only [false_iff]
    omega
  · simp only [false_iff]
    omega
  · have hfit : (q - 16) / 2 < 2 ^ 8 := by omega
    rw [Option.some_inj, ← BitVec.toNat_inj, BitVec.toNat_ofNat, Nat.mod_eq_of_lt hfit]
    omega

/-- Settles O18: the formula in general, and R140's two examples by evaluation. -/
theorem divisorIsTheFormula : Obligations.DivisorIsTheFormula :=
  ⟨fun _ _ _ => divisor_eq_some_iff, rfl, rfl⟩

/-! ### BEGIN_MASTER -/

/-- What step 2 of either `begin` leaves (R141, R143). -/
def roleTaken (r : BusRole) (s : State) : State := { s with role := r, state := .ready, inRepStart := false }

theorem beginMasterRule_one_of_begun (f : BitVec 24) (h : s.initialized = true) :
    beginMasterRule f (atStep 1) s = .ret 0 s :=
  if_pos h

theorem beginMasterRule_one_of_not_begun (f : BitVec 24) (h : s.initialized = false) :
    beginMasterRule f (atStep 1) s = .goto (atStep 2) s :=
  if_neg (ne_true_of_eq_false h)

theorem beginMasterRule_three_of_some (f : BitVec 24) {d : Byte} (h : divisor s.cfg.fClk f = some d) :
    beginMasterRule f (atStep 3) s = .goto (atStep 4) (regWrite .bitrate d s) := by
  simp [beginMasterRule, atStep, h]

theorem beginMasterRule_three_of_none (f : BitVec 24) (h : divisor s.cfg.fClk f = none) :
    beginMasterRule f (atStep 3) s = .fault (.divisorOutOfRange f s) := by
  simp [beginMasterRule, atStep, h]

theorem exec_beginMaster_of_begun (hk : s.kC = .idle) (h : s.initialized = true) :
    exec (.beginMaster f) s = .next (returned (.beginMaster f) 0 s) :=
  exec_ret rfl (callerAt_idle hk) (beginMasterRule_one_of_begun f h)

theorem exec_beginMaster_of_not_begun (hk : s.kC = .idle) (h : s.initialized = false) :
    exec (.beginMaster f) s = .next (caller (.beginMaster f) 2 s) :=
  exec_goto rfl (callerAt_idle hk) (beginMasterRule_one_of_not_begun f h)

theorem exec_beginMaster_two (hk : inStep (.beginMaster f) 2 s) :
    exec (.beginMaster f) s = .next (caller (.beginMaster f) 3 (roleTaken .master s)) :=
  exec_goto rfl (callerAt_inStep hk) rfl

theorem exec_beginMaster_three_of_some {d : Byte} (hk : inStep (.beginMaster f) 3 s)
    (hd : divisor s.cfg.fClk f = some d) :
    exec (.beginMaster f) s = .next (caller (.beginMaster f) 4 (regWrite .bitrate d s)) :=
  exec_goto rfl (callerAt_inStep hk) (beginMasterRule_three_of_some f hd)

theorem exec_beginMaster_three_of_none (hk : inStep (.beginMaster f) 3 s) (hd : divisor s.cfg.fClk f = none) :
    exec (.beginMaster f) s = .fault (.divisorOutOfRange f s) :=
  exec_fault rfl (callerAt_inStep hk) (beginMasterRule_three_of_none f hd)

theorem exec_beginMaster_four (hk : inStep (.beginMaster f) 4 s) :
    exec (.beginMaster f) s = .next (caller (.beginMaster f) 5 (emit .enable s)) :=
  exec_goto rfl (callerAt_inStep hk) rfl

theorem exec_beginMaster_five (hk : inStep (.beginMaster f) 5 s) :
    exec (.beginMaster f) s = .next (returned (.beginMaster f) 1 { s with initialized := true }) :=
  exec_ret rfl (callerAt_inStep hk) rfl

/-- Steps 1 and 2, whether or not step 3 finds a divisor. -/
theorem runExec_beginMaster_two {n : Nat} (hk : s.kC = .idle) (hi : s.initialized = false) :
    runExec (n + 2) (.beginMaster f) s = runExec n (.beginMaster f) (caller (.beginMaster f) 3 (roleTaken .master s)) :=
  calc runExec (n + 2) (.beginMaster f) s
    _ = runExec (n + 1) (.beginMaster f) (caller (.beginMaster f) 2 s) :=
      runExec_of_next (exec_beginMaster_of_not_begun hk hi)
    _ = _ := runExec_of_next (exec_beginMaster_two rfl)

theorem runExec_beginMaster {d : Byte} (hk : s.kC = .idle) (hi : s.initialized = false)
    (hd : divisor s.cfg.fClk f = some d) :
    runExec 5 (.beginMaster f) s = .next (returned (.beginMaster f) 1
      { emit .enable (regWrite .bitrate d (roleTaken .master s)) with initialized := true }) :=
  calc runExec 5 (.beginMaster f) s
    _ = runExec 3 (.beginMaster f) (caller (.beginMaster f) 3 (roleTaken .master s)) :=
      runExec_beginMaster_two hk hi
    _ = runExec 2 (.beginMaster f) (caller (.beginMaster f) 4 (regWrite .bitrate d (roleTaken .master s))) :=
      runExec_of_next (exec_beginMaster_three_of_some rfl hd)
    _ = runExec 1 (.beginMaster f)
          (caller (.beginMaster f) 5 (emit .enable (regWrite .bitrate d (roleTaken .master s)))) :=
      runExec_of_next (exec_beginMaster_four rfl)
    _ = _ := runExec_of_next (exec_beginMaster_five rfl)

/-- Step 2 has written before step 3 faults, and the kept state holds what it wrote (60_exceptions.md R307). -/
theorem runExec_beginMaster_of_none (hk : s.kC = .idle) (hi : s.initialized = false)
    (hd : divisor s.cfg.fClk f = none) :
    runExec 5 (.beginMaster f) s =
      .fault (.divisorOutOfRange f (caller (.beginMaster f) 3 (roleTaken .master s))) :=
  (runExec_beginMaster_two hk hi).trans (runExec_of_fault (exec_beginMaster_three_of_none rfl hd))

/-- Settles O19: the steps in their order, and their composition. -/
theorem beginMasterConfigures : Obligations.BeginMasterConfigures := fun _ _ =>
  ⟨exec_beginMaster_of_begun, exec_beginMaster_of_not_begun, exec_beginMaster_two,
   fun _ => exec_beginMaster_three_of_some, exec_beginMaster_three_of_none, exec_beginMaster_four,
   exec_beginMaster_five, fun _ => runExec_beginMaster⟩

/-! ### BEGIN_SLAVE -/

/-- R143's `a << 1` is the address byte for writing (30_encoding.md R105). -/
theorem slaW_eq (a : BitVec 7) : slaW a = BitVec.ofNat 8 (a.toNat * 2) := by rw [slaW, Nat.mul_comm]

theorem beginSlaveRule_one_of_begun (a : BitVec 7) (h : s.initialized = true) :
    beginSlaveRule a (atStep 1) s = .ret 0 s :=
  if_pos h

theorem beginSlaveRule_one_of_not_begun (a : BitVec 7) (h : s.initialized = false) :
    beginSlaveRule a (atStep 1) s = .goto (atStep 2) s :=
  if_neg (ne_true_of_eq_false h)

theorem exec_beginSlave_of_begun (hk : s.kC = .idle) (h : s.initialized = true) :
    exec (.beginSlave a) s = .next (returned (.beginSlave a) 0 s) :=
  exec_ret rfl (callerAt_idle hk) (beginSlaveRule_one_of_begun a h)

theorem exec_beginSlave_of_not_begun (hk : s.kC = .idle) (h : s.initialized = false) :
    exec (.beginSlave a) s = .next (caller (.beginSlave a) 2 s) :=
  exec_goto rfl (callerAt_idle hk) (beginSlaveRule_one_of_not_begun a h)

theorem exec_beginSlave_two (hk : inStep (.beginSlave a) 2 s) :
    exec (.beginSlave a) s = .next (caller (.beginSlave a) 3 (roleTaken .slave s)) :=
  exec_goto rfl (callerAt_inStep hk) rfl

theorem exec_beginSlave_three (hk : inStep (.beginSlave a) 3 s) :
    exec (.beginSlave a) s =
      .next (caller (.beginSlave a) 4 { regWrite .ownAddr (slaW a) s with address := some (slaW a) }) :=
  exec_goto rfl (callerAt_inStep hk) rfl

theorem exec_beginSlave_four (hk : inStep (.beginSlave a) 4 s) :
    exec (.beginSlave a) s = .next (caller (.beginSlave a) 5 (emit .enable s)) :=
  exec_goto rfl (callerAt_inStep hk) rfl

theorem exec_beginSlave_five (hk : inStep (.beginSlave a) 5 s) :
    exec (.beginSlave a) s = .next (returned (.beginSlave a) 1 { s with initialized := true }) :=
  exec_ret rfl (callerAt_inStep hk) rfl

theorem runExec_beginSlave (hk : s.kC = .idle) (hi : s.initialized = false) :
    runExec 5 (.beginSlave a) s = .next (returned (.beginSlave a) 1
      { emit .enable (regWrite .ownAddr (slaW a) (roleTaken .slave s)) with
        address := some (slaW a), initialized := true }) :=
  calc runExec 5 (.beginSlave a) s
    _ = runExec 4 (.beginSlave a) (caller (.beginSlave a) 2 s) :=
      runExec_of_next (exec_beginSlave_of_not_begun hk hi)
    _ = runExec 3 (.beginSlave a) (caller (.beginSlave a) 3 (roleTaken .slave s)) :=
      runExec_of_next (exec_beginSlave_two rfl)
    _ = runExec 2 (.beginSlave a) (caller (.beginSlave a) 4
          { regWrite .ownAddr (slaW a) (roleTaken .slave s) with address := some (slaW a) }) :=
      runExec_of_next (exec_beginSlave_three rfl)
    _ = runExec 1 (.beginSlave a) (caller (.beginSlave a) 5
          { emit .enable (regWrite .ownAddr (slaW a) (roleTaken .slave s)) with address := some (slaW a) }) :=
      runExec_of_next (exec_beginSlave_four rfl)
    _ = _ := runExec_of_next (exec_beginSlave_five rfl)

/-- Settles O20: the steps in their order, and their composition. -/
theorem beginSlaveConfigures : Obligations.BeginSlaveConfigures := by
  intro a s
  rw [← slaW_eq]
  exact ⟨exec_beginSlave_of_begun, exec_beginSlave_of_not_begun, exec_beginSlave_two, exec_beginSlave_three,
    exec_beginSlave_four, exec_beginSlave_five, runExec_beginSlave⟩

/-! ### A second begin -/

/-- A `BEGIN_MASTER` whose frequency has no divisor faults, so one that goes on has run to its step 5. -/
theorem initialized_of_runExec_beginMaster (hk : s.kC = .idle) (hi : s.initialized = false)
    (h : runExec 5 (.beginMaster f) s = .next t) : t.initialized = true := by
  cases hd : divisor s.cfg.fClk f with
  | some d =>
    rw [runExec_beginMaster hk hi hd] at h
    cases h
    rfl
  | none =>
    rw [runExec_beginMaster_of_none hk hi hd] at h
    cases h

theorem initialized_of_runExec_beginSlave (hk : s.kC = .idle) (hi : s.initialized = false)
    (h : runExec 5 (.beginSlave a) s = .next t) : t.initialized = true := by
  rw [runExec_beginSlave hk hi] at h
  cases h
  rfl

/-- Settles O21: either first `begin` sets `initialized`, and step 1 of either second one returns there. -/
theorem secondBeginFails : Obligations.SecondBeginFails := by
  intro f g a b s t hk hi hrun
  have ht : t.initialized = true :=
    hrun.elim (initialized_of_runExec_beginMaster hk hi) (initialized_of_runExec_beginSlave hk hi)
  refine ⟨ht, fun u hu hut => ?_⟩
  have hbegun : u.initialized = true := hut.trans ht
  exact ⟨exec_beginMaster_of_begun hu hbegun, exec_beginSlave_of_begun hu hbegun⟩

/-! ### SET_FREQUENCY -/

theorem setFrequencyRule_one_of_not_begun (f : BitVec 24) (h : s.initialized = false) :
    setFrequencyRule f (atStep 1) s = .fault (.useBeforeBegin (headerWord (.setFrequency f)) s) :=
  if_neg (ne_true_of_eq_false h)

theorem setFrequencyRule_one_of_begun (f : BitVec 24) (h : s.initialized = true) :
    setFrequencyRule f (atStep 1) s = .goto (atStep 2) s :=
  if_pos h

theorem setFrequencyRule_two_of_slave (f : BitVec 24) (h : s.role = .slave) :
    setFrequencyRule f (atStep 2) s = .ret 0 s :=
  if_neg (by simp [h])

theorem setFrequencyRule_two_of_master (f : BitVec 24) (h : s.role = .master) :
    setFrequencyRule f (atStep 2) s = .goto (atStep 3) s :=
  if_pos h

theorem setFrequencyRule_three_of_some (f : BitVec 24) {d : Byte} (h : divisor s.cfg.fClk f = some d) :
    setFrequencyRule f (atStep 3) s = .ret 1 (regWrite .bitrate d s) := by
  simp [setFrequencyRule, atStep, h]

theorem setFrequencyRule_three_of_none (f : BitVec 24) (h : divisor s.cfg.fClk f = none) :
    setFrequencyRule f (atStep 3) s = .fault (.divisorOutOfRange f s) := by
  simp [setFrequencyRule, atStep, h]

/-- Settles O22: each clause is one branch of one step of R144's rule. -/
theorem setFrequencyWritesTheDivisor : Obligations.SetFrequencyWritesTheDivisor := fun f _ =>
  ⟨fun hk hi => exec_fault rfl (callerAt_idle hk) (setFrequencyRule_one_of_not_begun f hi),
   fun hk hi => exec_goto rfl (callerAt_idle hk) (setFrequencyRule_one_of_begun f hi),
   fun hk hr => exec_ret rfl (callerAt_inStep hk) (setFrequencyRule_two_of_slave f hr),
   fun hk hr => exec_goto rfl (callerAt_inStep hk) (setFrequencyRule_two_of_master f hr),
   fun _ hk hd => exec_ret rfl (callerAt_inStep hk) (setFrequencyRule_three_of_some f hd),
   fun hk hd => exec_fault rfl (callerAt_inStep hk) (setFrequencyRule_three_of_none f hd)⟩

/-! ### END -/

theorem endRule_one_of_not_begun (h : s.initialized = false) : endRule (atStep 1) s = .ret 0 s :=
  if_neg (ne_true_of_eq_false h)

theorem endRule_one_of_begun (h : s.initialized = true) : endRule (atStep 1) s = .goto (atStep 2) s :=
  if_pos h

theorem exec_endBus_of_not_begun (hk : s.kC = .idle) (h : s.initialized = false) :
    exec .endBus s = .next (returned .endBus 0 s) :=
  exec_ret rfl (callerAt_idle hk) (endRule_one_of_not_begun h)

theorem exec_endBus_of_begun (hk : s.kC = .idle) (h : s.initialized = true) :
    exec .endBus s = .next (caller .endBus 2 s) :=
  exec_goto rfl (callerAt_idle hk) (endRule_one_of_begun h)

theorem exec_endBus_two (hk : inStep .endBus 2 s) : exec .endBus s = .next (caller .endBus 3 (emit .disable s)) :=
  exec_goto rfl (callerAt_inStep hk) rfl

theorem exec_endBus_three (hk : inStep .endBus 3 s) :
    exec .endBus s = .next (caller .endBus 4 (regWrite .ownAddr 0 s)) :=
  exec_goto rfl (callerAt_inStep hk) rfl

theorem exec_endBus_four (hk : inStep .endBus 4 s) :
    exec .endBus s = .next (caller .endBus 5 (regWrite .bitrate 0 { s with role := .master })) :=
  exec_goto rfl (callerAt_inStep hk) rfl

theorem exec_endBus_five (hk : inStep .endBus 5 s) :
    exec .endBus s = .next (returned .endBus 1 { s with initialized := false }) :=
  exec_ret rfl (callerAt_inStep hk) rfl

theorem runExec_endBus (hk : s.kC = .idle) (hi : s.initialized = true) :
    runExec 5 .endBus s = .next (returned .endBus 1
      { regWrite .bitrate 0 (regWrite .ownAddr 0 (emit .disable s)) with role := .master, initialized := false }) :=
  calc runExec 5 .endBus s
    _ = runExec 4 .endBus (caller .endBus 2 s) := runExec_of_next (exec_endBus_of_begun hk hi)
    _ = runExec 3 .endBus (caller .endBus 3 (emit .disable s)) := runExec_of_next (exec_endBus_two rfl)
    _ = runExec 2 .endBus (caller .endBus 4 (regWrite .ownAddr 0 (emit .disable s))) :=
      runExec_of_next (exec_endBus_three rfl)
    _ = runExec 1 .endBus (caller .endBus 5
          { regWrite .bitrate 0 (regWrite .ownAddr 0 (emit .disable s)) with role := .master }) :=
      runExec_of_next (exec_endBus_four rfl)
    _ = _ := runExec_of_next (exec_endBus_five rfl)

/-- Settles O23: the steps in their order and their composition, whose last state is idle and not begun, so that the
second `END` stops at step 1 (R149). -/
theorem endTearsDown : Obligations.EndTearsDown := fun _ =>
  ⟨exec_endBus_of_not_begun, exec_endBus_of_begun, exec_endBus_two, exec_endBus_three, exec_endBus_four,
   exec_endBus_five, fun hk hi => ⟨_, runExec_endBus hk hi, rfl, exec_endBus_of_not_begun rfl rfl⟩⟩

/-! ### The callback setters -/

/-- Settles O24: each setter's rule returns at step 1, whatever `initialized` holds. -/
theorem settersRegisterCallbacks : Obligations.SettersRegisterCallbacks := fun _ _ hk =>
  ⟨exec_ret rfl (callerAt_idle hk) rfl, exec_ret rfl (callerAt_idle hk) rfl⟩

end Sys2Proof.Machine
end

section
/-! One step of a request whose place carries caller-local values (10_state.md R49), and a hold that does not pass
(20_memory.md R80). -/

namespace Sys2Proof.Machine

open Sys2Proof

variable {i : Instr} {fr fr' : Frame} {s t : State}

theorem callerAt_running (h : s.kC = .running i fr) : callerAt i fr s := .inr h

theorem exec_goto_frame (hi : i.isEvent = false) (hat : callerAt i fr s) (h : requestRule i fr s = .goto fr' t) :
    exec i s = .next { t with kC := .running i fr' } := by
  rw [exec_request_at hi hat, h]; rfl

theorem exec_hold (hi : i.isEvent = false) (hk : s.kC = .running i fr) (h : requestRule i fr s = .goto fr s) :
    exec i s = .next s := by
  rw [exec_goto_frame hi (callerAt_running hk) h, ← hk]

end Sys2Proof.Machine
end

section
/-! The bytes the caller appends to the buffer (41_master_transmit.md R171, R172): `WRITE` and `WRITE_BLOCK`, each
numbered step, and the steps of one request with no other agent between them. -/

namespace Sys2Proof.Machine

open Sys2Proof

variable {b n : Byte} {bytes : List Byte} {k : Nat} {s t : State}

/-! ### One byte appended -/

/-- What the three steps of R171 leave where they find room: `b` at `Buf[size]`, and `size` one higher. -/
def byteAppended (b : Byte) (s : State) : State :=
  { s with buf := Memory.write s.buf s.size.toNat b, size := s.size + 1 }

@[simp] theorem byteAppended_buf (b : Byte) (s : State) :
    (byteAppended b s).buf = Memory.write s.buf s.size.toNat b := rfl

theorem byteAppended_size (b : Byte) (h : s.size.toNat < 32) : (byteAppended b s).size.toNat = s.size.toNat + 1 :=
  BitVec.toNat_add_of_lt (show s.size.toNat + 1 < 2 ^ 8 by omega)

/-! ### The three steps of R171, for whichever request runs them -/

theorem writeByteRule_one_of_full (by_ : Instr) (b : Byte) (h : s.size.toNat = 32) :
    writeByteRule by_ b (atStep 1) s = .ret 0 s :=
  if_pos h

theorem writeByteRule_one_of_not_full (by_ : Instr) (b : Byte) (h : s.size.toNat ≠ 32) :
    writeByteRule by_ b (atStep 1) s = .goto { step := 2, n := s.size } s :=
  if_neg h

theorem writeByteRule_two_of_lt (by_ : Instr) (b : Byte) (h : n.toNat < 32) :
    writeByteRule by_ b { step := 2, n := n } s =
      .goto { step := 3, n := n } { s with buf := Memory.write s.buf n.toNat b } := by
  have hw : bufWrite by_ n.toNat b s = .ok { s with buf := Memory.write s.buf n.toNat b } :=
    bufWrite_eq_ok.2 ⟨h, rfl⟩
  simp only [writeByteRule, hw]

theorem writeByteRule_two_of_ge (by_ : Instr) (b : Byte) (h : 32 ≤ n.toNat) :
    writeByteRule by_ b { step := 2, n := n } s = .fault (.bufferOverrun n.toNat by_ s) := by
  have hw : bufWrite by_ n.toNat b s = .error (.bufferOverrun n.toNat by_ s) := bufWrite_eq_error.2 ⟨h, rfl⟩
  simp only [writeByteRule, hw]

theorem writeByteRule_three (by_ : Instr) (b n : Byte) (s : State) :
    writeByteRule by_ b { step := 3, n := n } s = .ret 1 { s with size := n + 1 } := rfl

/-! ### WRITE -/

theorem exec_write_one_of_full (hk : s.kC = .idle) (h : s.size.toNat = 32) :
    exec (.write b) s = .next (returned (.write b) 0 s) :=
  exec_ret rfl (callerAt_idle hk) (writeByteRule_one_of_full (.write b) b h)

theorem exec_write_one_of_not_full (hk : s.kC = .idle) (h : s.size.toNat ≠ 32) :
    exec (.write b) s = .next { s with kC := .running (.write b) { step := 2, n := s.size } } :=
  exec_goto_frame rfl (callerAt_idle hk) (writeByteRule_one_of_not_full (.write b) b h)

theorem exec_write_two_of_lt (hk : s.kC = .running (.write b) { step := 2, n := n }) (h : n.toNat < 32) :
    exec (.write b) s = .next { s with buf := Memory.write s.buf n.toNat b,
                                       kC := .running (.write b) { step := 3, n := n } } :=
  exec_goto_frame rfl (callerAt_running hk) (writeByteRule_two_of_lt _ b h)

theorem exec_write_two_of_ge (hk : s.kC = .running (.write b) { step := 2, n := n }) (h : 32 ≤ n.toNat) :
    exec (.write b) s = .fault (.bufferOverrun n.toNat (.write b) s) :=
  exec_fault rfl (callerAt_running hk) (writeByteRule_two_of_ge _ b h)

theorem exec_write_three (hk : s.kC = .running (.write b) { step := 3, n := n }) :
    exec (.write b) s = .next (returned (.write b) 1 { s with size := n + 1 }) :=
  exec_ret rfl (callerAt_running hk) (writeByteRule_three (.write b) b n s)

theorem runExec_write (hk : s.kC = .idle) (h : s.size.toNat < 32) :
    runExec 3 (.write b) s = .next (returned (.write b) 1 (byteAppended b s)) :=
  calc runExec 3 (.write b) s
    _ = runExec 2 (.write b) { s with kC := .running (.write b) { step := 2, n := s.size } } :=
      runExec_of_next (exec_write_one_of_not_full hk h.ne)
    _ = runExec 1 (.write b) { s with buf := Memory.write s.buf s.size.toNat b,
                                      kC := .running (.write b) { step := 3, n := s.size } } :=
      runExec_of_next (exec_write_two_of_lt rfl h)
    _ = _ := runExec_of_next (exec_write_three rfl)

/-- Settles O26: the branches of R171's three steps, their composition, and the reads after its one buffer write. -/
theorem writeAppends : Obligations.WriteAppends := fun b s =>
  ⟨exec_write_one_of_full, exec_write_one_of_not_full, fun _ => exec_write_two_of_lt, fun _ => exec_write_two_of_ge,
   fun _ => exec_write_three,
   fun hk h => ⟨_, runExec_write hk h, rfl, byteAppended_size b h, Memory.read_write_same _ _ _,
     fun _ => Memory.read_write_other s.buf b⟩⟩

/-! ### The steps of R172 -/

theorem blockNext_of_lt (h : k < bytes.length) : blockNext bytes k = { step := 21, k := k } := if_pos h

theorem blockNext_length : blockNext bytes bytes.length = atStep 3 := if_neg (Nat.lt_irrefl _)

theorem writeBlockRule_one : writeBlockRule bytes (atStep 1) s = .goto (blockNext bytes 0) s := rfl

theorem writeBlockRule_21_of_full (hk : k < bytes.length) (h : s.size.toNat = 32) :
    writeBlockRule bytes { step := 21, k := k } s = .ret (BitVec.ofNat 8 k) s := by
  have hbyte : writeByteRule (.writeBlock bytes) bytes[k] { step := 1 } s = .ret 0 s :=
    writeByteRule_one_of_full _ _ h
  simp only [writeBlockRule, List.getElem?_eq_getElem hk, hbyte, if_true]

theorem writeBlockRule_21_of_not_full (hk : k < bytes.length) (h : s.size.toNat ≠ 32) :
    writeBlockRule bytes { step := 21, k := k } s = .goto { step := 22, n := s.size, k := k } s := by
  have hbyte : writeByteRule (.writeBlock bytes) bytes[k] { step := 1 } s = .goto { step := 2, n := s.size } s :=
    writeByteRule_one_of_not_full _ _ h
  simp only [writeBlockRule, List.getElem?_eq_getElem hk, hbyte]

theorem writeBlockRule_22_of_lt (hb : bytes[k]? = some b) (h : n.toNat < 32) :
    writeBlockRule bytes { step := 22, n := n, k := k } s =
      .goto { step := 23, n := n, k := k } { s with buf := Memory.write s.buf n.toNat b } := by
  simp only [writeBlockRule, hb, writeByteRule_two_of_lt _ b h]

theorem writeBlockRule_22_of_ge (hb : bytes[k]? = some b) (h : 32 ≤ n.toNat) :
    writeBlockRule bytes { step := 22, n := n, k := k } s =
      .fault (.bufferOverrun n.toNat (.writeBlock bytes) s) := by
  simp only [writeBlockRule, hb, writeByteRule_two_of_ge _ b h]

theorem writeBlockRule_23 (n : Byte) (s : State) (hk : k < bytes.length) :
    writeBlockRule bytes { step := 23, n := n, k := k } s =
      .goto (blockNext bytes (k + 1)) { s with size := n + 1 } := by
  have hbyte : writeByteRule (.writeBlock bytes) bytes[k] { step := 3, n := n } s = .ret 1 { s with size := n + 1 } :=
    writeByteRule_three _ _ n s
  have hret : (1 : Byte) ≠ 0 := by decide
  simp only [writeBlockRule, List.getElem?_eq_getElem hk, hbyte, if_neg hret]

theorem writeBlockRule_three : writeBlockRule bytes (atStep 3) s = .ret (BitVec.ofNat 8 bytes.length) s := rfl

/-! ### WRITE_BLOCK, one step -/

theorem exec_writeBlock_one (hk : s.kC = .idle) :
    exec (.writeBlock bytes) s = .next { s with kC := .running (.writeBlock bytes) (blockNext bytes 0) } :=
  exec_goto_frame rfl (callerAt_idle hk) writeBlockRule_one

theorem exec_writeBlock_21_of_full (hlt : k < bytes.length)
    (hk : s.kC = .running (.writeBlock bytes) { step := 21, k := k }) (h : s.size.toNat = 32) :
    exec (.writeBlock bytes) s = .next (returned (.writeBlock bytes) (BitVec.ofNat 8 k) s) :=
  exec_ret rfl (callerAt_running hk) (writeBlockRule_21_of_full hlt h)

theorem exec_writeBlock_21_of_not_full (hlt : k < bytes.length)
    (hk : s.kC = .running (.writeBlock bytes) { step := 21, k := k }) (h : s.size.toNat ≠ 32) :
    exec (.writeBlock bytes) s =
      .next { s with kC := .running (.writeBlock bytes) { step := 22, n := s.size, k := k } } :=
  exec_goto_frame rfl (callerAt_running hk) (writeBlockRule_21_of_not_full hlt h)

theorem exec_writeBlock_22_of_lt (hb : bytes[k]? = some b)
    (hk : s.kC = .running (.writeBlock bytes) { step := 22, n := n, k := k }) (h : n.toNat < 32) :
    exec (.writeBlock bytes) s =
      .next { s with buf := Memory.write s.buf n.toNat b,
                     kC := .running (.writeBlock bytes) { step := 23, n := n, k := k } } :=
  exec_goto_frame rfl (callerAt_running hk) (writeBlockRule_22_of_lt hb h)

theorem exec_writeBlock_22_of_ge (hb : bytes[k]? = some b)
    (hk : s.kC = .running (.writeBlock bytes) { step := 22, n := n, k := k }) (h : 32 ≤ n.toNat) :
    exec (.writeBlock bytes) s = .fault (.bufferOverrun n.toNat (.writeBlock bytes) s) :=
  exec_fault rfl (callerAt_running hk) (writeBlockRule_22_of_ge hb h)

theorem exec_writeBlock_23 (hlt : k < bytes.length)
    (hk : s.kC = .running (.writeBlock bytes) { step := 23, n := n, k := k }) :
    exec (.writeBlock bytes) s =
      .next { s with size := n + 1, kC := .running (.writeBlock bytes) (blockNext bytes (k + 1)) } :=
  exec_goto_frame rfl (callerAt_running hk) (writeBlockRule_23 n s hlt)

theorem exec_writeBlock_three (hk : inStep (.writeBlock bytes) 3 s) :
    exec (.writeBlock bytes) s = .next (returned (.writeBlock bytes) (BitVec.ofNat 8 bytes.length) s) :=
  exec_ret rfl (callerAt_inStep hk) writeBlockRule_three

/-! ### WRITE_BLOCK, the whole loop -/

/-- `t` is `s` with the first `j` bytes of a block appended from `Buf[size]` on (R172), and nothing else changed. -/
structure BlockWritten (bytes : List Byte) (j : Nat) (s t : State) : Prop where
  rest    : t = { s with buf := t.buf, size := t.size }
  size    : t.size.toNat = s.size.toNat + j
  inside  : ∀ k, k < j → Memory.read t.buf (s.size.toNat + k) = bytes[k]?
  outside : ∀ pos, pos < s.size.toNat ∨ s.size.toNat + j ≤ pos → Memory.read t.buf pos = Memory.read s.buf pos

theorem BlockWritten.zero (bytes : List Byte) (s : State) : BlockWritten bytes 0 s s :=
  ⟨rfl, rfl, nofun, fun _ _ => rfl⟩

theorem BlockWritten.succ {j : Nat} (h : BlockWritten bytes j s t) (hroom : s.size.toNat + j < 32)
    (hb : bytes[j]? = some b) : BlockWritten bytes (j + 1) s (byteAppended b t) where
  rest := by rw [byteAppended, h.rest]
  size := by rw [byteAppended_size b (h.size ▸ hroom), h.size, Nat.add_assoc]
  inside k hk := by
    rw [byteAppended_buf, h.size]
    obtain hlt | rfl := Nat.lt_succ_iff_lt_or_eq.1 hk
    · rw [Memory.read_write_other _ _ (by omega), h.inside k hlt]
    · rw [Memory.read_write_same, hb]
  outside pos hpos := by
    rw [byteAppended_buf, h.size, Memory.read_write_other _ _ (by omega)]
    exact h.outside pos (by omega)

/-- The caller inside `WRITE_BLOCK` with `j` bytes written: before byte `j`, or before `return count`. -/
def blockCaller (bytes : List Byte) (j : Nat) (s : State) : State :=
  { s with kC := .running (.writeBlock bytes) (blockNext bytes j) }

theorem blockCaller_of_lt (h : k < bytes.length) :
    (blockCaller bytes k s).kC = .running (.writeBlock bytes) { step := 21, k := k } := by
  rw [blockCaller, blockNext_of_lt h]

/-- Steps 21 to 23: one pass through the loop. -/
theorem runExec_writeBlock_byte (hlt : k < bytes.length) (h : s.size.toNat < 32) :
    runExec 3 (.writeBlock bytes) (blockCaller bytes k s) =
      .next (blockCaller bytes (k + 1) (byteAppended bytes[k] s)) :=
  calc runExec 3 (.writeBlock bytes) (blockCaller bytes k s)
    _ = runExec 2 (.writeBlock bytes)
          { s with kC := .running (.writeBlock bytes) { step := 22, n := s.size, k := k } } :=
      runExec_of_next (exec_writeBlock_21_of_not_full hlt (blockCaller_of_lt hlt) h.ne)
    _ = runExec 1 (.writeBlock bytes)
          { s with buf := Memory.write s.buf s.size.toNat bytes[k],
                   kC := .running (.writeBlock bytes) { step := 23, n := s.size, k := k } } :=
      runExec_of_next (exec_writeBlock_22_of_lt (List.getElem?_eq_getElem hlt) rfl h)
    _ = _ := runExec_of_next (exec_writeBlock_23 hlt rfl)

/-- `j` passes through the loop, as long as the block and the buffer allow them. -/
theorem runExec_writeBlock_bytes (hk : s.kC = .idle) {j : Nat} (hlen : j ≤ bytes.length)
    (hroom : s.size.toNat + j ≤ 32) :
    ∃ t, BlockWritten bytes j s t ∧ runExec (3 * j + 1) (.writeBlock bytes) s = .next (blockCaller bytes j t) := by
  induction j with
  | zero => exact ⟨s, .zero bytes s, runExec_of_next (exec_writeBlock_one hk)⟩
  | succ j ih =>
    obtain ⟨t, ht, hrun⟩ := ih (by omega) (by omega)
    refine ⟨_, ht.succ hroom (List.getElem?_eq_getElem hlen), ?_⟩
    calc runExec (3 * (j + 1) + 1) (.writeBlock bytes) s
      _ = andThen (runExec (3 * j + 1) (.writeBlock bytes) s) (runExec 3 (.writeBlock bytes)) :=
        runExec_add (3 * j + 1) 3 _ s
      _ = runExec 3 (.writeBlock bytes) (blockCaller bytes j t) := by rw [hrun, andThen_next]
      _ = _ := runExec_writeBlock_byte hlen (ht.size ▸ hroom)

/-- The step that ends the loop answers the number of bytes written, whether the block or the room has run out. -/
theorem exec_writeBlock_end {j : Nat} (hlen : j ≤ bytes.length) (h : j = bytes.length ∨ s.size.toNat = 32) :
    exec (.writeBlock bytes) (blockCaller bytes j s) =
      .next (returned (.writeBlock bytes) (BitVec.ofNat 8 j) s) := by
  obtain rfl | hlt := hlen.eq_or_lt
  · exact exec_writeBlock_three (congrArg (CallerPos.running _) blockNext_length)
  · exact exec_writeBlock_21_of_full hlt (blockCaller_of_lt hlt) (h.resolve_left hlt.ne)

theorem runExec_writeBlock {j : Nat} (hk : s.kC = .idle) (hsize : s.size.toNat ≤ 32)
    (hj : j = min bytes.length (32 - s.size.toNat)) :
    ∃ t, BlockWritten bytes j s t ∧ runExec (3 * j + 2) (.writeBlock bytes) s =
      .next (returned (.writeBlock bytes) (BitVec.ofNat 8 j) t) := by
  obtain ⟨t, ht, hrun⟩ := runExec_writeBlock_bytes (bytes := bytes) (j := j) hk (by omega) (by omega)
  have hend : j = bytes.length ∨ t.size.toNat = 32 := by
    rw [ht.size]
    omega
  refine ⟨t, ht, ?_⟩
  calc runExec (3 * j + 2) (.writeBlock bytes) s
    _ = andThen (runExec (3 * j + 1) (.writeBlock bytes) s) (runExec 1 (.writeBlock bytes)) :=
      runExec_add (3 * j + 1) 1 _ s
    _ = runExec 1 (.writeBlock bytes) (blockCaller bytes j t) := by rw [hrun, andThen_next]
    _ = _ := runExec_of_next (exec_writeBlock_end (by omega) hend)

/-- Settles O27: the branches of R172's steps, and the whole run by induction on the number of bytes written. -/
theorem writeBlockWritesWhatFits : Obligations.WriteBlockWritesWhatFits := by
  intro bytes s hlen
  refine ⟨?empty, ?enter, fun k hk hC => ⟨exec_writeBlock_21_of_full hk hC, exec_writeBlock_21_of_not_full hk hC⟩,
    fun k b n hb hC => ⟨exec_writeBlock_22_of_lt hb hC, exec_writeBlock_22_of_ge hb hC⟩,
    fun k n hC => ⟨fun hk => ?again, fun hk => ?last⟩, fun hC => ⟨_, ?count, exec_writeBlock_three hC⟩, ?whole⟩
  case empty =>
    rintro hk rfl
    exact exec_writeBlock_one hk
  case enter =>
    intro hk hne
    rw [exec_writeBlock_one hk, blockNext_of_lt (List.length_pos_iff.2 hne)]
    rfl
  case again => rw [exec_writeBlock_23 (by omega) hC, blockNext_of_lt hk]
  case last =>
    rw [exec_writeBlock_23 (by omega) hC, hk, blockNext_length]
    rfl
  case count => exact Nat.mod_eq_of_lt (Nat.lt_succ_of_le hlen)
  case whole =>
    intro hk hsize
    obtain ⟨t, ht, hrun⟩ := runExec_writeBlock (bytes := bytes) hk hsize rfl
    exact ⟨_, hrun, congrArg (returned _ _) ht.rest, ht.size, ht.inside, ht.outside⟩

end Sys2Proof.Machine
end

section
/-! The master transmit transaction (41_master_transmit.md R170, R173): `BEGIN_TRANSMISSION` and `END_TRANSMISSION`,
each numbered step, and the address `issueAddress` puts on the bus (44_bus_primitives.md R284). -/

namespace Sys2Proof.Machine

open Sys2Proof

variable {a : BitVec 7} {b : Bool} {s : State}

/-! ### BEGIN_TRANSMISSION -/

theorem beginTransmissionRule_one_of_not_begun (a : BitVec 7) (h : s.initialized = false) :
    beginTransmissionRule a (atStep 1) s = .fault (.useBeforeBegin (headerWord (.beginTransmission a)) s) :=
  if_pos (by simp [h])

theorem beginTransmissionRule_one_of_slave (a : BitVec 7) (h : s.initialized = true) (hr : s.role = .slave) :
    beginTransmissionRule a (atStep 1) s = .ret 0 s := by
  simp [beginTransmissionRule, atStep, h, hr]

theorem beginTransmissionRule_one_of_master (a : BitVec 7) (h : s.initialized = true) (hr : s.role = .master) :
    beginTransmissionRule a (atStep 1) s = .goto (atStep 2) s := by
  simp [beginTransmissionRule, atStep, h, hr]

theorem beginTransmissionRule_two_of_ready (a : BitVec 7) (h : s.state = .ready) :
    beginTransmissionRule a (atStep 2) s = .goto (atStep 3) s :=
  if_pos h

theorem beginTransmissionRule_two_of_not_ready (a : BitVec 7) (h : s.state ≠ .ready) :
    beginTransmissionRule a (atStep 2) s = .goto (atStep 2) s :=
  if_neg h

theorem exec_beginTransmission_of_master (hk : s.kC = .idle) (hi : s.initialized = true) (hr : s.role = .master) :
    exec (.beginTransmission a) s = .next (caller (.beginTransmission a) 2 s) :=
  exec_goto rfl (callerAt_idle hk) (beginTransmissionRule_one_of_master a hi hr)

theorem exec_beginTransmission_two_of_ready (hk : inStep (.beginTransmission a) 2 s) (h : s.state = .ready) :
    exec (.beginTransmission a) s = .next (caller (.beginTransmission a) 3 s) :=
  exec_goto rfl (callerAt_inStep hk) (beginTransmissionRule_two_of_ready a h)

theorem exec_beginTransmission_three (hk : inStep (.beginTransmission a) 3 s) :
    exec (.beginTransmission a) s = .next (caller (.beginTransmission a) 4 { s with state := .masterTransmit }) :=
  exec_goto rfl (callerAt_inStep hk) rfl

theorem exec_beginTransmission_four (hk : inStep (.beginTransmission a) 4 s) :
    exec (.beginTransmission a) s = .next (caller (.beginTransmission a) 5 { s with address := some (slaW a) }) :=
  exec_goto rfl (callerAt_inStep hk) rfl

theorem exec_beginTransmission_five (hk : inStep (.beginTransmission a) 5 s) :
    exec (.beginTransmission a) s = .next (caller (.beginTransmission a) 6 { s with index := 0 }) :=
  exec_goto rfl (callerAt_inStep hk) rfl

theorem exec_beginTransmission_six (hk : inStep (.beginTransmission a) 6 s) :
    exec (.beginTransmission a) s = .next (returned (.beginTransmission a) 1 { s with size := 0 }) :=
  exec_ret rfl (callerAt_inStep hk) rfl

theorem runExec_beginTransmission (hk : s.kC = .idle) (hi : s.initialized = true) (hr : s.role = .master)
    (hready : s.state = .ready) :
    runExec 6 (.beginTransmission a) s = .next (returned (.beginTransmission a) 1
      { s with state := .masterTransmit, address := some (slaW a), index := 0, size := 0 }) :=
  calc runExec 6 (.beginTransmission a) s
    _ = runExec 5 (.beginTransmission a) (caller (.beginTransmission a) 2 s) :=
      runExec_of_next (exec_beginTransmission_of_master hk hi hr)
    _ = runExec 4 (.beginTransmission a) (caller (.beginTransmission a) 3 s) :=
      runExec_of_next (exec_beginTransmission_two_of_ready rfl hready)
    _ = runExec 3 (.beginTransmission a) (caller (.beginTransmission a) 4 { s with state := .masterTransmit }) :=
      runExec_of_next (exec_beginTransmission_three rfl)
    _ = runExec 2 (.beginTransmission a) (caller (.beginTransmission a) 5
          { s with state := .masterTransmit, address := some (slaW a) }) :=
      runExec_of_next (exec_beginTransmission_four rfl)
    _ = runExec 1 (.beginTransmission a) (caller (.beginTransmission a) 6
          { s with state := .masterTransmit, address := some (slaW a), index := 0 }) :=
      runExec_of_next (exec_beginTransmission_five rfl)
    _ = _ := runExec_of_next (exec_beginTransmission_six rfl)

/-- Settles O25: the branches of R170's steps in their order, and their composition. -/
theorem beginTransmissionTakesTheBus : Obligations.BeginTransmissionTakesTheBus := by
  intro a s
  rw [← slaW_eq]
  exact ⟨fun hk hi => exec_fault rfl (callerAt_idle hk) (beginTransmissionRule_one_of_not_begun a hi),
    fun hk hi hr => exec_ret rfl (callerAt_idle hk) (beginTransmissionRule_one_of_slave a hi hr),
    exec_beginTransmission_of_master,
    fun hk h => exec_hold rfl hk (beginTransmissionRule_two_of_not_ready a h),
    exec_beginTransmission_two_of_ready, exec_beginTransmission_three, exec_beginTransmission_four,
    exec_beginTransmission_five, exec_beginTransmission_six, runExec_beginTransmission⟩

/-! ### The address on the bus (R284) -/

theorem issueThen_of_not_inRepStart (fr : Frame) (h : s.inRepStart = false) :
    issueThen fr s = .goto fr (emit .start s) := by
  simp [issueThen, issueAddress, h]

theorem issueThen_of_inRepStart (fr : Frame) {x : Byte} (h : s.inRepStart = true) (hx : s.address = some x) :
    issueThen fr s = .goto fr (emit .ack (emitData x { s with inRepStart := false })) := by
  simp [issueThen, issueAddress, h, hx]

theorem issueThen_of_unwritten (fr : Frame) (h : s.inRepStart = true) (hx : s.address = none) :
    issueThen fr s = .fault (.unwrittenField .address { s with inRepStart := false }) := by
  simp [issueThen, issueAddress, h, hx]

/-! ### END_TRANSMISSION -/

theorem endTransmissionRule_one_of_not_begun (b : Bool) (h : s.initialized = false) :
    endTransmissionRule b (atStep 1) s = .fault (.useBeforeBegin (headerWord (.endTransmission b)) s) :=
  if_pos (by simp [h])

theorem endTransmissionRule_one_of_slave (b : Bool) (h : s.initialized = true) (hr : s.role = .slave) :
    endTransmissionRule b (atStep 1) s = .ret 255 s := by
  simp [endTransmissionRule, atStep, h, hr, Config.guardCode]

theorem endTransmissionRule_one_of_master (b : Bool) (h : s.initialized = true) (hr : s.role = .master) :
    endTransmissionRule b (atStep 1) s = .goto (atStep 2) s := by
  simp [endTransmissionRule, atStep, h, hr]

theorem endTransmissionRule_five_of_transmitting (b : Bool) (h : s.state = .masterTransmit) :
    endTransmissionRule b (atStep 5) s = .goto (atStep 5) s :=
  if_pos h

theorem endTransmissionRule_five_of_not_transmitting (b : Bool) (h : s.state ≠ .masterTransmit) :
    endTransmissionRule b (atStep 5) s = .goto (atStep 6) s :=
  if_neg h

theorem endTransmissionRule_six_of_some (b : Bool) {st : TransmissionStatus} (h : s.status = some st) :
    endTransmissionRule b (atStep 6) s = .ret st.code s := by
  simp [endTransmissionRule, atStep, h]

theorem endTransmissionRule_six_of_none (b : Bool) (h : s.status = none) :
    endTransmissionRule b (atStep 6) s = .fault (.unwrittenField .status s) := by
  simp [endTransmissionRule, atStep, h]

/-- The last step answers the code of the recorded status (30_encoding.md R104). -/
theorem exec_endTransmission_six_of_some {st : TransmissionStatus} (hk : inStep (.endTransmission b) 6 s)
    (h : s.status = some st) : exec (.endTransmission b) s = .next (returned (.endTransmission b) st.code s) :=
  exec_ret rfl (callerAt_inStep hk) (endTransmissionRule_six_of_some b h)

/-- Settles O28: each clause is one branch of one step of R173's rule, step 4 being R284's. -/
theorem endTransmissionReturnsTheStatus : Obligations.EndTransmissionReturnsTheStatus := fun b _ =>
  ⟨fun hk hi => exec_fault rfl (callerAt_idle hk) (endTransmissionRule_one_of_not_begun b hi),
   fun hk hi hr => exec_ret rfl (callerAt_idle hk) (endTransmissionRule_one_of_slave b hi hr),
   fun hk hi hr => exec_goto rfl (callerAt_idle hk) (endTransmissionRule_one_of_master b hi hr),
   fun hk => exec_goto rfl (callerAt_inStep hk) rfl,
   fun hk => exec_goto rfl (callerAt_inStep hk) rfl,
   fun hk h => exec_goto rfl (callerAt_inStep hk) (issueThen_of_not_inRepStart (atStep 5) h),
   fun _ hk h hx => exec_goto rfl (callerAt_inStep hk) (issueThen_of_inRepStart (atStep 5) h hx),
   fun hk h hx => exec_fault rfl (callerAt_inStep hk) (issueThen_of_unwritten (atStep 5) h hx),
   fun hk h => exec_hold rfl hk (endTransmissionRule_five_of_transmitting b h),
   fun hk h => exec_goto rfl (callerAt_inStep hk) (endTransmissionRule_five_of_not_transmitting b h),
   fun hk => ⟨exec_endTransmission_six_of_some hk, exec_endTransmission_six_of_some hk,
     exec_endTransmission_six_of_some hk, exec_endTransmission_six_of_some hk,
     fun h => exec_fault rfl (callerAt_inStep hk) (endTransmissionRule_six_of_none b h)⟩⟩

end Sys2Proof.Machine
end

section
/-! A read of the buffer that faults (20_memory.md R70, 10_state.md R42), and the caller's reads of the buffer
(42_master_receive.md R202, R203): `AVAILABLE` and `READ`, each numbered step, and whole `READ`s one after the other. -/

namespace Sys2Proof.Machine

open Sys2Proof

variable {by_ : Instr} {i n v : Byte} {pos : Nat} {s t : State}

/-! ### A read that faults -/

theorem bufRead_of_unwritten (by_ : Instr) (hpos : pos < 32) (h : Memory.read s.buf pos = none) :
    bufRead by_ pos s = .error (.unwrittenByte pos s) := by
  have hcap : ¬ Config.capacity ≤ pos := Nat.not_le.2 hpos
  simp only [bufRead, if_neg hcap, h]

theorem bufRead_of_ge (by_ : Instr) (s : State) (h : 32 ≤ pos) : bufRead by_ pos s = .error (.bufferOverrun pos by_ s) :=
  if_pos h

/-! ### AVAILABLE -/

theorem availableRule_two_of_le (h : s.index.toNat ≤ n.toNat) :
    availableRule { step := 2, n := n } s = .ret (n - s.index) s :=
  if_neg (Nat.not_lt.2 h)

theorem availableRule_two_of_lt (h : n.toNat < s.index.toNat) :
    availableRule { step := 2, n := n } s = .fault (.cursorUnderflow s.index n s) :=
  if_pos h

/-- Settles O30: the two branches of R202's step 2; its difference does not wrap where it is the response. -/
theorem availableCountsUnreadBytes : Obligations.AvailableCountsUnreadBytes := fun _ _ =>
  ⟨fun hk => exec_goto_frame rfl (callerAt_idle hk) rfl,
   fun hk h => ⟨_, BitVec.toNat_sub_of_le h, exec_ret rfl (callerAt_running hk) (availableRule_two_of_le h)⟩,
   fun hk h => exec_fault rfl (callerAt_running hk) (availableRule_two_of_lt h)⟩

/-! ### READ, one step -/

theorem readRule_two_of_ge (h : s.size.toNat ≤ i.toNat) : readRule { step := 2, i := i } s = .ret 0 s := if_pos h

theorem readRule_two_of_lt (h : i.toNat < s.size.toNat) :
    readRule { step := 2, i := i } s = .goto { step := 3, i := i } s :=
  if_neg (Nat.not_le.2 h)

theorem readRule_three_of_some (hpos : i.toNat < 32) (h : Memory.read s.buf i.toNat = some v) :
    readRule { step := 3, i := i } s = .goto { step := 4, i := i, v := v } s := by
  have hread : bufRead .read i.toNat s = .ok v := bufRead_eq_ok.2 ⟨hpos, h⟩
  simp only [readRule, hread]

theorem readRule_three_of_none (hpos : i.toNat < 32) (h : Memory.read s.buf i.toNat = none) :
    readRule { step := 3, i := i } s = .fault (.unwrittenByte i.toNat s) := by
  simp only [readRule, bufRead_of_unwritten .read hpos h]

theorem readRule_three_of_ge (h : 32 ≤ i.toNat) :
    readRule { step := 3, i := i } s = .fault (.bufferOverrun i.toNat .read s) := by
  simp only [readRule, bufRead_of_ge .read s h]

theorem exec_read_one (hk : s.kC = .idle) :
    exec .read s = .next { s with kC := .running .read { step := 2, i := s.index } } :=
  exec_goto_frame rfl (callerAt_idle hk) rfl

theorem exec_read_two_of_lt (hk : s.kC = .running .read { step := 2, i := i }) (h : i.toNat < s.size.toNat) :
    exec .read s = .next { s with kC := .running .read { step := 3, i := i } } :=
  exec_goto_frame rfl (callerAt_running hk) (readRule_two_of_lt h)

theorem exec_read_three_of_some (hk : s.kC = .running .read { step := 3, i := i }) (hpos : i.toNat < 32)
    (h : Memory.read s.buf i.toNat = some v) :
    exec .read s = .next { s with kC := .running .read { step := 4, i := i, v := v } } :=
  exec_goto_frame rfl (callerAt_running hk) (readRule_three_of_some hpos h)

theorem exec_read_four (hk : s.kC = .running .read { step := 4, i := i, v := v }) :
    exec .read s = .next (returned .read v { s with index := i + 1 }) :=
  exec_ret rfl (callerAt_running hk) rfl

theorem runExec_read (hk : s.kC = .idle) (hmore : s.index.toNat < s.size.toNat) (hpos : s.index.toNat < 32)
    (h : Memory.read s.buf s.index.toNat = some v) :
    runExec 4 .read s = .next (returned .read v { s with index := s.index + 1 }) :=
  calc runExec 4 .read s
    _ = runExec 3 .read { s with kC := .running .read { step := 2, i := s.index } } :=
      runExec_of_next (exec_read_one hk)
    _ = runExec 2 .read { s with kC := .running .read { step := 3, i := s.index } } :=
      runExec_of_next (exec_read_two_of_lt rfl hmore)
    _ = runExec 1 .read { s with kC := .running .read { step := 4, i := s.index, v := v } } :=
      runExec_of_next (exec_read_three_of_some rfl hpos h)
    _ = _ := runExec_of_next (exec_read_four rfl)

/-- Settles O31: the branches of R203's steps in their order, and their composition. -/
theorem readTakesTheNextByte : Obligations.ReadTakesTheNextByte := fun _ =>
  ⟨exec_read_one,
   fun _ hk h => exec_ret rfl (callerAt_running hk) (readRule_two_of_ge h),
   fun _ => exec_read_two_of_lt,
   fun _ _ => exec_read_three_of_some,
   fun _ hk hpos h => exec_fault rfl (callerAt_running hk) (readRule_three_of_none hpos h),
   fun _ hk h => exec_fault rfl (callerAt_running hk) (readRule_three_of_ge h),
   fun _ _ => exec_read_four,
   fun _ => runExec_read⟩

/-! ### READ after READ -/

/-- What a whole `READ` of the byte `v` leaves for an idle caller. -/
def byteRead (v : Byte) (s : State) : State :=
  { s with index := s.index + 1, reqLog := s.reqLog ++ [⟨.read, v⟩] }

theorem byteRead_index (v : Byte) (h : s.index.toNat < 32) : (byteRead v s).index.toNat = s.index.toNat + 1 :=
  BitVec.toNat_add_of_lt (show s.index.toNat + 1 < 2 ^ 8 by omega)

theorem runExec_read_eq_byteRead (hk : s.kC = .idle) (hmore : s.index.toNat < s.size.toNat)
    (hpos : s.index.toNat < 32) (h : Memory.read s.buf s.index.toNat = some v) :
    runExec 4 .read s = .next (byteRead v s) := by
  rw [runExec_read hk hmore hpos h, returned, ← hk]
  rfl

/-- Settles O32, by induction on the bytes: the first `READ` answers the first byte, and leaves the rest of them from
the raised cursor on. -/
theorem readsReturnTheBytesInOrder : Obligations.ReadsReturnTheBytesInOrder := by
  intro bytes
  induction bytes with
  | nil => exact fun s _ _ _ _ => ⟨s, rfl, rfl, by simp⟩
  | cons v bytes ih =>
    intro s hk hsize hfit hbytes
    rw [List.length_cons] at hfit
    have hfirst : runExec 4 .read s = .next (byteRead v s) :=
      runExec_read_eq_byteRead hk (by omega) (by omega) (hbytes 0 (Nat.zero_lt_succ _))
    have hindex := byteRead_index (s := s) v (by omega)
    have hrest : ∀ k, k < bytes.length →
        Memory.read (byteRead v s).buf ((byteRead v s).index.toNat + k) = bytes[k]? := by
      intro k hlt
      rw [hindex, Nat.add_assoc, Nat.add_comm 1 k]
      exact hbytes (k + 1) (Nat.succ_lt_succ hlt)
    obtain ⟨t, hrun, hidx, ht⟩ := ih (byteRead v s) hk hsize (show _ ≤ s.size.toNat by omega) hrest
    refine ⟨t, ?_, ?_, ?_⟩
    · calc runExec (4 * (v :: bytes).length) .read s
        _ = runExec (4 + 4 * bytes.length) .read s := by rw [List.length_cons, Nat.mul_succ, Nat.add_comm]
        _ = runExec (4 * bytes.length) .read (byteRead v s) := by rw [runExec_add, hfirst, andThen_next]
        _ = .next t := hrun
    · rw [hidx, hindex, List.length_cons]; omega
    · rw [ht]; simp [byteRead]

end Sys2Proof.Machine
end

section
/-! Storing into the buffer in a master receive (43_event_handler.md R238, 44_bus_primitives.md R285): what one
`MR_DATA_ACK` does, and a whole run of them (42_master_receive.md R204). -/

namespace Sys2Proof.Machine

open Sys2Proof

variable {low : BitVec 3} {v : Byte} {bytes : List Byte} {s t : State}

/-! ### One byte -/

/-- What `storeByte` leaves (R285): `v` at `Buf[index]`, and `index` one higher. -/
def byteStored (v : Byte) (s : State) : State :=
  { s with buf := Memory.write s.buf s.index.toNat v, index := s.index + 1 }

@[simp] theorem byteStored_buf (v : Byte) (s : State) :
    (byteStored v s).buf = Memory.write s.buf s.index.toNat v := rfl
@[simp] theorem byteStored_size (v : Byte) (s : State) : (byteStored v s).size = s.size := rfl
@[simp] theorem byteStored_cmdLog (v : Byte) (s : State) : (byteStored v s).cmdLog = s.cmdLog := rfl

theorem byteStored_index (v : Byte) (h : s.index.toNat < 32) : (byteStored v s).index.toNat = s.index.toNat + 1 :=
  BitVec.toNat_add_of_lt (show s.index.toNat + 1 < 2 ^ 8 by omega)

/-- R251: the comparison is made after the post-increment. -/
theorem moreExpected_byteStored (v : Byte) (h : s.index.toNat < 32) :
    moreExpected (byteStored v s) = decide (s.index.toNat + 1 < s.size.toNat) := by
  rw [moreExpected, byteStored_index v h, byteStored_size]

/-- R238: the byte is stored, then the ACK bit of the next one is decided. -/
theorem exec_evtMrDataAck (hk : s.kH = .idle) (h : s.index.toNat < 32) :
    exec (.evtMrDataAck low v) s = .next (reply (decide (s.index.toNat + 1 < s.size.toNat)) (byteStored v s)) := by
  have hstore : storeByte (.evtMrDataAck low v) v s = .next (byteStored v s) := storeByte_eq_next.2 ⟨h, rfl⟩
  calc exec (.evtMrDataAck low v) s
    _ = andThen (mrDataAckAction (.evtMrDataAck low v) v s) fun t => .next (endAction t) := handleOnce_idle hk
    _ = .next (endAction (reply (decide (s.index.toNat + 1 < s.size.toNat)) (byteStored v s))) := by
      rw [mrDataAckAction, hstore, andThen_next, andThen_next, moreExpected_byteStored v h]
    _ = _ := congrArg _ (endAction_of_idle hk)

/-! ### Byte after byte -/

/-- `t` is `s` with the bytes stored from `Buf[index]` on, in arrival order, up to what the answers to them write. -/
structure BytesStored (bytes : List Byte) (s t : State) : Prop where
  rest    : t = { s with buf := t.buf, index := t.index, regs := t.regs, armed := t.armed, cmdLog := t.cmdLog }
  index   : t.index.toNat = s.index.toNat + bytes.length
  inside  : ∀ k, k < bytes.length → Memory.read t.buf (s.index.toNat + k) = bytes[k]?
  outside : ∀ pos, pos < s.index.toNat ∨ s.index.toNat + bytes.length ≤ pos →
    Memory.read t.buf pos = Memory.read s.buf pos

theorem BytesStored.nil (s : State) : BytesStored [] s s := ⟨rfl, rfl, nofun, fun _ _ => rfl⟩

/-- The first byte lies below every later one, so no later store touches it. -/
theorem BytesStored.cons {ack : Bool} (hpos : s.index.toNat < 32)
    (h : BytesStored bytes (reply ack (byteStored v s)) t) : BytesStored (v :: bytes) s t := by
  obtain ⟨hrest, hindex, hinside, houtside⟩ := h
  rw [reply_index, byteStored_index v hpos] at hindex hinside houtside
  rw [reply_buf, byteStored_buf] at houtside
  refine ⟨?_, ?_, fun k hk => ?_, fun pos hout => ?_⟩
  · rw [hrest, reply_stopPending, reply_enabled]; rfl
  · rw [hindex, List.length_cons]; omega
  · cases k with
    | zero => rw [Nat.add_zero, houtside _ (by omega), Memory.read_write_same, List.getElem?_cons_zero]
    | succ k => rw [List.getElem?_cons_succ, ← hinside k (Nat.lt_of_succ_lt_succ hk), Nat.add_assoc, Nat.add_comm 1 k]
  · rw [List.length_cons] at hout
    rw [houtside pos (by omega), Memory.read_write_other _ _ (by omega)]

/-- The bytes that fill the buffer up to `size`: ACK for each of them but the last, and NACK for that one. -/
theorem runEvents_mrDataAck (low : BitVec 3) (v : Byte) (bytes : List Byte) (hk : s.kH = .idle)
    (hfit : s.index.toNat + bytes.length + 1 = s.size.toNat) (hsize : s.size.toNat ≤ 32) :
    ∃ t, runEvents ((v :: bytes).map fun b => .evtMrDataAck low b) s = .next t ∧ BytesStored (v :: bytes) s t ∧
      t.cmdLog = s.cmdLog ++ List.replicate bytes.length (.command .ack) ++ [.command .nack] := by
  induction bytes generalizing v s with
  | nil =>
    rw [List.length_nil] at hfit
    have hpos : s.index.toNat < 32 := by omega
    have hfirst : exec (.evtMrDataAck low v) s = .next (reply false (byteStored v s)) := by
      rw [exec_evtMrDataAck hk hpos, decide_eq_false (by omega)]
    refine ⟨_, ?_, (BytesStored.nil (reply false (byteStored v s))).cons hpos, by simp⟩
    rw [List.map_cons, List.map_nil, runEvents_cons, hfirst, andThen_next, runEvents_nil]
  | cons w bytes ih =>
    rw [List.length_cons] at hfit
    have hpos : s.index.toNat < 32 := by omega
    have hfirst : exec (.evtMrDataAck low v) s = .next (reply true (byteStored v s)) := by
      rw [exec_evtMrDataAck hk hpos, decide_eq_true (by omega)]
    have hfit' : (byteStored v s).index.toNat + bytes.length + 1 = s.size.toNat := by
      rw [byteStored_index v hpos]; omega
    obtain ⟨t, hrun, hstored, hcmd⟩ := ih (s := reply true (byteStored v s)) w hk hfit' hsize
    refine ⟨t, ?_, hstored.cons hpos, ?_⟩
    · rw [List.map_cons, runEvents_cons, hfirst, andThen_next, hrun]
    · rw [hcmd]; simp [List.replicate_succ]

/-- Settles O56: the run from index 0, read off field by field. -/
theorem masterReceiveStoresInOrder : Obligations.MasterReceiveStoresInOrder := by
  intro bytes low s hk hindex hsize hpos hlen
  obtain ⟨v, bytes, rfl⟩ := List.exists_cons_of_length_pos hpos
  have hzero : s.index.toNat = 0 := by rw [hindex]; rfl
  rw [List.length_cons] at hsize hlen
  obtain ⟨t, hrun, hstored, hcmd⟩ := runEvents_mrDataAck low v bytes hk (by omega) (by omega)
  obtain ⟨hrest, hidx, hinside, houtside⟩ := hstored
  simp only [hzero, Nat.zero_add] at hidx hinside houtside
  exact ⟨t, hrun, hidx, by rw [hrest], by rw [hrest], by rw [hrest]; exact hk, hinside,
    fun pos hpos => houtside pos (.inr hpos), hcmd⟩

end Sys2Proof.Machine
end

section
/-! The master receive request (42_master_receive.md R200, R201): `REQUEST_FROM`, each numbered step. -/

namespace Sys2Proof.Machine

open Sys2Proof

variable {a : BitVec 7} {q : Byte} {b : Bool} {s : State}

/-- R200's `(a << 1) | 1` is the address byte for reading (30_encoding.md R105). -/
theorem slaR_eq (a : BitVec 7) : slaR a = BitVec.ofNat 8 (a.toNat * 2 + 1) := by rw [slaR, Nat.mul_comm]

/-- R201: the clamp. -/
theorem clampCount_toNat (q i : Byte) : (clampCount q i).toNat = min q.toNat i.toNat := by
  unfold clampCount
  split
  · exact (Nat.min_eq_left ‹_›).symm
  · exact (Nat.min_eq_right (by omega)).symm

/-! ### The guards of step 1 -/

theorem requestFromRule_one_of_not_begun (a : BitVec 7) (q : Byte) (b : Bool) (h : s.initialized = false) :
    requestFromRule a q b (atStep 1) s = .fault (.useBeforeBegin (headerWord (.requestFrom a q b)) s) :=
  if_pos (by simp [h])

theorem requestFromRule_one_of_slave (a : BitVec 7) (q : Byte) (b : Bool) (h : s.initialized = true)
    (hr : s.role = .slave) : requestFromRule a q b (atStep 1) s = .ret 255 s := by
  simp [requestFromRule, atStep, h, hr, Config.oversizeCode]

/-- A begun master gets to the two guards on the quantity. -/
theorem requestFromRule_one_of_master (a : BitVec 7) (q : Byte) (b : Bool) (h : s.initialized = true)
    (hr : s.role = .master) :
    requestFromRule a q b (atStep 1) s =
      if 32 < q.toNat then .ret 255 s
      else if q = 0 then .fault (.zeroQuantity (headerWord (.requestFrom a q b)) s)
      else .goto (atStep 2) s :=
  (if_neg (show ¬ (!s.initialized) = true by simp [h])).trans (if_neg (not_not.2 hr))

theorem requestFromRule_one_of_oversized (a : BitVec 7) (b : Bool) (h : s.initialized = true) (hr : s.role = .master)
    (hq : 32 < q.toNat) : requestFromRule a q b (atStep 1) s = .ret 255 s := by
  rw [requestFromRule_one_of_master a q b h hr, if_pos hq]

theorem requestFromRule_one_of_zero (a : BitVec 7) (b : Bool) (h : s.initialized = true) (hr : s.role = .master)
    (hq : q = 0) :
    requestFromRule a q b (atStep 1) s = .fault (.zeroQuantity (headerWord (.requestFrom a q b)) s) := by
  have hsmall : ¬ 32 < q.toNat := by rw [hq]; decide
  rw [requestFromRule_one_of_master a q b h hr, if_neg hsmall, if_pos hq]

theorem requestFromRule_one_of_fits (a : BitVec 7) (b : Bool) (h : s.initialized = true) (hr : s.role = .master)
    (hpos : 1 ≤ q.toNat) (hq : q.toNat ≤ 32) : requestFromRule a q b (atStep 1) s = .goto (atStep 2) s := by
  have hne : q ≠ 0 := by rintro rfl; cases hpos
  rw [requestFromRule_one_of_master a q b h hr, if_neg (Nat.not_lt.2 hq), if_neg hne]

/-! ### The two holds -/

theorem requestFromRule_two_of_ready (a : BitVec 7) (q : Byte) (b : Bool) (h : s.state = .ready) :
    requestFromRule a q b (atStep 2) s = .goto (atStep 3) s :=
  if_pos h

theorem requestFromRule_two_of_not_ready (a : BitVec 7) (q : Byte) (b : Bool) (h : s.state ≠ .ready) :
    requestFromRule a q b (atStep 2) s = .goto (atStep 2) s :=
  if_neg h

theorem requestFromRule_nine_of_receiving (a : BitVec 7) (q : Byte) (b : Bool) (h : s.state = .masterReceive) :
    requestFromRule a q b (atStep 9) s = .goto (atStep 9) s :=
  if_pos h

theorem requestFromRule_nine_of_not_receiving (a : BitVec 7) (q : Byte) (b : Bool) (h : s.state ≠ .masterReceive) :
    requestFromRule a q b (atStep 9) s = .goto (atStep 10) s :=
  if_neg h

/-- Settles O29: each clause is one branch of one step of R200's rule, step 8 being R284's and step 10 the clamp. -/
theorem requestFromReceives : Obligations.RequestFromReceives := by
  intro a q b s
  rw [← slaR_eq]
  exact ⟨fun hk hi => exec_fault rfl (callerAt_idle hk) (requestFromRule_one_of_not_begun a q b hi),
    fun hk hi hr => exec_ret rfl (callerAt_idle hk) (requestFromRule_one_of_slave a q b hi hr),
    fun hk hi hr hq => exec_ret rfl (callerAt_idle hk) (requestFromRule_one_of_oversized a b hi hr hq),
    fun hk hi hr hq => exec_fault rfl (callerAt_idle hk) (requestFromRule_one_of_zero a b hi hr hq),
    fun hk hi hr hpos hq => exec_goto rfl (callerAt_idle hk) (requestFromRule_one_of_fits a b hi hr hpos hq),
    fun hk h => exec_hold rfl hk (requestFromRule_two_of_not_ready a q b h),
    fun hk h => exec_goto rfl (callerAt_inStep hk) (requestFromRule_two_of_ready a q b h),
    fun hk => exec_goto rfl (callerAt_inStep hk) rfl,
    fun hk => exec_goto rfl (callerAt_inStep hk) rfl,
    fun hk => exec_goto rfl (callerAt_inStep hk) rfl,
    fun hk => exec_goto rfl (callerAt_inStep hk) rfl,
    fun hk => exec_goto rfl (callerAt_inStep hk) rfl,
    fun hk h => exec_goto rfl (callerAt_inStep hk) (issueThen_of_not_inRepStart (atStep 9) h),
    fun _ hk h hx => exec_goto rfl (callerAt_inStep hk) (issueThen_of_inRepStart (atStep 9) h hx),
    fun hk h hx => exec_fault rfl (callerAt_inStep hk) (issueThen_of_unwritten (atStep 9) h hx),
    fun hk h => exec_hold rfl hk (requestFromRule_nine_of_receiving a q b h),
    fun hk h => exec_goto rfl (callerAt_inStep hk) (requestFromRule_nine_of_not_receiving a q b h),
    fun hk => ⟨_, clampCount_toNat q s.index, exec_goto_frame rfl (callerAt_inStep hk) rfl⟩,
    fun _ hk => exec_ret rfl (callerAt_running hk) rfl⟩

end Sys2Proof.Machine
end

section
/-! What the agent whose turn is listed runs (00_scope.md R9): the caller's request, decoded or under way, and the
handler's event, pending or held (20_memory.md R80, 43_event_handler.md R230, 44_bus_primitives.md R282). -/

namespace Sys2Proof.Machine

open Sys2Proof

variable {i : Instr} {s : State}

theorem callerTurn_of_running {fr : Frame} (hH : s.kH = .idle) (hC : s.kC = .running i fr) :
    callerTurn s = exec i s := by
  simp only [callerTurn, hH, hC]

/-- R230, R308: the handler takes a pending event while the hardware is on. -/
theorem handlerTurn_of_pending {st din : Byte} (hH : s.kH = .idle) (he : s.enabled = true)
    (hp : s.pending = some ⟨st, din⟩) : handlerTurn s = exec (decodeEvent st din) { s with pending := none } := by
  simp only [handlerTurn, hH, hp, he, if_true]

theorem handlerTurn_of_held (hH : s.kH = .stopWait i) : handlerTurn s = exec i s := by
  simp only [handlerTurn, hH]

/-- Settles O12: each clause is what the listed agent runs in its turn. -/
theorem stepRunsTheDecodedInstruction : Obligations.StepRunsTheDecodedInstruction := by
  intro s ts i
  refine ⟨fun rest hs hH hC hd => ?_, fun fr hs hH hC => ?_, fun st din hs hH he hp hd => ?_, fun hs hH => ?_⟩
  · exact (step_of_schedule hs).trans (callerTurn_of_request (s := turnTaken s) hC hH hd)
  · exact (step_of_schedule hs).trans (callerTurn_of_running (s := turnTaken s) hH hC)
  · rw [← hd]
    exact (step_of_schedule hs).trans (handlerTurn_of_pending (s := turnTaken s) hH he hp)
  · exact (step_of_schedule hs).trans (handlerTurn_of_held (s := turnTaken s) hH)

end Sys2Proof.Machine
end

section
/-! One step of the handler (60_exceptions.md R313, R314; 44_bus_primitives.md R282): what an action that ends in one
step answers, and what a held one answers. -/

namespace Sys2Proof.Machine

open Sys2Proof

variable {ev : Instr} {act entry rest : State → Result} {s t : State}

/-- An action that leaves the handler idle ends without a trace of its own. -/
theorem handleOnce_of_next (hk : s.kH = .idle) (h : act s = .next t) (ht : t.kH = .idle) :
    handleOnce act s = .next t := by
  rw [handleOnce_idle hk, h, andThen_next, endAction_of_idle ht]

theorem handleOnce_of_fault {f : Fault} (hk : s.kH = .idle) (h : act s = .fault f) : handleOnce act s = .fault f := by
  rw [handleOnce_idle hk, h, andThen_fault]

theorem handleStopping_held (hk : s.kH = .stopWait ev) (hp : s.stopPending = true) :
    handleStopping ev entry rest s = .next s := by
  simp only [handleStopping, hk, hp, if_true]

/-- R282 step 3: once the STOP is done, `state` is `Ready` and the rest of the action runs. -/
theorem handleStopping_released (hk : s.kH = .stopWait ev) (hp : s.stopPending = false) :
    handleStopping ev entry rest s = andThen (rest { s with state := .ready }) fun t => .next (endAction t) := by
  simp [handleStopping, hk, hp]

end Sys2Proof.Machine
end

section
/-! The bus primitives an action is made of, one equation per branch (44_bus_primitives.md R280, R285 to R287;
20_memory.md R70, 10_state.md R42). -/

namespace Sys2Proof.Machine

open Sys2Proof

variable {v : Byte} {s : State}

/-! ### The answer -/

/-- R280, with the decision as the obligations write it. -/
theorem reply_decide (p : Prop) [Decidable p] (s : State) :
    reply (decide p) s = emit (if p then .ack else .nack) s := by
  simp only [reply, decide_eq_true_eq]

theorem moreExpected_of_lt (h : s.index.toNat < s.size.toNat) : moreExpected s = true := decide_eq_true h

theorem moreExpected_of_ge (h : s.size.toNat ≤ s.index.toNat) : moreExpected s = false :=
  decide_eq_false (Nat.not_lt.2 h)

/-! ### Storing a received byte -/

theorem storeByte_of_lt (ev : Instr) (v : Byte) (h : s.index.toNat < 32) :
    storeByte ev v s = .next (byteStored v s) :=
  storeByte_eq_next.2 ⟨h, rfl⟩

theorem storeByte_of_ge (ev : Instr) (v : Byte) (h : 32 ≤ s.index.toNat) :
    storeByte ev v s = .fault (.bufferOverrun s.index.toNat ev s) := by
  have hw : bufWrite ev s.index.toNat v s = .error (.bufferOverrun s.index.toNat ev s) := bufWrite_eq_error.2 ⟨h, rfl⟩
  rw [storeByte, hw]

/-! ### Sending a byte of the buffer -/

/-- What `sendByte` leaves (R286): `v` in `DATA`, and `index` one higher. -/
def byteLoaded (v : Byte) (s : State) : State := { emitData v s with index := s.index + 1 }

/-- R251: the comparison is made after the post-increment. -/
theorem moreExpected_byteLoaded (v : Byte) (h : s.index.toNat < 32) :
    moreExpected (byteLoaded v s) = decide (s.index.toNat + 1 < s.size.toNat) := by
  have hindex : (byteLoaded v s).index.toNat = s.index.toNat + 1 :=
    BitVec.toNat_add_of_lt (show s.index.toNat + 1 < 2 ^ 8 by omega)
  rw [moreExpected, hindex]
  rfl

theorem sendByte_of_some (ev : Instr) (hpos : s.index.toNat < 32) (h : Memory.read s.buf s.index.toNat = some v) :
    sendByte ev s = .next (byteLoaded v s) :=
  sendByte_eq_next.2 ⟨v, hpos, h, rfl⟩

theorem sendByte_of_unwritten (ev : Instr) (hpos : s.index.toNat < 32)
    (h : Memory.read s.buf s.index.toNat = none) : sendByte ev s = .fault (.unwrittenByte s.index.toNat s) := by
  rw [sendByte, bufRead_of_unwritten ev hpos h]

theorem sendByte_of_ge (ev : Instr) (h : 32 ≤ s.index.toNat) :
    sendByte ev s = .fault (.bufferOverrun s.index.toNat ev s) := by
  rw [sendByte, bufRead_of_ge ev s h]

/-! ### Finishing a master transaction -/

theorem finishMaster_of_stop (ev : Instr) (h : s.sendStop = some true) : finishMaster ev s = .next (stop ev s) :=
  finishMaster_eq_next.2 (.inl ⟨h, rfl⟩)

theorem finishMaster_of_repStart (ev : Instr) (h : s.sendStop = some false) :
    finishMaster ev s = .next (armRepeatedStart s) :=
  finishMaster_eq_next.2 (.inr ⟨h, rfl⟩)

theorem finishMaster_of_unwritten (ev : Instr) (h : s.sendStop = none) :
    finishMaster ev s = .fault (.unwrittenField .sendStop s) := by
  simp only [finishMaster, h]

/-! ### Callbacks -/

theorem invokeCallback_of_zero {id : Byte} (arg : Option Byte) (s : State) (h : id = 0) :
    invokeCallback id arg s = .next s :=
  if_pos h

/-- R288: a registered callback is logged, and its body runs. -/
theorem invokeCallback_of_ne_zero {id : Byte} (arg : Option Byte) (s : State) (h : id ≠ 0) :
    invokeCallback id arg s = runBody (bodyOf id s.cfg.callbackBody).length (bodyOf id s.cfg.callbackBody)
      { s with cbLog := s.cbLog ++ [⟨id, arg⟩] } :=
  if_neg h

end Sys2Proof.Machine
end

section
/-! The handler's master classes (43_event_handler.md R232 to R240, R248): each action, one equation per branch. -/

namespace Sys2Proof.Machine

open Sys2Proof

variable {s : State}

/-! ### START and repeated START -/

theorem startAction_of_some {a : Byte} (h : s.address = some a) :
    startAction s = .next (emit .ack (emitData a s)) := by
  simp only [startAction, h]
  rfl

theorem startAction_of_none (h : s.address = none) : startAction s = .fault (.unwrittenField .address s) := by
  simp only [startAction, h]

/-- Settles O34: the two branches of R232's action. -/
theorem startSendsTheAddress : Obligations.StartSendsTheAddress := by
  intro low din i s hi hk
  have hexec : exec i s = handleOnce startAction s := by rcases hi with rfl | rfl <;> rfl
  rw [hexec]
  exact ⟨fun _ ha => handleOnce_of_next hk (startAction_of_some ha) hk,
    fun ha => handleOnce_of_fault hk (startAction_of_none ha)⟩

/-! ### An acknowledged address or byte of a master transmit -/

theorem mtAckedAction_of_lt (i : Instr) (h : s.index.toNat < s.size.toNat) :
    mtAckedAction i s = andThen (sendByte i s) fun t => .next (reply true t) :=
  if_pos (moreExpected_of_lt h)

theorem mtAckedAction_of_ge (i : Instr) (h : s.size.toNat ≤ s.index.toNat) :
    mtAckedAction i s = finishMaster i s := by
  rw [mtAckedAction, moreExpected_of_ge h, if_neg Bool.false_ne_true]

/-- Settles O35: R233 sends while a byte is left, with the three cases of R286, and else finishes, with the three of
R287. -/
theorem masterTransmitAckSendsOrFinishes : Obligations.MasterTransmitAckSendsOrFinishes := by
  intro low din i s hi hk
  rw [exec_of_mtAcks ⟨low, din, hi⟩ hk]
  refine ⟨fun v hmore hpos hread => mtAckedAction_sends hmore hpos hread, fun hmore hpos hread => ?_,
    fun hmore hpos => ?_, fun hdone hstop => ?_, fun hdone hstop => ?_, fun hdone hstop => ?_⟩
  · rw [mtAckedAction_of_lt i hmore, sendByte_of_unwritten i hpos hread, andThen_fault]
  · rw [mtAckedAction_of_lt i hmore, sendByte_of_ge i hpos, andThen_fault]
  · exact (mtAckedAction_of_ge i hdone).trans (finishMaster_of_stop i hstop)
  · exact (mtAckedAction_of_ge i hdone).trans (finishMaster_of_repStart i hstop)
  · exact (mtAckedAction_of_ge i hdone).trans (finishMaster_of_unwritten i hstop)

/-! ### The classes that abort -/

/-- R240: `MR_SLA_NACK` has no status to record. -/
theorem exec_evtMrSlaNack (low : BitVec 3) (din : Byte) (s : State) :
    exec (.evtMrSlaNack low din) s =
      handleStopping (.evtMrSlaNack low din) (fun t => .next (stop (.evtMrSlaNack low din) t)) .next s := rfl

/-- Settles O36: each of the four entries is a `stop()`, and nothing of the action is left after its hold. -/
theorem abortingClassesIssueStop : Obligations.AbortingClassesIssueStop := by
  intro low din s
  refine ⟨fun hk => ⟨handleStopping_idle hk, handleStopping_idle hk, handleStopping_idle hk,
    (exec_evtMrSlaNack low din s).trans (handleStopping_idle hk)⟩, fun i hi hk => ?_⟩
  have hexec : ∃ entry, exec i s = handleStopping i entry .next s := by
    rcases hi with rfl | rfl | rfl | rfl
    · exact ⟨_, rfl⟩
    · exact ⟨_, rfl⟩
    · exact ⟨_, rfl⟩
    · exact ⟨_, exec_evtMrSlaNack low din s⟩
  obtain ⟨entry, hexec⟩ := hexec
  rw [hexec]
  exact ⟨handleStopping_held hk, handleStopping_released hk⟩

/-- Settles O38: R236's one action. -/
theorem arbitrationLostReleasesTheBus : Obligations.ArbitrationLostReleasesTheBus :=
  fun _ _ _ hk => handleOnce_of_next hk rfl hk

/-! ### Master receive -/

/-- Settles O39: R237 compares the cursors as they are, and R238 after the store (R251). -/
theorem masterReceiveDecidesTheNextAck : Obligations.MasterReceiveDecidesTheNextAck := by
  intro low din s hk
  refine ⟨?_, fun hpos => ⟨_, exec_evtMrDataAck hk hpos, ?_, Memory.read_write_same _ _ _,
    fun _ => Memory.read_write_other _ _⟩, fun hpos => ?_⟩
  · rw [← reply_decide]
    exact handleOnce_of_next hk rfl hk
  · rw [reply_decide]
    rfl
  · refine handleOnce_of_fault hk ?_
    rw [mrDataAckAction, storeByte_of_ge _ din hpos, andThen_fault]

theorem exec_evtMrDataNack_of_lt (low : BitVec 3) (din : Byte) (hk : s.kH = .idle) (h : s.index.toNat < 32) :
    exec (.evtMrDataNack low din) s = finishMaster (.evtMrDataNack low din) (byteStored din s) :=
  calc exec (.evtMrDataNack low din) s
    _ = mrDataNackAction (.evtMrDataNack low din) din s := handleStopping_idle hk
    _ = _ := by rw [mrDataNackAction, storeByte_of_lt _ din h, andThen_next]

theorem exec_evtMrDataNack_of_ge (low : BitVec 3) (din : Byte) (hk : s.kH = .idle) (h : 32 ≤ s.index.toNat) :
    exec (.evtMrDataNack low din) s = .fault (.bufferOverrun s.index.toNat (.evtMrDataNack low din) s) :=
  calc exec (.evtMrDataNack low din) s
    _ = mrDataNackAction (.evtMrDataNack low din) din s := handleStopping_idle hk
    _ = _ := by rw [mrDataNackAction, storeByte_of_ge _ din h, andThen_fault]

/-- Settles O40: the store comes first, and the three cases of R287 after it; the memory clause is R70's one write. -/
theorem masterReceiveLastByteFinishes : Obligations.MasterReceiveLastByteFinishes := by
  intro low din s hk
  refine ⟨fun hpos hstop => ?_, fun hpos hstop => ?_, fun hpos hstop => ?_, exec_evtMrDataNack_of_ge low din hk,
    fun _ => ⟨Memory.read_write_same _ _ _, fun _ => Memory.read_write_other _ _⟩⟩
  · exact (exec_evtMrDataNack_of_lt low din hk hpos).trans (finishMaster_of_stop _ hstop)
  · exact (exec_evtMrDataNack_of_lt low din hk hpos).trans (finishMaster_of_repStart _ hstop)
  · exact (exec_evtMrDataNack_of_lt low din hk hpos).trans (finishMaster_of_unwritten _ hstop)

end Sys2Proof.Machine
end

section
/-! The handler's slave receive classes (43_event_handler.md R241 to R244). -/

namespace Sys2Proof.Machine

open Sys2Proof

variable {s t : State}

/-- Settles O41: R241's one action, for each of its four classes. -/
theorem slaveReceiveStarts : Obligations.SlaveReceiveStarts := by
  intro low din i s hi hk
  have hexec : exec i s = handleOnce srAddressedAction s := by rcases hi with rfl | rfl | rfl | rfl <;> rfl
  rw [hexec]
  exact handleOnce_of_next hk rfl hk

theorem srDataAckAction_of_lt (ev : Instr) (din : Byte) (h : s.index.toNat < 32) :
    srDataAckAction ev din s = .next (reply true (byteStored din s)) := by
  have hroom : s.index.toNat < Config.capacity := h
  rw [srDataAckAction, if_pos hroom, storeByte_of_lt ev din h, andThen_next]

theorem srDataAckAction_of_ge (ev : Instr) (din : Byte) (h : 32 ≤ s.index.toNat) :
    srDataAckAction ev din s = .next (reply false s) :=
  if_neg (Nat.not_lt.2 h)

/-- Settles O42: the two branches of R242, and R243. -/
theorem slaveReceiveStoresOrNacks : Obligations.SlaveReceiveStoresOrNacks := by
  intro low din i s hk
  refine ⟨fun hi => ?_, fun hi => ?_⟩
  · have hexec : exec i s = handleOnce (srDataAckAction i din) s := by rcases hi with rfl | rfl <;> rfl
    rw [hexec]
    exact ⟨fun hpos => ⟨_, handleOnce_of_next hk (srDataAckAction_of_lt i din hpos) hk, rfl,
        Memory.read_write_same _ _ _, fun _ => Memory.read_write_other _ _⟩,
      fun hpos => handleOnce_of_next hk (srDataAckAction_of_ge i din hpos) hk⟩
  · have hexec : exec i s = handleOnce srDataNackAction s := by rcases hi with rfl | rfl <;> rfl
    rw [hexec]
    exact handleOnce_of_next hk rfl hk

/-! ### SR_STOP -/

/-- R244 after the hold, up to the callback: `size` frozen at `index`, and `index` reset. -/
def receiveFrozen (s : State) : State := { s with state := .ready, size := s.index, index := 0 }

theorem exec_evtSrStop (low : BitVec 3) (din : Byte) (s : State) :
    exec (.evtSrStop low din) s =
      handleStopping (.evtSrStop low din) (fun t => .next (stop (.evtSrStop low din) t)) srStopRest s := rfl

theorem exec_evtSrStop_of_next (low : BitVec 3) (din : Byte) (hk : s.kH = .stopWait (.evtSrStop low din))
    (hp : s.stopPending = false) (h : invokeCallback s.onRx (some s.index) (receiveFrozen s) = .next t) :
    exec (.evtSrStop low din) s = .next (endAction (releaseBus t)) := by
  have hrest : srStopRest { s with state := .ready } = .next (releaseBus t) := by
    rw [receiveFrozen] at h
    simp only [srStopRest, h, andThen_next]
  rw [exec_evtSrStop, handleStopping_released hk hp, hrest, andThen_next]

theorem exec_evtSrStop_of_fault (low : BitVec 3) (din : Byte) {f : Fault} (hk : s.kH = .stopWait (.evtSrStop low din))
    (hp : s.stopPending = false) (h : invokeCallback s.onRx (some s.index) (receiveFrozen s) = .fault f) :
    exec (.evtSrStop low din) s = .fault f := by
  have hrest : srStopRest { s with state := .ready } = .fault f := by
    rw [receiveFrozen] at h
    simp only [srStopRest, h, andThen_fault]
  rw [exec_evtSrStop, handleStopping_released hk hp, hrest, andThen_fault]

/-- Settles O43: the entry and the hold of R282, then R244's rest by what its callback answers. -/
theorem slaveReceiveStopFreezesTheSize : Obligations.SlaveReceiveStopFreezesTheSize := by
  intro low din s
  refine ⟨fun hk => ?_, fun hk hp => ?_, fun hk hp hrx => ?_, fun r hk hp hrx hr => ?_⟩
  · rw [exec_evtSrStop, handleStopping_idle hk]
    rfl
  · rw [exec_evtSrStop, handleStopping_held hk hp]
  · exact exec_evtSrStop_of_next low din hk hp (invokeCallback_of_zero _ _ hrx)
  · have hcall : invokeCallback s.onRx (some s.index) (receiveFrozen s) = r :=
      (invokeCallback_of_ne_zero _ _ hrx).trans hr
    exact ⟨fun _ ht => exec_evtSrStop_of_next low din hk hp (hcall.trans ht),
      fun _ hf => exec_evtSrStop_of_fault low din hk hp (hcall.trans hf)⟩

end Sys2Proof.Machine
end

section
/-! The handler's slave transmit classes (43_event_handler.md R245 to R247). -/

namespace Sys2Proof.Machine

open Sys2Proof

variable {v : Byte} {s t : State}

/-! ### Sending the next byte -/

theorem stSend_of_lt (ev : Instr) (h : s.index.toNat < s.size.toNat) :
    stSend ev s = andThen (sendByte ev s) fun t => .next (reply (moreExpected t) t) :=
  if_pos (moreExpected_of_lt h)

theorem stSend_of_ge (ev : Instr) (h : s.size.toNat ≤ s.index.toNat) :
    stSend ev s = .fault (.txUnderrun s.index s.size s) := by
  rw [stSend, moreExpected_of_ge h, if_neg Bool.false_ne_true]

/-- R246: the byte goes out, and ACK or NACK says whether another follows it. -/
theorem stSend_of_some (ev : Instr) (hmore : s.index.toNat < s.size.toNat) (hpos : s.index.toNat < 32)
    (hread : Memory.read s.buf s.index.toNat = some v) :
    stSend ev s = .next (emit (if s.index.toNat + 1 < s.size.toNat then .ack else .nack) (byteLoaded v s)) := by
  rw [stSend_of_lt ev hmore, sendByte_of_some ev hpos hread, andThen_next, moreExpected_byteLoaded v hpos, reply_decide]

/-- Settles O45: R246 with its own fault and the two of R286. -/
theorem slaveTransmitMarksTheLastByte : Obligations.SlaveTransmitMarksTheLastByte := by
  intro low din s hk
  refine ⟨fun v hmore hpos hread => ?_, fun hdone => ?_, fun hmore hpos hread => ?_, fun hmore hpos => ?_⟩
  · exact handleOnce_of_next hk (stSend_of_some _ hmore hpos hread) hk
  · exact handleOnce_of_fault hk (stSend_of_ge _ hdone)
  · refine handleOnce_of_fault hk ?_
    rw [stSend_of_lt _ hmore, sendByte_of_unwritten _ hpos hread, andThen_fault]
  · refine handleOnce_of_fault hk ?_
    rw [stSend_of_lt _ hmore, sendByte_of_ge _ hpos, andThen_fault]

/-! ### The first byte -/

/-- R245 up to the callback: `state` and both cursors set. -/
def transmitEntered (s : State) : State := { s with state := .slaveTransmit, index := 0, size := 0 }

/-- R245: the filler byte in an empty buffer. -/
def fillerPlaced (s : State) : State := { s with buf := Memory.write s.buf 0 Config.filler, size := 1 }

theorem fillIfEmpty_of_empty (ev : Instr) (h : t.size = 0) : fillIfEmpty ev t = .next (fillerPlaced t) := by
  have hw : bufWrite ev 0 Config.filler t = .ok { t with buf := Memory.write t.buf 0 Config.filler } :=
    bufWrite_eq_ok.2 ⟨by decide, rfl⟩
  rw [fillIfEmpty, if_pos h, hw]
  rfl

theorem fillIfEmpty_of_supplied (ev : Instr) (h : t.size ≠ 0) : fillIfEmpty ev t = .next t := if_neg h

/-- The filler byte is the only one of the buffer, so it goes out with NACK. -/
theorem stSend_fillerPlaced (ev : Instr) (h : t.index = 0) :
    stSend ev (fillerPlaced t) = .next (emit .nack (byteLoaded Config.filler (fillerPlaced t))) := by
  have hindex : (fillerPlaced t).index.toNat = 0 := congrArg BitVec.toNat h
  have hsize : (fillerPlaced t).size.toNat = 1 := rfl
  have hread : Memory.read (fillerPlaced t).buf (fillerPlaced t).index.toNat = some Config.filler := by
    rw [hindex]; exact Memory.read_write_same _ _ _
  rw [stSend_of_some ev (by omega) (by omega) hread, if_neg (by omega)]

theorem stAddressedAction_of_next (ev : Instr) (h : invokeCallback s.onTx none (transmitEntered s) = .next t) :
    stAddressedAction ev s = andThen (fillIfEmpty ev t) (stSend ev) := by
  rw [transmitEntered] at h
  rw [stAddressedAction, h, andThen_next]

theorem stAddressedAction_of_fault (ev : Instr) {f : Fault}
    (h : invokeCallback s.onTx none (transmitEntered s) = .fault f) : stAddressedAction ev s = .fault f := by
  rw [transmitEntered] at h
  rw [stAddressedAction, h, andThen_fault]

theorem stAddressedAction_of_empty (ev : Instr) (h : invokeCallback s.onTx none (transmitEntered s) = .next t)
    (hsize : t.size = 0) (hindex : t.index = 0) :
    stAddressedAction ev s = .next (emit .nack (byteLoaded Config.filler (fillerPlaced t))) := by
  rw [stAddressedAction_of_next ev h, fillIfEmpty_of_empty ev hsize, andThen_next, stSend_fillerPlaced ev hindex]

theorem stAddressedAction_of_supplied (ev : Instr) (h : invokeCallback s.onTx none (transmitEntered s) = .next t)
    (hsize : t.size ≠ 0) : stAddressedAction ev s = stSend ev t := by
  rw [stAddressedAction_of_next ev h, fillIfEmpty_of_supplied ev hsize, andThen_next]

/-- A callback leaves the handler where it was. -/
theorem kH_of_transmitCallback (hk : s.kH = .idle) (h : invokeCallback s.onTx none (transmitEntered s) = .next t) :
    t.kH = .idle :=
  (invokeCallback_actionFrame h).kH.trans hk

/-- Settles O44: R245 by what the callback answers, and by what its body left in the buffer. -/
theorem slaveTransmitSendsTheFirstByte : Obligations.SlaveTransmitSendsTheFirstByte := by
  intro low din i s hi hk
  have hexec : exec i s = handleOnce (stAddressedAction i) s := by rcases hi with rfl | rfl <;> rfl
  rw [hexec]
  refine ⟨fun htx => ?_, fun r htx hr => ?_⟩
  · exact handleOnce_of_next hk (stAddressedAction_of_empty i (invokeCallback_of_zero _ _ htx) rfl rfl) hk
  have hcall : invokeCallback s.onTx none (transmitEntered s) = r := (invokeCallback_of_ne_zero _ _ htx).trans hr
  refine ⟨fun f hf => ?_, fun t ht hsize hindex => ?_, fun t v ht hsize hmore hpos hread => ?_,
    fun t ht hsize hdone => ?_⟩
  · exact handleOnce_of_fault hk (stAddressedAction_of_fault i (hcall.trans hf))
  · have hnext := hcall.trans ht
    refine (handleOnce_of_next hk (stAddressedAction_of_empty i hnext hsize hindex)
      (kH_of_transmitCallback (t := t) hk hnext)).trans ?_
    rw [byteLoaded, show (fillerPlaced t).index = 0 from hindex]
    rfl
  · have hnext := hcall.trans ht
    have hsend := (stAddressedAction_of_supplied i hnext hsize).trans (stSend_of_some i hmore hpos hread)
    exact handleOnce_of_next hk hsend (kH_of_transmitCallback (t := t) hk hnext)
  · have hnext := hcall.trans ht
    exact handleOnce_of_fault hk ((stAddressedAction_of_supplied i hnext hsize).trans (stSend_of_ge i hdone))

/-! ### The end -/

/-- Settles O46: R247's one action, for each of its two classes. -/
theorem slaveTransmitEndReleasesTheBus : Obligations.SlaveTransmitEndReleasesTheBus := by
  intro low din i s hi hk
  have hexec : exec i s = handleOnce stEndAction s := by rcases hi with rfl | rfl <;> rfl
  rw [hexec]
  exact handleOnce_of_next hk rfl hk

end Sys2Proof.Machine
end

section
/-! The class of no information and the codes with no class (43_event_handler.md R249, R250). -/

namespace Sys2Proof.Machine

open Sys2Proof

/-- Settles O47: R249's empty action, and R250's fault with the event's status byte. -/
theorem noInfoAndUnknownCodes : Obligations.NoInfoAndUnknownCodes := fun _ _ _ hk =>
  ⟨handleOnce_of_next hk rfl hk, handleOnce_of_fault hk rfl, handleOnce_of_fault hk rfl, handleOnce_of_fault hk rfl,
    handleOnce_of_fault hk rfl, handleOnce_of_fault hk rfl⟩

end Sys2Proof.Machine
end

section
/-! What the handler reads of `state` and `role`: nothing (43_event_handler.md R231). The buffer's operations and the
requests of a callback body commute with blotting the two fields out; an action that writes `state` answers the same up
to them. -/

namespace Sys2Proof.Machine

open Sys2Proof

/-! ### The state blotted -/

variable (s : State)

@[simp] theorem eraseDispatch_index : (eraseDispatch s).index = s.index := rfl
@[simp] theorem eraseDispatch_size : (eraseDispatch s).size = s.size := rfl
@[simp] theorem eraseDispatch_buf : (eraseDispatch s).buf = s.buf := rfl
@[simp] theorem eraseDispatch_address : (eraseDispatch s).address = s.address := rfl
@[simp] theorem eraseDispatch_sendStop : (eraseDispatch s).sendStop = s.sendStop := rfl
@[simp] theorem eraseDispatch_kH : (eraseDispatch s).kH = s.kH := rfl

theorem mapFault_eraseDispatch_idem (f : Fault) :
    mapFault eraseDispatch (mapFault eraseDispatch f) = mapFault eraseDispatch f := by
  cases f <;> rfl

theorem mapResult_eraseDispatch_idem (r : Result) :
    mapResult eraseDispatch (mapResult eraseDispatch r) = mapResult eraseDispatch r := by
  cases r with
  | next t => rfl
  | fault f => exact congrArg Host.Outcome.fault (mapFault_eraseDispatch_idem f)
  | refused f => rfl

variable {s} {t : State}

/-! ### The buffer -/

theorem bufRead_eraseDispatch (by_ : Instr) (pos : Nat) (s : State) :
    bufRead by_ pos (eraseDispatch s) = (bufRead by_ pos s).mapError (mapFault eraseDispatch) := by
  simp only [bufRead, eraseDispatch_buf]
  split
  · rfl
  · split <;> rfl

theorem bufWrite_eraseDispatch (by_ : Instr) (pos : Nat) (v : Byte) (s : State) :
    bufWrite by_ pos v (eraseDispatch s) =
      ((bufWrite by_ pos v s).map eraseDispatch).mapError (mapFault eraseDispatch) := by
  simp only [bufWrite]
  split <;> rfl

/-! ### The requests of a callback body -/

/-- An advance with its state changed by `f`. -/
def mapAdvance (f : State → State) : Advance → Advance
  | .goto fr s => .goto fr (f s)
  | .ret v s => .ret v (f s)
  | .fault r => .fault (mapFault f r)
  | .refused r => .refused r

/-- A rule that answers the blotted state what it answers the state itself, blotted. -/
def RuleCommutes (rule : Frame → State → Advance) : Prop :=
  ∀ fr s, rule fr (eraseDispatch s) = mapAdvance eraseDispatch (rule fr s)

theorem setOnReceiveRule_commutes (b : Byte) : RuleCommutes (setOnReceiveRule b) := by
  intro fr s
  unfold setOnReceiveRule
  split <;> rfl

theorem setOnTransmitRule_commutes (b : Byte) : RuleCommutes (setOnTransmitRule b) := by
  intro fr s
  unfold setOnTransmitRule
  split <;> rfl

theorem payloadRule_commutes (b : Byte) : RuleCommutes (payloadRule b) := by
  intro fr s
  unfold payloadRule
  split <;> rfl

theorem availableRule_commutes : RuleCommutes availableRule := by
  intro fr s
  unfold availableRule
  split
  · rfl
  · rw [apply_ite (mapAdvance eraseDispatch)]; rfl
  · rfl

theorem readRule_commutes : RuleCommutes readRule := by
  intro fr s
  simp only [readRule, bufRead_eraseDispatch]
  split
  · rfl
  · rw [apply_ite (mapAdvance eraseDispatch)]; rfl
  · cases bufRead .read fr.i.toNat s <;> rfl
  · rfl
  · rfl

theorem writeByteRule_commutes (by_ : Instr) (b : Byte) : RuleCommutes (writeByteRule by_ b) := by
  intro fr s
  simp only [writeByteRule, bufWrite_eraseDispatch]
  split
  · rw [apply_ite (mapAdvance eraseDispatch)]; rfl
  · cases bufWrite by_ fr.n.toNat b s <;> rfl
  · rfl
  · rfl

theorem writeBlockRule_commutes (bytes : List Byte) : RuleCommutes (writeBlockRule bytes) := by
  intro fr s
  unfold writeBlockRule
  split
  case h_1 | h_2 | h_6 => rfl
  all_goals
    split
    · rfl
    · rename_i b _
      rw [writeByteRule_commutes]
      cases writeByteRule (.writeBlock bytes) b { step := fr.step - 20, n := fr.n } s with
      | ret r t => dsimp only [mapAdvance]; split <;> rfl
      | goto g t => rfl
      | fault r => rfl
      | refused r => rfl

theorem bodyRule_commutes {i : Instr} {rule : Frame → State → Advance} (h : bodyRule i = some rule) :
    RuleCommutes rule := by
  cases i <;> simp only [bodyRule, reduceCtorEq] at h <;> cases h
  case setOnReceive b => exact setOnReceiveRule_commutes b
  case setOnTransmit b => exact setOnTransmitRule_commutes b
  case write b => exact writeByteRule_commutes _ b
  case writeBlock bytes => exact writeBlockRule_commutes bytes
  case available => exact availableRule_commutes
  case read => exact readRule_commutes
  case writeBlockPayload b => exact payloadRule_commutes b

theorem runSteps_commutes {rule : Frame → State → Advance} (hrule : RuleCommutes rule) (n : Nat) :
    RuleCommutes (runSteps n rule) := by
  induction n with
  | zero => exact fun _ _ => rfl
  | succ n ih =>
    intro fr s
    simp only [runSteps, hrule fr s]
    cases rule fr s with
    | goto fr' t => exact ih fr' t
    | ret v t => rfl
    | fault r => rfl
    | refused r => rfl

/-! ### Whole bodies, and the buffer's operations -/

/-- An action that answers the blotted state what it answers the state itself, blotted. -/
def ActionCommutes (act : State → Result) : Prop := ∀ s, act (eraseDispatch s) = mapResult eraseDispatch (act s)

theorem runBody_commutes (n : Nat) (ws : List Word) : ActionCommutes (runBody n ws) := by
  induction n generalizing ws with
  | zero => intro s; cases ws <;> rfl
  | succ n ih =>
    intro s
    cases ws with
    | nil => rfl
    | cons w ws =>
      simp only [runBody]
      cases decodeRequest (w :: ws) with
      | error e => rfl
      | ok p =>
        obtain ⟨i, rest⟩ := p
        dsimp only
        cases hb : bodyRule i with
        | none => rfl
        | some rule =>
          dsimp only
          rw [runSteps_commutes (bodyRule_commutes hb)]
          cases runSteps (bodyFuel i) rule (atStep 1) s with
          | ret v t => exact ih rest (logBody i v t)
          | goto fr t => rfl
          | fault r => rfl
          | refused r => rfl

theorem invokeCallback_commutes (id : Byte) (arg : Option Byte) : ActionCommutes (invokeCallback id arg) := by
  intro s
  simp only [invokeCallback]
  split
  · rfl
  · exact runBody_commutes _ _ { s with cbLog := s.cbLog ++ [⟨id, arg⟩] }

theorem storeByte_commutes (ev : Instr) (v : Byte) : ActionCommutes (storeByte ev v) := by
  intro s
  simp only [storeByte, eraseDispatch_index, bufWrite_eraseDispatch]
  cases bufWrite ev s.index.toNat v s <;> rfl

theorem sendByte_commutes (ev : Instr) : ActionCommutes (sendByte ev) := by
  intro s
  simp only [sendByte, eraseDispatch_index, bufRead_eraseDispatch]
  cases bufRead ev s.index.toNat s <;> rfl

theorem fillIfEmpty_commutes (ev : Instr) : ActionCommutes (fillIfEmpty ev) := by
  intro s
  simp only [fillIfEmpty, eraseDispatch_size, bufWrite_eraseDispatch]
  split
  · cases bufWrite ev 0 Config.filler s <;> rfl
  · rfl

/-! ### Blind actions -/

/-- An action that does not read `state` and `role`, though it may write them: its outcome is that of the blotted state,
up to the two fields. -/
def Blind (act : State → Result) : Prop :=
  ∀ s, mapResult eraseDispatch (act (eraseDispatch s)) = mapResult eraseDispatch (act s)

theorem ActionCommutes.blind {act : State → Result} (h : ActionCommutes act) : Blind act := by
  intro s
  rw [h s, mapResult_eraseDispatch_idem]

variable {act k : State → Result}

/-- States that differ in `state` and `role` only get outcomes that differ in them only. -/
theorem Blind.congr (h : Blind act) (he : eraseDispatch s = eraseDispatch t) :
    mapResult eraseDispatch (act s) = mapResult eraseDispatch (act t) := by
  rw [← h s, he, h t]

theorem Blind.andThen_congr (hk : Blind k) {r q : Result} (h : mapResult eraseDispatch r = mapResult eraseDispatch q) :
    mapResult eraseDispatch (andThen r k) = mapResult eraseDispatch (andThen q k) := by
  cases r <;> cases q <;> simp only [mapResult, reduceCtorEq, Host.Outcome.next.injEq] at h
  case next.next => exact hk.congr h
  case fault.fault => exact h
  case refused.refused => exact h

theorem Blind.andThen (h : Blind act) (hk : Blind k) : Blind fun s => andThen (act s) k :=
  fun s => hk.andThen_congr (h s)

/-- A change of the state that hands nothing of `state` and `role` on to the other fields. -/
theorem Blind.next {f : State → State} (h : ∀ s, eraseDispatch (f (eraseDispatch s)) = eraseDispatch (f s)) :
    Blind fun s => .next (f s) :=
  fun s => congrArg Host.Outcome.next (h s)

/-- A choice by a test that does not read `state` and `role`. -/
theorem Blind.ite {p : State → Prop} [DecidablePred p] (hp : ∀ s, p (eraseDispatch s) ↔ p s) (h : Blind act)
    (hk : Blind k) : Blind fun s => if p s then act s else k s := by
  intro s
  by_cases hs : p s
  · simp only [hp, hs, if_true, h s]
  · simp only [hp, hs, if_false, hk s]

/-! ### The primitives and the actions of the classes -/

theorem reply_blind (ack : Bool) : Blind fun s => .next (reply ack s) := .next fun _ => rfl

theorem reply_moreExpected_blind : Blind fun s => .next (reply (moreExpected s) s) := .next fun _ => rfl

theorem stop_blind (ev : Instr) : Blind fun s => .next (stop ev s) := .next fun _ => rfl

theorem releaseBus_blind : Blind fun s => .next (releaseBus s) := .next fun _ => rfl

theorem next_blind : Blind .next := .next (f := id) fun _ => rfl

theorem finishMaster_blind (ev : Instr) : Blind (finishMaster ev) := by
  intro s
  simp only [finishMaster, eraseDispatch_sendStop]
  split <;> rfl

theorem startAction_blind : Blind startAction := by
  intro s
  simp only [startAction, eraseDispatch_address]
  split <;> rfl

theorem mtAckedAction_blind (ev : Instr) : Blind (mtAckedAction ev) :=
  .ite (p := (moreExpected · = true)) (fun _ => .rfl) ((sendByte_commutes ev).blind.andThen (reply_blind true))
    (finishMaster_blind ev)

theorem stopWithStatus_blind (ev : Instr) (outcome : TransmissionStatus) : Blind (stopWithStatus ev outcome) :=
  .next fun _ => rfl

theorem arbLostAction_blind : Blind arbLostAction := .next fun _ => rfl

theorem mrDataAckAction_blind (ev : Instr) (din : Byte) : Blind (mrDataAckAction ev din) :=
  (storeByte_commutes ev din).blind.andThen reply_moreExpected_blind

theorem mrDataNackAction_blind (ev : Instr) (din : Byte) : Blind (mrDataNackAction ev din) :=
  (storeByte_commutes ev din).blind.andThen (finishMaster_blind ev)

theorem srAddressedAction_blind : Blind srAddressedAction := .next fun _ => rfl

theorem srDataAckAction_blind (ev : Instr) (din : Byte) : Blind (srDataAckAction ev din) :=
  .ite (p := (·.index.toNat < Config.capacity)) (fun _ => .rfl)
    ((storeByte_commutes ev din).blind.andThen (reply_blind true)) (reply_blind false)

/-- R244: the callback's id and argument are fields the blotting keeps. -/
theorem srStopRest_blind : Blind srStopRest := fun s =>
  releaseBus_blind.andThen_congr
    ((invokeCallback_commutes s.onRx (some s.index)).blind { s with size := s.index, index := 0 })

theorem stSend_blind (ev : Instr) : Blind (stSend ev) :=
  .ite (p := (moreExpected · = true)) (fun _ => .rfl)
    ((sendByte_commutes ev).blind.andThen reply_moreExpected_blind) fun _ => rfl

/-- R245 writes `state` before the callback, which does not read it. -/
theorem stAddressedAction_blind (ev : Instr) : Blind (stAddressedAction ev) := fun s =>
  ((fillIfEmpty_commutes ev).blind.andThen (stSend_blind ev)).andThen_congr
    ((invokeCallback_commutes s.onTx none).blind.congr
      (s := { eraseDispatch s with state := .slaveTransmit, index := 0, size := 0 })
      (t := { s with state := .slaveTransmit, index := 0, size := 0 }) rfl)

theorem unknownAction_blind (ev : Instr) : Blind (unknownAction ev) := fun _ => rfl

/-! ### One step of the handler -/

theorem endAction_blind : Blind fun s => .next (endAction s) := .next fun _ => rfl

theorem handleOnce_blind (h : Blind act) : Blind (handleOnce act) := by
  intro s
  simp only [handleOnce, eraseDispatch_kH]
  split
  · exact h.andThen endAction_blind s
  · rfl

theorem handleStopping_blind {ev : Instr} {entry rest : State → Result} (he : Blind entry) (hr : Blind rest) :
    Blind (handleStopping ev entry rest) := by
  have hreleased : Blind fun u => andThen (rest { u with state := .ready }) fun t => .next (endAction t) :=
    .andThen (fun u => hr.congr (s := { eraseDispatch u with state := .ready }) (t := { u with state := .ready }) rfl)
      endAction_blind
  intro s
  simp only [handleStopping, eraseDispatch_kH]
  split
  · exact he s
  · split
    · exact Blind.ite (p := (·.stopPending = true)) (fun _ => .rfl) next_blind hreleased s
    · rfl

theorem exec_event_blind {i : Instr} (hi : i.isEvent = true) : Blind (exec i) := by
  cases i
  case evtStart low din => exact handleOnce_blind startAction_blind
  case evtRepStart low din => exact handleOnce_blind startAction_blind
  case evtMtSlaAck low din => exact handleStopping_blind (mtAckedAction_blind _) next_blind
  case evtMtDataAck low din => exact handleStopping_blind (mtAckedAction_blind _) next_blind
  case evtMtSlaNack low din => exact handleStopping_blind (stopWithStatus_blind _ _) next_blind
  case evtMtDataNack low din => exact handleStopping_blind (stopWithStatus_blind _ _) next_blind
  case evtArbLost low din => exact handleOnce_blind arbLostAction_blind
  case evtMrSlaAck low din => exact handleOnce_blind reply_moreExpected_blind
  case evtMrDataAck low din => exact handleOnce_blind (mrDataAckAction_blind _ _)
  case evtMrDataNack low din => exact handleStopping_blind (mrDataNackAction_blind _ _) next_blind
  case evtMrSlaNack low din => exact handleStopping_blind (stop_blind _) next_blind
  case evtSrSlaAck low din => exact handleOnce_blind srAddressedAction_blind
  case evtSrArbLostSlaAck low din => exact handleOnce_blind srAddressedAction_blind
  case evtSrGcallAck low din => exact handleOnce_blind srAddressedAction_blind
  case evtSrArbLostGcallAck low din => exact handleOnce_blind srAddressedAction_blind
  case evtSrDataAck low din => exact handleOnce_blind (srDataAckAction_blind _ _)
  case evtSrGcallDataAck low din => exact handleOnce_blind (srDataAckAction_blind _ _)
  case evtSrDataNack low din => exact handleOnce_blind (reply_blind false)
  case evtSrGcallDataNack low din => exact handleOnce_blind (reply_blind false)
  case evtSrStop low din => exact handleStopping_blind (stop_blind _) srStopRest_blind
  case evtStSlaAck low din => exact handleOnce_blind (stAddressedAction_blind _)
  case evtStArbLostSlaAck low din => exact handleOnce_blind (stAddressedAction_blind _)
  case evtStDataAck low din => exact handleOnce_blind (stSend_blind _)
  case evtStDataNack low din => exact handleOnce_blind releaseBus_blind
  case evtStLastData low din => exact handleOnce_blind releaseBus_blind
  case evtBusError low din => exact handleStopping_blind (stopWithStatus_blind _ _) next_blind
  case evtNoInfo low din => exact handleOnce_blind next_blind
  case evtUnknownD0 low din => exact handleOnce_blind (unknownAction_blind _)
  case evtUnknownD8 low din => exact handleOnce_blind (unknownAction_blind _)
  case evtUnknownE0 low din => exact handleOnce_blind (unknownAction_blind _)
  case evtUnknownE8 low din => exact handleOnce_blind (unknownAction_blind _)
  case evtUnknownF0 low din => exact handleOnce_blind (unknownAction_blind _)
  all_goals cases hi

/-- Settles O50: the two states are the same blotted, and no event's action reads what the blotting removes. -/
theorem handlerReadsNeitherStateNorRole : Obligations.HandlerReadsNeitherStateNorRole :=
  fun _ _ _ _ hi => (exec_event_blind hi).congr rfl

end Sys2Proof.Machine
end

section
/-! One request of a callback body (44_bus_primitives.md R288, R289): the words it takes, the steps of its rule one
after the other, and what the body does with its answer. -/

namespace Sys2Proof.Machine

open Sys2Proof

variable {i : Instr} {rule : Frame → State → Advance} {fr fr' : Frame} {v : Byte} {fuel m : Nat}
  {more : List Word} {s t : State}

/-! ### The words of a request -/

/-- R100, R102: a well-formed request is decoded from its words, whatever follows them. -/
theorem decodeRequest_words (hi : i.isEvent = false) (hwf : i.wellFormed = true) (more : List Word) :
    decodeRequest (headerWord i :: (payloadWords i ++ more)) = .ok (i, more) := by
  have hd : decodeRequest (headerWord i :: payloadWords i) = .ok (i, []) := by
    have h := decode_encode_request hi hwf
    rwa [encode, hi, if_neg Bool.false_ne_true, decode_request_eq_ok] at h
  generalize hp : payloadWords i = ws at hd ⊢
  cases decodedRequest_of_decodeRequest hd with
  | single _ hop hs => exact decodeRequest_single hop hs
  | block bytes _ _ _ _ =>
    subst hp
    exact decodeRequest_block more (of_decide_eq_true hwf)

/-! ### The steps of a rule -/

theorem runSteps_goto (h : rule fr s = .goto fr' t) :
    runSteps (fuel + 1) rule fr s = runSteps fuel rule fr' t := by
  rw [runSteps, h]

theorem runSteps_ret (h : rule fr s = .ret v t) : runSteps (fuel + 1) rule fr s = .ret v t := by
  rw [runSteps, h]

theorem runSteps_fault {r : Fault} (h : rule fr s = .fault r) : runSteps (fuel + 1) rule fr s = .fault r := by
  rw [runSteps, h]

/-! ### The request in its body -/

/-- R288: a request that returns hands its response to the body, which goes on after its words. -/
theorem runBody_of_ret (hi : i.isEvent = false) (hwf : i.wellFormed = true) (hrule : bodyRule i = some rule)
    (h : runSteps (bodyFuel i) rule (atStep 1) s = .ret v t) :
    runBody (m + 1) (headerWord i :: (payloadWords i ++ more)) s = runBody m more (logBody i v t) := by
  simp only [runBody, decodeRequest_words hi hwf, hrule, h]

theorem runBody_of_fault {r : Fault} (hi : i.isEvent = false) (hwf : i.wellFormed = true)
    (hrule : bodyRule i = some rule) (h : runSteps (bodyFuel i) rule (atStep 1) s = .fault r) :
    runBody (m + 1) (headerWord i :: (payloadWords i ++ more)) s = .fault r := by
  simp only [runBody, decodeRequest_words hi hwf, hrule, h]

/-- R289: the body stops where it reaches a request it may not contain. -/
theorem runBody_of_forbidden (hi : i.isEvent = false) (hwf : i.wellFormed = true) (hrule : bodyRule i = none) :
    runBody (m + 1) (headerWord i :: (payloadWords i ++ more)) s =
      .fault (.forbiddenInCallback (headerWord i) s) := by
  simp only [runBody, decodeRequest_words hi hwf, hrule]

/-- Settles O48: none of the seven has a rule in a body. -/
theorem forbiddenRequestsFaultInCallbacks : Obligations.ForbiddenRequestsFaultInCallbacks := by
  intro i more n s hi
  obtain ⟨f, rfl⟩ | ⟨a, rfl⟩ | ⟨f, rfl⟩ | rfl | ⟨a, rfl⟩ | ⟨b, rfl⟩ | ⟨a, q, b, rfl⟩ := hi
  all_goals exact runBody_of_forbidden rfl rfl rfl

/-! ### The permitted requests of one word, run to their end -/

/-- The three steps of R171 where they find room, for whichever request runs them. -/
theorem runSteps_writeByte_of_lt (by_ : Instr) (b : Byte) (h : s.size.toNat < 32) :
    runSteps (fuel + 3) (writeByteRule by_ b) (atStep 1) s = .ret 1 (byteAppended b s) :=
  calc runSteps (fuel + 3) (writeByteRule by_ b) (atStep 1) s
    _ = runSteps (fuel + 2) (writeByteRule by_ b) { step := 2, n := s.size } s :=
      runSteps_goto (writeByteRule_one_of_not_full by_ b h.ne)
    _ = runSteps (fuel + 1) (writeByteRule by_ b) { step := 3, n := s.size }
          { s with buf := Memory.write s.buf s.size.toNat b } :=
      runSteps_goto (writeByteRule_two_of_lt by_ b h)
    _ = _ := runSteps_ret (writeByteRule_three by_ b _ _)

theorem runSteps_writeByte_of_full (by_ : Instr) (b : Byte) (h : s.size.toNat = 32) :
    runSteps (fuel + 1) (writeByteRule by_ b) (atStep 1) s = .ret 0 s :=
  runSteps_ret (writeByteRule_one_of_full by_ b h)

theorem runSteps_writeByte_of_gt (by_ : Instr) (b : Byte) (h : 32 < s.size.toNat) :
    runSteps (fuel + 2) (writeByteRule by_ b) (atStep 1) s = .fault (.bufferOverrun s.size.toNat by_ s) :=
  (runSteps_goto (writeByteRule_one_of_not_full by_ b h.ne')).trans
    (runSteps_fault (writeByteRule_two_of_ge by_ b h.le))

theorem availableRule_one : availableRule (atStep 1) s = .goto { step := 2, n := s.size } s := rfl

theorem readRule_one : readRule (atStep 1) s = .goto { step := 2, i := s.index } s := rfl

/-- R202 with no step of another agent between its two: the fault records the `size` there is. -/
theorem runSteps_available_of_le (h : s.index.toNat ≤ s.size.toNat) :
    runSteps (fuel + 2) availableRule (atStep 1) s = .ret (s.size - s.index) s :=
  (runSteps_goto availableRule_one).trans (runSteps_ret (availableRule_two_of_le h))

theorem runSteps_available_of_lt (h : s.size.toNat < s.index.toNat) :
    runSteps (fuel + 2) availableRule (atStep 1) s = .fault (.cursorUnderflow s.index s.size s) :=
  (runSteps_goto availableRule_one).trans (runSteps_fault (availableRule_two_of_lt h))

theorem runSteps_read_of_ge (h : s.size.toNat ≤ s.index.toNat) :
    runSteps (fuel + 2) readRule (atStep 1) s = .ret 0 s :=
  (runSteps_goto readRule_one).trans (runSteps_ret (readRule_two_of_ge h))

/-- Steps 1 and 2 of R203 where a byte is unread. -/
theorem runSteps_read_of_lt (h : s.index.toNat < s.size.toNat) :
    runSteps (fuel + 2) readRule (atStep 1) s = runSteps fuel readRule { step := 3, i := s.index } s :=
  (runSteps_goto readRule_one).trans (runSteps_goto (readRule_two_of_lt h))

theorem runSteps_read_of_some (hmore : s.index.toNat < s.size.toNat) (hpos : s.index.toNat < 32)
    (h : Memory.read s.buf s.index.toNat = some v) :
    runSteps (fuel + 4) readRule (atStep 1) s = .ret v { s with index := s.index + 1 } :=
  calc runSteps (fuel + 4) readRule (atStep 1) s
    _ = runSteps (fuel + 2) readRule { step := 3, i := s.index } s := runSteps_read_of_lt hmore
    _ = runSteps (fuel + 1) readRule { step := 4, i := s.index, v := v } s :=
      runSteps_goto (readRule_three_of_some hpos h)
    _ = _ := runSteps_ret rfl

theorem runSteps_read_of_unwritten (hmore : s.index.toNat < s.size.toNat) (hpos : s.index.toNat < 32)
    (h : Memory.read s.buf s.index.toNat = none) :
    runSteps (fuel + 3) readRule (atStep 1) s = .fault (.unwrittenByte s.index.toNat s) :=
  (runSteps_read_of_lt hmore).trans (runSteps_fault (readRule_three_of_none hpos h))

theorem runSteps_read_of_overrun (hmore : s.index.toNat < s.size.toNat) (hpos : 32 ≤ s.index.toNat) :
    runSteps (fuel + 3) readRule (atStep 1) s = .fault (.bufferOverrun s.index.toNat .read s) :=
  (runSteps_read_of_lt hmore).trans (runSteps_fault (readRule_three_of_ge hpos))

/-- Settles O49: each clause is one way a permitted rule runs to its end, and what the body does with it. -/
theorem callbackRequestsRunWhole : Obligations.CallbackRequestsRunWhole := fun b _ _ s =>
  ⟨runBody_of_ret (t := { s with onRx := b }) rfl rfl rfl rfl,
   runBody_of_ret (t := { s with onTx := b }) rfl rfl rfl rfl,
   fun h => runBody_of_ret (t := byteAppended b s) rfl rfl rfl (runSteps_writeByte_of_lt (.write b) b h),
   fun h => runBody_of_ret rfl rfl rfl (runSteps_writeByte_of_full (.write b) b h),
   fun h => runBody_of_fault rfl rfl rfl (runSteps_writeByte_of_gt (.write b) b h),
   fun v h => by
     obtain rfl : v = s.size - s.index := by bv_omega
     exact runBody_of_ret rfl rfl rfl (runSteps_available_of_le (by omega)),
   fun h => runBody_of_fault rfl rfl rfl (runSteps_available_of_lt h),
   fun _ hmore hpos h => runBody_of_ret (t := { s with index := s.index + 1 }) rfl rfl rfl
     (runSteps_read_of_some hmore hpos h),
   fun h => runBody_of_ret rfl rfl rfl (runSteps_read_of_ge h),
   fun hmore hpos h => runBody_of_fault rfl rfl rfl (runSteps_read_of_unwritten hmore hpos h),
   fun hmore hpos => runBody_of_fault rfl rfl rfl (runSteps_read_of_overrun hmore hpos)⟩

end Sys2Proof.Machine
end

section
/-! A `WRITE_BLOCK` in a callback body (44_bus_primitives.md R288; 41_master_transmit.md R172): its loop with no step of
another agent inside it. -/

namespace Sys2Proof.Machine

open Sys2Proof

variable {bytes : List Byte} {j k fuel : Nat} {s t : State}

/-- Steps 21 to 23: one pass through the loop. -/
theorem runSteps_writeBlock_byte (hlt : k < bytes.length) (h : s.size.toNat < 32) :
    runSteps (fuel + 3) (writeBlockRule bytes) (blockNext bytes k) s =
      runSteps fuel (writeBlockRule bytes) (blockNext bytes (k + 1)) (byteAppended bytes[k] s) := by
  rw [blockNext_of_lt hlt]
  calc runSteps (fuel + 3) (writeBlockRule bytes) { step := 21, k := k } s
    _ = runSteps (fuel + 2) (writeBlockRule bytes) { step := 22, n := s.size, k := k } s :=
      runSteps_goto (writeBlockRule_21_of_not_full hlt h.ne)
    _ = runSteps (fuel + 1) (writeBlockRule bytes) { step := 23, n := s.size, k := k }
          { s with buf := Memory.write s.buf s.size.toNat bytes[k] } :=
      runSteps_goto (writeBlockRule_22_of_lt (List.getElem?_eq_getElem hlt) h)
    _ = _ := runSteps_goto (writeBlockRule_23 _ _ hlt)

/-- `j` passes through the loop, as long as the block and the buffer allow them. -/
theorem runSteps_writeBlock_bytes (hlen : j ≤ bytes.length) (hroom : ∀ k < j, s.size.toNat + k < 32) :
    ∃ t, BlockWritten bytes j s t ∧ ∀ fuel, runSteps (fuel + 3 * j + 1) (writeBlockRule bytes) (atStep 1) s =
      runSteps fuel (writeBlockRule bytes) (blockNext bytes j) t := by
  induction j with
  | zero => exact ⟨s, .zero bytes s, fun fuel => runSteps_goto writeBlockRule_one⟩
  | succ j ih =>
    obtain ⟨t, ht, hrun⟩ := ih (by omega) fun k hk => hroom k (by omega)
    have hj := hroom j (Nat.lt_succ_self j)
    refine ⟨_, ht.succ hj (List.getElem?_eq_getElem hlen), fun fuel => ?_⟩
    calc runSteps (fuel + 3 * (j + 1) + 1) (writeBlockRule bytes) (atStep 1) s
      _ = runSteps (fuel + 3 + 3 * j + 1) (writeBlockRule bytes) (atStep 1) s := by
        rw [Nat.mul_succ, ← Nat.add_assoc, Nat.add_right_comm fuel]
      _ = runSteps (fuel + 3) (writeBlockRule bytes) (blockNext bytes j) t := hrun (fuel + 3)
      _ = _ := runSteps_writeBlock_byte hlen (ht.size ▸ hj)

/-- The step that ends the loop answers the number of bytes written, whether the block or the room has run out. -/
theorem runSteps_writeBlock_end (hlen : j ≤ bytes.length) (h : j = bytes.length ∨ s.size.toNat = 32) :
    runSteps (fuel + 1) (writeBlockRule bytes) (blockNext bytes j) s = .ret (BitVec.ofNat 8 j) s := by
  obtain rfl | hlt := hlen.eq_or_lt
  · rw [blockNext_length]
    exact runSteps_ret writeBlockRule_three
  · rw [blockNext_of_lt hlt]
    exact runSteps_ret (writeBlockRule_21_of_full hlt (h.resolve_left hlt.ne))

theorem runSteps_writeBlock (hsize : s.size.toNat ≤ 32 ∨ bytes = [])
    (hj : j = min bytes.length (32 - s.size.toNat)) :
    ∃ t, BlockWritten bytes j s t ∧
      runSteps (bodyFuel (.writeBlock bytes)) (writeBlockRule bytes) (atStep 1) s = .ret (BitVec.ofNat 8 j) t := by
  rw [← List.length_eq_zero_iff] at hsize
  obtain ⟨t, ht, hrun⟩ := runSteps_writeBlock_bytes (bytes := bytes) (s := s) (j := j) (by omega) (by omega)
  have hend : j = bytes.length ∨ t.size.toNat = 32 := by
    rw [ht.size]
    omega
  have hfuel : bodyFuel (.writeBlock bytes) = 3 * (bytes.length - j) + 1 + 3 * j + 1 := by
    rw [bodyFuel]
    omega
  refine ⟨t, ht, ?_⟩
  rw [hfuel, hrun]
  exact runSteps_writeBlock_end (by omega) hend

/-- R70: with `size` past the buffer, step 2 of the first byte faults. -/
theorem runSteps_writeBlock_of_gt (h : 32 < s.size.toNat) (hne : bytes ≠ []) :
    runSteps (bodyFuel (.writeBlock bytes)) (writeBlockRule bytes) (atStep 1) s =
      .fault (.bufferOverrun s.size.toNat (.writeBlock bytes) s) := by
  have hpos : 0 < bytes.length := List.length_pos_iff.2 hne
  have hfuel : bodyFuel (.writeBlock bytes) = 3 * bytes.length - 1 + 3 := by
    rw [bodyFuel]
    omega
  calc runSteps (bodyFuel (.writeBlock bytes)) (writeBlockRule bytes) (atStep 1) s
    _ = runSteps (3 * bytes.length - 1 + 2) (writeBlockRule bytes) { step := 21 } s := by
      rw [hfuel, runSteps_goto writeBlockRule_one, blockNext_of_lt hpos]
    _ = runSteps (3 * bytes.length - 1 + 1) (writeBlockRule bytes) { step := 22, n := s.size } s :=
      runSteps_goto (writeBlockRule_21_of_not_full hpos h.ne')
    _ = _ := runSteps_fault (writeBlockRule_22_of_ge (List.getElem?_eq_getElem hpos) h.le)

/-- Settles O58: the loop's passes by induction on their number, its end, and the fault of its first pass. -/
theorem callbackBlockRunsWhole : Obligations.CallbackBlockRunsWhole := by
  intro bytes more n s hlen
  have hwf : (Instr.writeBlock bytes).wellFormed = true := decide_eq_true hlen
  refine ⟨fun hsize => ?_, fun hsize hne => runBody_of_fault rfl hwf rfl (runSteps_writeBlock_of_gt hsize hne)⟩
  obtain ⟨t, ⟨hrest, htsize, hinside, houtside⟩, hrun⟩ := runSteps_writeBlock hsize rfl
  exact ⟨_, runBody_of_ret rfl hwf rfl hrun, by rw [logBody, hrest], htsize, hinside, houtside⟩

end Sys2Proof.Machine
end

section
/-! A repeated START between two transmits (44_bus_primitives.md R283, R284; 70_reset_and_hazards.md R353): the end of
the first, its caller's return, and the next transmit up to its address on the bus. -/

namespace Sys2Proof.Machine

open Sys2Proof

variable {a : BitVec 7} {b : Bool} {i : Instr} {s : State}

/-- R233, R287: an acknowledged transmit with no byte left and `sendStop` false arms the repeated START. -/
theorem exec_mtAcks_of_repStart (hi : MtAcks i) (hk : s.kH = .idle) (hdone : s.size.toNat ≤ s.index.toNat)
    (hstop : s.sendStop = some false) : exec i s = .next (armRepeatedStart s) := by
  rw [exec_of_mtAcks hi hk, mtAckedAction_of_ge i hdone, finishMaster_of_repStart i hstop]

/-- Steps 5 and 6 of R173, once the handler has ended the transmit. -/
theorem runExec_endTransmission_return {x : TransmissionStatus} (hk : inStep (.endTransmission b) 5 s)
    (hstate : s.state = .ready) (hx : s.status = some x) :
    runExec 2 (.endTransmission b) s = .next (returned (.endTransmission b) x.code s) :=
  calc runExec 2 (.endTransmission b) s
    _ = runExec 1 (.endTransmission b) (caller (.endTransmission b) 6 s) :=
      runExec_of_next (exec_goto rfl (callerAt_inStep hk)
        (endTransmissionRule_five_of_not_transmitting b (by simp [hstate])))
    _ = _ := runExec_of_next (exec_endTransmission_six_of_some rfl hx)

theorem exec_endTransmission_two (hk : inStep (.endTransmission b) 2 s) :
    exec (.endTransmission b) s = .next (caller (.endTransmission b) 3 { s with sendStop := some b }) :=
  exec_goto rfl (callerAt_inStep hk) rfl

theorem exec_endTransmission_three (hk : inStep (.endTransmission b) 3 s) :
    exec (.endTransmission b) s = .next (caller (.endTransmission b) 4 { s with status := some .success }) :=
  exec_goto rfl (callerAt_inStep hk) rfl

/-- R284 after an armed repeated START: the address byte, and `Ack`. -/
theorem exec_endTransmission_four_of_inRepStart {x : Byte} (hk : inStep (.endTransmission b) 4 s)
    (hrep : s.inRepStart = true) (hx : s.address = some x) :
    exec (.endTransmission b) s =
      .next (caller (.endTransmission b) 5 (emit .ack (emitData x { s with inRepStart := false }))) :=
  exec_goto rfl (callerAt_inStep hk) (issueThen_of_inRepStart (atStep 5) hrep hx)

/-- What step 4 of R173 leaves after an armed repeated START (R284): the address byte, and `Ack`. -/
def addressReissued (b : Bool) (x : Byte) (s : State) : State :=
  emit .ack (emitData x { s with sendStop := some b, status := some .success, inRepStart := false })

/-- Steps 1 to 4 of R173 after an armed repeated START: the address goes out at once. -/
theorem runExec_endTransmission_reissue {x : Byte} (hk : s.kC = .idle) (hi : s.initialized = true)
    (hr : s.role = .master) (hrep : s.inRepStart = true) (hx : s.address = some x) :
    runExec 4 (.endTransmission b) s = .next (caller (.endTransmission b) 5 (addressReissued b x s)) :=
  calc runExec 4 (.endTransmission b) s
    _ = runExec 3 (.endTransmission b) (caller (.endTransmission b) 2 s) :=
      runExec_of_next (exec_goto rfl (callerAt_idle hk) (endTransmissionRule_one_of_master b hi hr))
    _ = runExec 2 (.endTransmission b) (caller (.endTransmission b) 3 { s with sendStop := some b }) :=
      runExec_of_next (exec_endTransmission_two rfl)
    _ = runExec 1 (.endTransmission b) (caller (.endTransmission b) 4
          { s with sendStop := some b, status := some .success }) :=
      runExec_of_next (exec_endTransmission_three rfl)
    _ = _ := runExec_of_next (exec_endTransmission_four_of_inRepStart rfl hrep hx)

/-- A whole `BEGIN_TRANSMISSION` after an armed repeated START, and `END_TRANSMISSION` up to the address: no `Start` and
no `Stop`. -/
theorem transmit_after_repStart (a : BitVec 7) (b : Bool) (hk : s.kC = .idle) (hi : s.initialized = true)
    (hr : s.role = .master) (hstate : s.state = .ready) (hrep : s.inRepStart = true) :
    ∃ u v, runExec 6 (.beginTransmission a) s = .next u ∧ u.armed = s.armed ∧
      runExec 4 (.endTransmission b) u = .next v ∧ v.armed = true ∧ v.inRepStart = false ∧
      v.cmdLog = s.cmdLog ++ [.data (slaW a), .command .ack] :=
  ⟨_, _, runExec_beginTransmission hk hi hr hstate, rfl,
    runExec_endTransmission_reissue rfl hi hr hrep rfl, rfl, rfl, List.append_assoc _ _ _⟩

/-- Settles O57: the handler arms the repeated START, and both callers reach the next transmit idle, with the block as
the handler left it. -/
theorem repeatedStartNeedsNoStop : Obligations.RepeatedStartNeedsNoStop := by
  intro low din i a b s hi hk hbegun hr hstop hdone
  refine ⟨armRepeatedStart s, exec_mtAcks_of_repStart ⟨low, din, hi⟩ hk hdone hstop, rfl, rfl, rfl, rfl,
    fun x hC hx => runExec_endTransmission_return hC rfl hx, fun r hcase => ?_⟩
  obtain ⟨l, rfl⟩ : ∃ l, r = { armRepeatedStart s with kC := .idle, reqLog := l } := by
    rcases hcase with ⟨hC, rfl⟩ | ⟨x, rfl⟩
    · exact ⟨s.reqLog, by rw [← hC]; rfl⟩
    · exact ⟨_, rfl⟩
  obtain ⟨u, v, hu, harmed, hv, hon, hrep, hlog⟩ := transmit_after_repStart
    (s := { armRepeatedStart s with kC := .idle, reqLog := l }) a b rfl hbegun hr rfl rfl
  refine ⟨u, v, hu, harmed, hv, hon, hrep, ?_⟩
  rw [hlog, slaW_eq]
  exact List.append_assoc _ _ _

end Sys2Proof.Machine
end

section
/-! The hold of `stop()` (44_bus_primitives.md R282) over all the events that can hold. -/

namespace Sys2Proof.Machine

open Sys2Proof

/-- R282: an event that can hold is a stopping action, and after the hold nothing is left of any but `SR_STOP`'s. -/
theorem exec_of_stops {i : Instr} (hi : stops i = true) :
    ∃ entry rest, (∀ s, exec i s = handleStopping i entry rest s) ∧
      ((∀ low din, i ≠ .evtSrStop low din) → rest = .next) := by
  cases i
  case evtMtSlaAck low din => exact ⟨_, _, fun _ => rfl, fun _ => rfl⟩
  case evtMtDataAck low din => exact ⟨_, _, fun _ => rfl, fun _ => rfl⟩
  case evtMtSlaNack low din => exact ⟨_, _, fun _ => rfl, fun _ => rfl⟩
  case evtMtDataNack low din => exact ⟨_, _, fun _ => rfl, fun _ => rfl⟩
  case evtMrDataNack low din => exact ⟨_, _, fun _ => rfl, fun _ => rfl⟩
  case evtMrSlaNack low din => exact ⟨_, _, exec_evtMrSlaNack low din, fun _ => rfl⟩
  case evtSrStop low din => exact ⟨_, _, exec_evtSrStop low din, fun h => absurd rfl (h low din)⟩
  case evtBusError low din => exact ⟨_, _, fun _ => rfl, fun _ => rfl⟩
  all_goals cases hi

/-- Settles O37: the two branches of the hold, and the empty rest of every class but `SR_STOP`. -/
theorem stopHoldsUntilDone : Obligations.StopHoldsUntilDone := by
  intro i s hi hk
  obtain ⟨entry, rest, hexec, hrest⟩ := exec_of_stops hi
  rw [hexec]
  refine ⟨handleStopping_held hk, fun hclass hdone => ?_⟩
  rw [hrest hclass, handleStopping_released hk hdone]
  rfl

end Sys2Proof.Machine
end

section
/-! The conditions of delivery (60_exceptions.md R308): when a post lands, and when the handler has nothing to take. -/

namespace Sys2Proof.Machine

open Sys2Proof

variable {s : State}

/-! ### Posting -/

theorem postEnabled_iff :
    postEnabled s = true ↔ s.enabled = true ∧ s.armed = true ∧ s.pending = none ∧ s.kH = .idle := by
  simp only [postEnabled, Bool.and_eq_true, Option.isNone_iff_eq_none, decide_eq_true_eq, and_assoc]

theorem busPost_of_enabled (st din : Byte) (h : postEnabled s = true) :
    busPost st din s = { s with pending := some ⟨st, din⟩, regs := PhysRegs.set .status st s.regs } :=
  if_pos h

theorem busPost_of_not_enabled (st din : Byte) (h : ¬ postEnabled s = true) : busPost st din s = s := if_neg h

/-! ### Taking -/

theorem handlerTurn_of_not_deliverable (hH : s.kH = .idle) (h : s.pending = none ∨ s.enabled = false) :
    handlerTurn s = .next s := by
  simp only [handlerTurn, hH]
  rcases h with hp | he
  · simp only [hp]
  · cases s.pending <;> simp [he]

/-- Settles O14: the two branches of a post, and the handler's turn with nothing it may take. -/
theorem deliveryConditions : Obligations.DeliveryConditions := by
  refine fun s ts => ⟨fun st din hs => ⟨fun h => ?_, fun h => ?_⟩, fun hs hH h => ?_⟩
  · rw [step_of_schedule hs, runTurn, busPost_of_enabled (s := turnTaken s) st din (postEnabled_iff.2 h)]
    rfl
  · rw [step_of_schedule hs, runTurn, busPost_of_not_enabled (s := turnTaken s) st din (mt postEnabled_iff.1 h)]
  · exact (step_of_schedule hs).trans (handlerTurn_of_not_deliverable (s := turnTaken s) hH h)

end Sys2Proof.Machine
end

section
/-! What the handler leaves of the caller (60_exceptions.md R313, 10_state.md R43), and that the event slot is written
by no instruction, so that an event on it stays until the handler takes it (60_exceptions.md R310). -/

namespace Sys2Proof.Machine

open Sys2Proof

/-! ### The caller's own fields -/

/-- The caller's continuation, what R43 gives the caller alone, and what only the ports write, are the same. -/
def CallerKept (s t : State) : Prop :=
  t.kC = s.kC ∧ t.reqLog = s.reqLog ∧ t.requests = s.requests ∧ t.role = s.role ∧ t.initialized = s.initialized ∧
    t.address = s.address ∧ t.sendStop = s.sendStop ∧ t.enabled = s.enabled ∧ t.pending = s.pending ∧
    t.regs.bitrate = s.regs.bitrate ∧ t.regs.ownAddr = s.regs.ownAddr ∧ t.regs.status = s.regs.status ∧
    t.regs.addrMask = s.regs.addrMask

theorem ActionFrame.callerKept {s t : State} (h : ActionFrame s t) : CallerKept s t := by
  rw [CallerKept, h.regs, h.rest]
  exact ⟨rfl, rfl, rfl, rfl, rfl, rfl, rfl, rfl, rfl, rfl, rfl, rfl, rfl⟩

/-- Settles O51: an action keeps its frame, `stop()` and the end of the action write none of these fields, and a hold
writes nothing. -/
theorem handlerLeavesTheCallerAlone : Obligations.HandlerLeavesTheCallerAlone := by
  intro i s t hi h
  cases exec_event_case hi h with
  | ends u hk hf ht => subst ht; exact hf.callerKept
  | stops u hk hi hf ht => subst ht; exact hf.callerKept
  | holds hk hp ht => subst ht; exact (ActionFrame.refl _).callerKept

/-! ### The event slot -/

theorem exec_pending {i : Instr} {s t : State} (h : exec i s = .next t) : t.pending = s.pending := by
  cases hi : i.isEvent with
  | false =>
    obtain ⟨-, hpending, -⟩ := requestsLeaveTheHandlerAlone i s t hi h
    exact hpending
  | true =>
    obtain ⟨-, -, -, -, -, -, -, -, hpending, -⟩ := handlerLeavesTheCallerAlone i s t hi h
    exact hpending

/-- R308: a post finds the slot taken. -/
theorem busPost_of_pending {s : State} {e : Event} (st din : Byte) (h : s.pending = some e) : busPost st din s = s := by
  refine busPost_of_not_enabled st din fun hpost => ?_
  obtain ⟨-, -, hempty, -⟩ := postEnabled_iff.1 hpost
  cases h.symm.trans hempty

theorem takeTurn_pending (s : State) : (takeTurn s).2.pending = s.pending := by
  rw [takeTurn_state]

/-- Settles O15: an instruction leaves the slot, a post finds it taken, and only the handler's entry empties it. -/
theorem pendingEventIsNeverLost : Obligations.PendingEventIsNeverLost := by
  intro s t e hp h
  have hu : (takeTurn s).2.pending = some e := (takeTurn_pending s).trans hp
  have hc := step_cases s
  generalize (takeTurn s).1 = turn at hc ⊢
  generalize (takeTurn s).2 = u at hu hc ⊢
  rw [h] at hc
  generalize hr : Host.Outcome.next t = r at hc
  cases hc with
  | callerHeld ev hH => cases hr; exact .inl hu
  | callerRuns i fr hH hC => exact .inl ((exec_pending hr.symm).trans hu)
  | callerTakes i rest hH hC hd => exact .inl ((exec_pending hr.symm).trans hu)
  | callerWaits e hH hC hd he => cases hr; exact .inl hu
  | callerFaults e hH hC hd he => cases hr
  | handlerResumes ev hH => exact .inl ((exec_pending hr.symm).trans hu)
  | handlerTakes e' hH hp' he =>
    obtain rfl : e' = e := Option.some.inj (hp'.symm.trans hp)
    exact .inr ⟨exec_pending hr.symm, rfl, hH, he, rfl⟩
  | handlerWaits hH hw => cases hr; exact .inl hu
  | posts st din => cases hr; exact .inl (by rw [busPost_of_pending st din hu, hu])
  | stopsDone => cases hr; exact .inl hu

end Sys2Proof.Machine
end

section
/-! A callback body never refuses (44_bus_primitives.md R288): each permitted request ends within the steps `bodyFuel`
gives it, and each takes a word of the body at least. -/

namespace Sys2Proof.Machine

open Sys2Proof

/-! ### The steps of a request -/

/-- A run of a request's steps that has ended: it returned or it faulted. -/
def Ends (a : Advance) : Prop := Holds (fun _ _ => False) (fun _ => True) a

theorem Ends.of_ret {a : Advance} {v : Byte} {t : State} (h : a = .ret v t) : Ends a := by rw [h]; trivial

theorem Ends.of_fault {a : Advance} {f : Fault} (h : a = .fault f) : Ends a := by rw [h]; trivial

theorem runSteps_write_ends (b : Byte) (s : State) :
    Ends (runSteps (bodyFuel (.write b)) (writeByteRule (.write b) b) (atStep 1) s) := by
  rcases Nat.lt_trichotomy s.size.toNat 32 with h | h | h
  · exact .of_ret (runSteps_writeByte_of_lt _ b h)
  · exact .of_ret (runSteps_writeByte_of_full _ b h)
  · exact .of_fault (runSteps_writeByte_of_gt _ b h)

theorem runSteps_writeBlock_ends (bytes : List Byte) (s : State) :
    Ends (runSteps (bodyFuel (.writeBlock bytes)) (writeBlockRule bytes) (atStep 1) s) := by
  by_cases h : s.size.toNat ≤ 32 ∨ bytes = []
  · obtain ⟨t, -, hrun⟩ := runSteps_writeBlock h rfl
    exact .of_ret hrun
  · obtain ⟨hsize, hne⟩ := not_or.1 h
    exact .of_fault (runSteps_writeBlock_of_gt (Nat.lt_of_not_le hsize) hne)

theorem runSteps_available_ends (s : State) :
    Ends (runSteps (bodyFuel .available) availableRule (atStep 1) s) := by
  rcases Nat.lt_or_ge s.size.toNat s.index.toNat with h | h
  · exact .of_fault (runSteps_available_of_lt h)
  · exact .of_ret (runSteps_available_of_le h)

theorem runSteps_read_ends (s : State) : Ends (runSteps (bodyFuel .read) readRule (atStep 1) s) := by
  rcases Nat.lt_or_ge s.index.toNat s.size.toNat with hmore | h
  · rcases Nat.lt_or_ge s.index.toNat 32 with hpos | h
    · cases h : Memory.read s.buf s.index.toNat with
      | none => exact .of_fault (runSteps_read_of_unwritten hmore hpos h)
      | some v => exact .of_ret (runSteps_read_of_some hmore hpos h)
    · exact .of_fault (runSteps_read_of_overrun hmore h)
  · exact .of_ret (runSteps_read_of_ge h)

/-- R289: whatever a body may contain ends within its fuel. -/
theorem runSteps_body_ends {i : Instr} {rule : Frame → State → Advance} (h : bodyRule i = some rule) (s : State) :
    Ends (runSteps (bodyFuel i) rule (atStep 1) s) := by
  cases i <;> simp only [bodyRule, reduceCtorEq] at h <;> cases h
  case setOnReceive b => trivial
  case setOnTransmit b => trivial
  case write b => exact runSteps_write_ends b s
  case writeBlock bytes => exact runSteps_writeBlock_ends bytes s
  case available => exact runSteps_available_ends s
  case read => exact runSteps_read_ends s
  case writeBlockPayload b => trivial

/-! ### The words of a body -/

theorem runBody_not_refused {n : Nat} {ws : List Word} (hn : ws.length ≤ n) (s : State) (r : Refusal) :
    runBody n ws s ≠ .refused r := by
  induction n generalizing ws s with
  | zero =>
    rw [List.length_eq_zero_iff.1 (Nat.le_zero.1 hn)]
    nofun
  | succ n ih =>
    cases ws with
    | nil => nofun
    | cons w ws =>
      cases hd : decodeRequest (w :: ws) with
      | error e => simp only [runBody, hd]; nofun
      | ok p =>
        obtain ⟨i, rest⟩ := p
        have hi := decodeRequest_not_event hd
        have hwf := decodeRequest_wellFormed hd
        have hwords := eq_words_of_decodeRequest hd
        have hrest : rest.length ≤ n := by
          have hlen := congrArg List.length hwords
          simp only [List.length_cons, List.length_append] at hlen hn
          omega
        rw [hwords]
        cases hb : bodyRule i with
        | none => rw [runBody_of_forbidden hi hwf hb]; nofun
        | some rule =>
          have hends := runSteps_body_ends hb s
          cases hrun : runSteps (bodyFuel i) rule (atStep 1) s with
          | goto fr t => exact (hrun ▸ hends : Ends (.goto fr t)).elim
          | ret v t => rw [runBody_of_ret hi hwf hb hrun]; exact ih hrest _
          | fault f => rw [runBody_of_fault hi hwf hb hrun]; nofun
          | refused f => exact (hrun ▸ hends : Ends (.refused f)).elim

theorem invokeCallback_not_refused (id : Byte) (arg : Option Byte) (s : State) (r : Refusal) :
    invokeCallback id arg s ≠ .refused r := by
  by_cases h : id = 0
  · rw [invokeCallback_of_zero arg s h]; nofun
  · rw [invokeCallback_of_ne_zero arg s h]
    exact runBody_not_refused le_rfl _ r

end Sys2Proof.Machine
end

section
/-! What the action of an event can do to `status` (60_exceptions.md R303), and that from a place where it may run it is
never refused: one table over the events, from which both are read off. -/

namespace Sys2Proof.Machine

open Sys2Proof

/-! ### The writers of `status` -/

/-- R303: what an instruction writes to `status`, if it writes it. -/
def statusWritten : Instr → Option TransmissionStatus
  | .endTransmission _ => some .success
  | .evtMtSlaNack _ _ => some .addressNack
  | .evtMtDataNack _ _ => some .dataNack
  | .evtArbLost _ _ | .evtBusError _ _ => some .otherError
  | _ => none

variable {out : Option TransmissionStatus} {s t u : State}

/-- `status` is as it was, or `out` was written to it. -/
def StatusStep (out : Option TransmissionStatus) (s t : State) : Prop :=
  t.status = s.status ∨ (out.isSome = true ∧ t.status = out)

theorem StatusStep.trans (h : StatusStep out s t) (g : StatusStep out t u) : StatusStep out s u := by
  rcases g with g | g
  · exact h.imp g.trans (And.imp_right g.trans)
  · exact .inr g

/-! ### Actions -/

/-- An outcome that goes on does so with `P`, and it is no refusal. -/
def Allows (P : State → Prop) : Result → Prop
  | .next t => P t
  | .fault _ => True
  | .refused _ => False

theorem Allows.of_next {P : State → Prop} {r : Result} (h : Allows P r) (hr : r = .next t) : P t := by
  subst hr; exact h

theorem Allows.not_refused {P : State → Prop} {r : Result} (h : Allows P r) (x : Refusal) : r ≠ .refused x := by
  rintro rfl; exact h

/-- The action is never refused, and to `status` it writes `out` at most. -/
def Runs (out : Option TransmissionStatus) (act : State → Result) : Prop := ∀ s, Allows (StatusStep out s) (act s)

variable {act k : State → Result}

theorem Runs.next {f : State → State} (h : ∀ s, StatusStep out s (f s)) : Runs out fun s => .next (f s) := h

/-- Two actions, one after the other. -/
theorem Runs.after (hk : Runs out k) {r : Result} (hr : Allows (StatusStep out s) r) :
    Allows (StatusStep out s) (andThen r k) := by
  cases r with
  | next t =>
    rw [andThen_next]
    have h := hk t
    cases hkt : k t with
    | next u => exact StatusStep.trans hr (h.of_next hkt)
    | fault f => trivial
    | refused x => exact h.not_refused x hkt
  | fault f => trivial
  | refused x => exact hr

/-! ### The primitives -/

theorem reply_runs (ack : Bool) : Runs out fun s => .next (reply ack s) := .next fun _ => .inl rfl

theorem reply_moreExpected_runs : Runs out fun s => .next (reply (moreExpected s) s) := .next fun _ => .inl rfl

theorem releaseBus_runs : Runs out fun s => .next (releaseBus s) := .next fun _ => .inl rfl

theorem stop_runs (ev : Instr) : Runs out fun s => .next (stop ev s) := .next fun _ => .inl rfl

theorem next_runs : Runs out .next := .next (f := id) fun _ => .inl rfl

theorem storeByte_runs (ev : Instr) (v : Byte) : Runs out (storeByte ev v) := by
  intro s
  unfold storeByte
  split
  · rename_i hw
    obtain ⟨-, rfl⟩ := bufWrite_eq_ok.1 hw
    exact .inl rfl
  · trivial

theorem sendByte_runs (ev : Instr) : Runs out (sendByte ev) := by
  intro s
  unfold sendByte
  split
  · exact .inl rfl
  · trivial

theorem finishMaster_runs (ev : Instr) : Runs out (finishMaster ev) := by
  intro s
  unfold finishMaster
  split
  · exact .inl rfl
  · exact .inl rfl
  · trivial

/-- A callback keeps its frame, and `status` is outside it. -/
theorem invokeCallback_runs (id : Byte) (arg : Option Byte) : Runs out (invokeCallback id arg) := by
  intro s
  cases h : invokeCallback id arg s with
  | next t => exact .inl (by rw [(invokeCallback_frame h).rest])
  | fault f => trivial
  | refused x => exact invokeCallback_not_refused id arg s x h

/-! ### The actions of the classes -/

theorem startAction_runs : Runs out startAction := by
  intro s
  unfold startAction
  split
  · exact .inl rfl
  · trivial

theorem mtAckedAction_runs (ev : Instr) : Runs out (mtAckedAction ev) := by
  intro s
  unfold mtAckedAction
  split
  · exact (reply_runs true).after (sendByte_runs ev s)
  · exact finishMaster_runs ev s

/-- R234, R235, R248. -/
theorem stopWithStatus_runs (ev : Instr) (x : TransmissionStatus) : Runs (some x) (stopWithStatus ev x) :=
  .next fun _ => .inr ⟨rfl, rfl⟩

/-- R236. -/
theorem arbLostAction_runs : Runs (some .otherError) arbLostAction := .next fun _ => .inr ⟨rfl, rfl⟩

theorem mrDataAckAction_runs (ev : Instr) (din : Byte) : Runs out (mrDataAckAction ev din) := fun s =>
  reply_moreExpected_runs.after (storeByte_runs ev din s)

theorem mrDataNackAction_runs (ev : Instr) (din : Byte) : Runs out (mrDataNackAction ev din) := fun s =>
  (finishMaster_runs ev).after (storeByte_runs ev din s)

theorem srAddressedAction_runs : Runs out srAddressedAction := .next fun _ => .inl rfl

theorem srDataAckAction_runs (ev : Instr) (din : Byte) : Runs out (srDataAckAction ev din) := by
  intro s
  unfold srDataAckAction
  split
  · exact (reply_runs true).after (storeByte_runs ev din s)
  · exact reply_runs false s

theorem srStopRest_runs : Runs out srStopRest := fun s =>
  releaseBus_runs.after (invokeCallback_runs s.onRx (some s.index) { s with size := s.index, index := 0 })

theorem stSend_runs (ev : Instr) : Runs out (stSend ev) := by
  intro s
  unfold stSend
  split
  · exact reply_moreExpected_runs.after (sendByte_runs ev s)
  · trivial

theorem fillIfEmpty_runs (ev : Instr) : Runs out (fillIfEmpty ev) := by
  intro s
  unfold fillIfEmpty
  split
  · split
    · rename_i hw
      obtain ⟨-, rfl⟩ := bufWrite_eq_ok.1 hw
      exact .inl rfl
    · trivial
  · exact .inl rfl

theorem stAddressedAction_runs (ev : Instr) : Runs out (stAddressedAction ev) := fun s =>
  Runs.after (fun t => (stSend_runs ev).after (fillIfEmpty_runs ev t))
    (invokeCallback_runs s.onTx none { s with state := .slaveTransmit, index := 0, size := 0 })

theorem unknownAction_runs (ev : Instr) : Runs out (unknownAction ev) := fun _ => trivial

/-! ### One step of the handler -/

/-- What `exec` runs for an event: an action without `stop()`, or one that may hold in it (60_exceptions.md R314,
44_bus_primitives.md R282). -/
inductive EventAction (i : Instr) : Prop
  | once (act : State → Result) (hexec : exec i = handleOnce act) (hi : stops i = false)
      (ha : Runs (statusWritten i) act)
  | stopping (entry rest : State → Result) (hexec : exec i = handleStopping i entry rest) (hi : stops i = true)
      (he : Runs (statusWritten i) entry) (hr : Runs (statusWritten i) rest)

theorem eventAction {i : Instr} (hi : i.isEvent = true) : EventAction i := by
  cases i
  case evtStart low din => exact .once _ rfl rfl startAction_runs
  case evtRepStart low din => exact .once _ rfl rfl startAction_runs
  case evtMtSlaAck low din => exact .stopping _ _ rfl rfl (mtAckedAction_runs _) next_runs
  case evtMtDataAck low din => exact .stopping _ _ rfl rfl (mtAckedAction_runs _) next_runs
  case evtMtSlaNack low din => exact .stopping _ _ rfl rfl (stopWithStatus_runs _ _) next_runs
  case evtMtDataNack low din => exact .stopping _ _ rfl rfl (stopWithStatus_runs _ _) next_runs
  case evtArbLost low din => exact .once _ rfl rfl arbLostAction_runs
  case evtMrSlaAck low din => exact .once mrAddressedAction rfl rfl reply_moreExpected_runs
  case evtMrDataAck low din => exact .once _ rfl rfl (mrDataAckAction_runs _ _)
  case evtMrDataNack low din => exact .stopping _ _ rfl rfl (mrDataNackAction_runs _ _) next_runs
  case evtMrSlaNack low din => exact .stopping _ _ rfl rfl (stop_runs _) next_runs
  case evtSrSlaAck low din => exact .once _ rfl rfl srAddressedAction_runs
  case evtSrArbLostSlaAck low din => exact .once _ rfl rfl srAddressedAction_runs
  case evtSrGcallAck low din => exact .once _ rfl rfl srAddressedAction_runs
  case evtSrArbLostGcallAck low din => exact .once _ rfl rfl srAddressedAction_runs
  case evtSrDataAck low din => exact .once _ rfl rfl (srDataAckAction_runs _ _)
  case evtSrGcallDataAck low din => exact .once _ rfl rfl (srDataAckAction_runs _ _)
  case evtSrDataNack low din => exact .once srDataNackAction rfl rfl (reply_runs false)
  case evtSrGcallDataNack low din => exact .once srDataNackAction rfl rfl (reply_runs false)
  case evtSrStop low din => exact .stopping _ _ rfl rfl (stop_runs _) srStopRest_runs
  case evtStSlaAck low din => exact .once _ rfl rfl (stAddressedAction_runs _)
  case evtStArbLostSlaAck low din => exact .once _ rfl rfl (stAddressedAction_runs _)
  case evtStDataAck low din => exact .once _ rfl rfl (stSend_runs _)
  case evtStDataNack low din => exact .once stEndAction rfl rfl releaseBus_runs
  case evtStLastData low din => exact .once stEndAction rfl rfl releaseBus_runs
  case evtBusError low din => exact .stopping _ _ rfl rfl (stopWithStatus_runs _ _) next_runs
  case evtNoInfo low din => exact .once _ rfl rfl next_runs
  case evtUnknownD0 low din => exact .once _ rfl rfl (unknownAction_runs _)
  case evtUnknownD8 low din => exact .once _ rfl rfl (unknownAction_runs _)
  case evtUnknownE0 low din => exact .once _ rfl rfl (unknownAction_runs _)
  case evtUnknownE8 low din => exact .once _ rfl rfl (unknownAction_runs _)
  case evtUnknownF0 low din => exact .once _ rfl rfl (unknownAction_runs _)
  all_goals cases hi

theorem endAction_runs : Runs out fun s => .next (endAction s) := .next fun _ => .inl rfl

/-- The handler is at the entry of `i`, or in a hold that `i` has. -/
def AtEvent (i : Instr) (s : State) : Prop := s.kH = .idle ∨ (s.kH = .stopWait i ∧ stops i = true)

theorem atEvent_of_next {i : Instr} (hi : i.isEvent = true) (h : exec i s = .next t) : AtEvent i s := by
  cases eventAction hi with
  | once act hexec hnostop ha =>
    rw [hexec] at h
    exact .inl (handleOnce_eq_next.1 h).1
  | stopping entry rest hexec hstops he hr =>
    rw [hexec] at h
    rcases handleStopping_eq_next.1 h with ⟨hk, -⟩ | ⟨hk, -⟩ | ⟨hk, -⟩
    · exact .inl hk
    · exact .inr ⟨hk, hstops⟩
    · exact .inr ⟨hk, hstops⟩

theorem exec_event_allows {i : Instr} (hi : i.isEvent = true) (hk : AtEvent i s) :
    Allows (StatusStep (statusWritten i) s) (exec i s) := by
  cases eventAction hi with
  | once act hexec hnostop ha =>
    have hidle : s.kH = .idle := hk.resolve_right fun h => Bool.false_ne_true (hnostop.symm.trans h.2)
    rw [hexec, handleOnce_idle hidle]
    exact endAction_runs.after (ha s)
  | stopping entry rest hexec hstops he hr =>
    rw [hexec]
    rcases hk with hidle | ⟨hheld, -⟩
    · rw [handleStopping_idle hidle]
      exact he s
    · cases hp : s.stopPending with
      | true => rw [handleStopping_held hheld hp]; exact .inl rfl
      | false =>
        rw [handleStopping_released hheld hp]
        exact endAction_runs.after (hr { s with state := .ready })

end Sys2Proof.Machine
end

section
/-! The writers of `status` (60_exceptions.md R303): of the requests `END_TRANSMISSION` alone, and of the events those
of `statusWritten`. -/

namespace Sys2Proof.Machine

open Sys2Proof

variable {out : Option TransmissionStatus} {s t : State}

/-! ### The steps of a request -/

/-- At every step the rule writes `out` to `status` at most. -/
def RuleStatus (out : Option TransmissionStatus) (rule : Frame → State → Advance) : Prop :=
  ∀ fr s, Yields (fun _ => StatusStep out s) (StatusStep out s) (rule fr s)

theorem beginMasterRule_status (f : BitVec 24) : RuleStatus out (beginMasterRule f) := by
  intro fr s
  unfold beginMasterRule
  split
  · split <;> exact .inl rfl
  · exact .inl rfl
  · split
    · exact .inl rfl
    · trivial
  · exact .inl rfl
  · exact .inl rfl
  · trivial

theorem beginSlaveRule_status (a : BitVec 7) : RuleStatus out (beginSlaveRule a) := by
  intro fr s
  unfold beginSlaveRule
  split
  · split <;> exact .inl rfl
  · exact .inl rfl
  · exact .inl rfl
  · exact .inl rfl
  · exact .inl rfl
  · trivial

theorem endRule_status : RuleStatus out endRule := by
  intro fr s
  unfold endRule
  split
  · split <;> exact .inl rfl
  · exact .inl rfl
  · exact .inl rfl
  · exact .inl rfl
  · exact .inl rfl
  · trivial

theorem setFrequencyRule_status (f : BitVec 24) : RuleStatus out (setFrequencyRule f) := by
  intro fr s
  unfold setFrequencyRule
  split
  · split
    · exact .inl rfl
    · trivial
  · split <;> exact .inl rfl
  · split
    · exact .inl rfl
    · trivial
  · trivial

theorem issueThen_status (fr : Frame) (s : State) :
    Yields (fun _ => StatusStep out s) (StatusStep out s) (issueThen fr s) := by
  refine (issueThen_holds fun t h => ?_).yields
  rcases issueAddress_eq_next.1 h with ⟨-, a, -, rfl⟩ | ⟨-, rfl⟩
  · exact .inl rfl
  · exact .inl rfl

theorem beginTransmissionRule_status (a : BitVec 7) : RuleStatus out (beginTransmissionRule a) := by
  intro fr s
  unfold beginTransmissionRule
  split
  · split
    · trivial
    · split <;> exact .inl rfl
  · split <;> exact .inl rfl
  · exact .inl rfl
  · exact .inl rfl
  · exact .inl rfl
  · exact .inl rfl
  · trivial

/-- R173: step 3 writes `Success`. -/
theorem endTransmissionRule_status (b : Bool) : RuleStatus (some .success) (endTransmissionRule b) := by
  intro fr s
  unfold endTransmissionRule
  split
  · split
    · trivial
    · split <;> exact .inl rfl
  · exact .inl rfl
  · exact .inr ⟨rfl, rfl⟩
  · exact issueThen_status _ s
  · split <;> exact .inl rfl
  · split
    · exact .inl rfl
    · trivial
  · trivial

theorem requestFromRule_status (a : BitVec 7) (q : Byte) (b : Bool) : RuleStatus out (requestFromRule a q b) := by
  intro fr s
  unfold requestFromRule
  split
  · split
    · trivial
    · split
      · exact .inl rfl
      · split
        · exact .inl rfl
        · split
          · trivial
          · exact .inl rfl
  · split <;> exact .inl rfl
  · exact .inl rfl
  · exact .inl rfl
  · exact .inl rfl
  · exact .inl rfl
  · exact .inl rfl
  · exact issueThen_status _ s
  · split <;> exact .inl rfl
  · exact .inl rfl
  · exact .inl rfl
  · trivial

/-- What a callback body may contain writes the buffer, the cursors and the callback ids alone. -/
theorem bodyRule_status {i : Instr} {rule : Frame → State → Advance} (h : bodyRule i = some rule) :
    RuleStatus out rule := fun fr s =>
  (bodyRule_bufferFrame h fr s).mono (fun _ _ hu => .inl (by rw [hu])) fun _ hu => .inl (by rw [hu])

theorem requestRule_status {i : Instr} (hi : i.isEvent = false) : RuleStatus (statusWritten i) (requestRule i) := by
  cases requestKind hi with
  | beginMaster f => exact beginMasterRule_status f
  | beginSlave a => exact beginSlaveRule_status a
  | endBus => exact endRule_status
  | setFrequency f => exact setFrequencyRule_status f
  | onBus i h =>
    cases i
    case beginTransmission a => exact beginTransmissionRule_status a
    case endTransmission b => exact endTransmissionRule_status b
    case requestFrom a q b => exact requestFromRule_status a q b
    all_goals cases h (atStep 1)
  | body i h => exact bodyRule_status h

/-! ### Every instruction -/

theorem exec_status {i : Instr} (h : exec i s = .next t) : StatusStep (statusWritten i) s t := by
  cases hi : i.isEvent with
  | false =>
    rcases exec_request_cases hi h fun fr _ => requestRule_status hi fr s with ⟨_, u, hu, rfl⟩ | ⟨_, u, hu, rfl⟩
    · exact hu
    · exact hu
  | true => exact (exec_event_allows hi (atEvent_of_next hi h)).of_next h

/-- Settles O54: a changed `status` was written by one of the five of `statusWritten`. -/
theorem statusHasFiveWriters : Obligations.StatusHasFiveWriters := by
  intro i s t h hne
  obtain ⟨hwrites, ht⟩ := (exec_status h).resolve_left hne
  cases i
  case endTransmission b => exact .inl ⟨⟨b, rfl⟩, ht⟩
  case evtMtSlaNack low din => exact .inr (.inl ⟨low, din, rfl, ht⟩)
  case evtMtDataNack low din => exact .inr (.inr (.inl ⟨low, din, rfl, ht⟩))
  case evtArbLost low din => exact .inr (.inr (.inr ⟨low, din, .inl rfl, ht⟩))
  case evtBusError low din => exact .inr (.inr (.inr ⟨low, din, .inr rfl, ht⟩))
  all_goals cases hwrites

end Sys2Proof.Machine
end

section
/-! No step is refused from a state of the data invariant (60_exceptions.md R306, 20_memory.md R90, 10_state.md R49;
notes/assumptions/12.md): both agents run their instruction from a place it has. -/

namespace Sys2Proof.Machine

open Sys2Proof

variable {i : Instr} {s : State}

/-! ### The two agents -/

theorem Holds.settle_not_refused {P : Frame → State → Prop} {Q : State → Prop} {a : Advance} (h : Holds P Q a)
    (i : Instr) (r : Refusal) : settle i a ≠ .refused r := by
  cases a with
  | goto fr t => nofun
  | ret v t => nofun
  | fault f => nofun
  | refused x => exact h.elim

theorem exec_request_not_refused {fr : Frame} (hi : i.isEvent = false) (hs : Inv s) (hat : callerAt i fr s)
    (r : Refusal) : exec i s ≠ .refused r := by
  have hfr : fr = atStep 1 ∨ frameOk i fr = true := hat.imp And.right fun hC => (hs.frameOk hC).2
  rw [exec_request_at hi hat]
  exact (requestRule_keeps hi fr s hfr hs.data).settle_not_refused i r

theorem exec_event_not_refused (hi : i.isEvent = true) (hk : AtEvent i s) (r : Refusal) : exec i s ≠ .refused r :=
  (exec_event_allows hi hk).not_refused r

/-! ### One step -/

/-- Settles O5: the caller's agent runs a request at its first step or where `k_C` names, the handler's an event at its
entry or in its own hold, and every other move goes on or faults. -/
theorem stepNeverRefused : Obligations.StepNeverRefused := by
  intro s r hs h
  have hframe := takeTurn_inputFrame s
  have hc := step_cases s
  generalize (takeTurn s).1 = turn at hc
  generalize (takeTurn s).2 = u at hframe hc
  have hu : Inv u := hs.inputFrame hframe
  have hC : u.kC = s.kC := by rw [hframe]
  have hH : u.kH = s.kH := by rw [hframe]
  rw [h] at hc
  generalize hr : Host.Outcome.refused r = x at hc
  cases hc with
  | callerHeld ev _ => cases hr
  | callerRuns i fr _ hrun =>
    have hi := (hs.caller_request (.inl ⟨fr, hrun⟩)).1
    exact exec_request_not_refused hi hu (.inr (hC.trans hrun)) r hr.symm
  | callerTakes i rest _ hidle hd =>
    have hi := decodeRequest_not_event hd
    exact exec_request_not_refused (s := { u with requests := rest }) hi (hu.inputFrame rfl)
      (.inl ⟨hC.trans hidle, rfl⟩) r hr.symm
  | callerWaits e _ _ hd he => cases hr
  | callerFaults e _ _ hd he => cases hr
  | handlerResumes ev hheld =>
    have hstops := hs.stops hheld
    exact exec_event_not_refused (isEvent_of_stops hstops) (.inr ⟨hH.trans hheld, hstops⟩) r hr.symm
  | handlerTakes e hidle hp he =>
    exact exec_event_not_refused (s := { u with pending := none }) (decodeEvent_isEvent e.st e.din)
      (.inl (hH.trans hidle)) r hr.symm
  | handlerWaits _ hw => cases hr
  | posts st din => cases hr
  | stopsDone => cases hr

end Sys2Proof.Machine
end
